-- ==== Sys2Proof/Word.lean ====
section
/-! DEFINITION. The widths of the values CFSD works on (00_scope.md R6, R7): unsigned, no signed quantity anywhere. -/

namespace Sys2Proof

/-- `u8`: a payload byte, a character of a line, an argument byte of a header. -/
abbrev Byte := BitVec 8

/-- `u16`: an interface identifier, a sample point, a timing field. -/
abbrev Half := BitVec 16

/-- `u32`: a command or response word. -/
abbrev Word := BitVec 32

/-- `u64`: host time and every value that travels as two words. -/
abbrev DWord := BitVec 64

end Sys2Proof
end

