-- ==== Sys2Proof/Config.lean ====
section
/-! DEFINITION. What an implementation fixes: the five named parameters of 00_scope.md R4 (capacities and catalog images,
92_eei_decisions.md D45), and the one free value of the model. -/

namespace Sys2Proof

/-- A bit-timing entry, the 8-tuple of 10_state.md R42. Nothing in the block computes or changes one. -/
structure TimingEntry where
  baseClock : Word
  bitrate : Word
  dataBitrate : Word
  samplePointPermille : Half
  prescaler : Half
  tseg1 : Half
  tseg2 : Half
  sjw : Half
deriving DecidableEq, Repr

/-- The named parameters of R4. `State` carries one of these as read-only data, so a statement for every state is a
statement for every value of the parameters (log entry 5). -/
structure Params where
  /-- `RING_CAP` -/
  ringCap : Nat
  /-- `LINE_CAP` -/
  lineCap : Nat
  /-- `TXQ_CAP` -/
  txqCap : Nat
  /-- `CAT_ARB`, in index order -/
  catArb : List TimingEntry
  /-- `CAT_DATA`, in index order -/
  catData : List TimingEntry
deriving DecidableEq, Repr

/-- The constraints R4 puts on the three capacities. -/
abbrev Params.WithinBounds (p : Params) : Prop :=
  2 ≤ p.ringCap ∧ 139 ≤ p.lineCap ∧ 139 ≤ p.txqCap

/-- R5 (b): no two entries of one table agree in the whole lookup key. -/
abbrev catalogKeysDistinct (l : List TimingEntry) : Prop :=
  l.Pairwise fun x y =>
    ¬ (x.baseClock = y.baseClock ∧ x.bitrate = y.bitrate ∧ x.samplePointPermille = y.samplePointPermille)

/-- R5 (c): the clock families 16, 48, 80 and 170 MHz, in hertz. -/
def clockFamilies : List Word := [16000000, 48000000, 80000000, 170000000]

/-- R5: a well-formed catalog image. R5 (a) holds by the field types. No meaning tests this: the block's rules are total on
any image. -/
abbrev Params.CatalogWellFormed (p : Params) : Prop :=
  catalogKeysDistinct p.catArb ∧ catalogKeysDistinct p.catData ∧
    ∀ c ∈ clockFamilies, ∃ e ∈ p.catArb ++ p.catData, e.baseClock = c

/-- The example image of 95_test_vectors.md section 1.1, arbitration phase. The spec invented it for its vectors. -/
def exampleArb : List TimingEntry :=
  [⟨16000000, 500000, 0, 875, 2, 13, 2, 1⟩,
   ⟨48000000, 500000, 0, 875, 6, 13, 2, 1⟩,
   ⟨80000000, 500000, 0, 875, 10, 13, 2, 2⟩,
   ⟨80000000, 500000, 0, 800, 8, 15, 4, 2⟩,
   ⟨80000000, 1000000, 0, 875, 5, 13, 2, 2⟩,
   ⟨170000000, 500000, 0, 882, 20, 14, 2, 2⟩]

/-- The example image of 95_test_vectors.md section 1.1, data phase. -/
def exampleData : List TimingEntry :=
  [⟨80000000, 2000000, 2000000, 750, 2, 14, 5, 4⟩,
   ⟨170000000, 2000000, 2000000, 764, 5, 12, 4, 4⟩]

/-- DESIGN CHOICE (log entry 5): the parameters `State.reset` carries are the conventions of 95_test_vectors.md section 1.
The spec leaves them open (D45, U7). -/
def Params.example : Params := ⟨16, 139, 139, exampleArb, exampleData⟩

/-- FREE VALUE (log entry 9): the 32-bit result word for a count that does not fit it. The spec bounds neither the capacities
nor the catalogs from above and states no word for a larger count. -/
opaque Config.wideCount : Nat → Word

end Sys2Proof
end

