-- ==== Sys2Proof/Syntax.lean ====
section
/-! DEFINITION. The operations of CFSD-1 as syntax: one constructor of `Instr` per row of the opcode table (30_encoding.md
R97, R103), and the events of the input ports (20_memory.md R66). -/

namespace Sys2Proof

/-- The field `f` of R93: which frame register. -/
inductive FrameReg where
  | f0
  | f1
deriving DecidableEq, Repr

/-- The field `t` of R93: which catalog table. -/
inductive Table where
  | arb
  | data
deriving DecidableEq, Repr

/-- The 40 commands of R97 by name; their numbers, masks and lengths are in `Decode.lean`. -/
inductive Opcode where
  | nop | cfgApply | ifOpen | ifClose | ifState | ifSetId | statGet | statBump | cfgGet
  | frmClear | frmSetRaw | frmGetRaw | frmSetId | frmGetId | frmSetFlags | frmGetFlags | frmSetLen | frmGetLen
  | frmSetByte | frmGetByte | frmExtract | frmSetTs | frmGetTs | frmSetIf | frmGetIf
  | btLookup | btCount | btItem | btTq
  | dlcEnc | dlcDec
  | tsConv | tsGet
  | serFrame | serBitrate | serFdRate | serOpenCh | serCloseCh
  | desPoll | desLevel
deriving DecidableEq, Repr

/-- One operation with its operands. An operand's type is the width the encoding gives it; a value the encoding admits and
R97 lists as illegal is refused by `Instr.WellFormed`. -/
inductive Instr where
  /-- R170 -/
  | nop
  /-- R171 -/
  | cfgApply (flags : BitVec 5) (bitrate samplePoint fdBitrate fdSamplePoint : Word)
  /-- R173 -/
  | ifOpen (caps : BitVec 4) (baseClock devNow : Word)
  /-- R174 -/
  | ifClose
  /-- R175 -/
  | ifState
  /-- R176 -/
  | ifSetId (id : Half)
  /-- R177 -/
  | statGet (n : BitVec 3)
  /-- R178 -/
  | statBump (n : BitVec 3)
  /-- R172 -/
  | cfgGet
  /-- R120 -/
  | frmClear (f : FrameReg)
  /-- R121 -/
  | frmSetRaw (f : FrameReg) (w : Word)
  /-- R122 -/
  | frmGetRaw (f : FrameReg)
  /-- R123 -/
  | frmSetId (f : FrameReg) (id : Word)
  /-- R124 -/
  | frmGetId (f : FrameReg)
  /-- R125 -/
  | frmSetFlags (f : FrameReg) (flags : BitVec 6)
  /-- R126 -/
  | frmGetFlags (f : FrameReg)
  /-- R127 -/
  | frmSetLen (f : FrameReg) (n : Byte)
  /-- R128 -/
  | frmGetLen (f : FrameReg)
  /-- R129 -/
  | frmSetByte (f : FrameReg) (i v : Byte)
  /-- R130 -/
  | frmGetByte (f : FrameReg) (i : Byte)
  /-- R134 -/
  | frmExtract (f : FrameReg) (be : Bool) (start len : Byte)
  /-- R135 -/
  | frmSetTs (f : FrameReg) (secLo secHi usec : Word)
  /-- R136 -/
  | frmGetTs (f : FrameReg)
  /-- R131 -/
  | frmSetIf (f : FrameReg) (id : Half)
  /-- R132 -/
  | frmGetIf (f : FrameReg)
  /-- R152 -/
  | btLookup (t : Table) (clk rate sp : Word)
  /-- R155 -/
  | btCount (t : Table) (clk : Word)
  /-- R156 -/
  | btItem (t : Table) (clk k : Word)
  /-- R158 -/
  | btTq (clk w3 w4 : Word)
  /-- R191; `fd` is the frame class, false classic and true FD -/
  | dlcEnc (fd : Bool) (n : Byte)
  /-- R192 -/
  | dlcDec (fd : Bool) (d : Byte)
  /-- R201 -/
  | tsConv (f : FrameReg) (v : Bool) (dts elapsedLo elapsedHi : Word)
  /-- R203 -/
  | tsGet
  /-- R213 -/
  | serFrame (f : FrameReg)
  /-- R215 -/
  | serBitrate (n : BitVec 4)
  /-- R216 -/
  | serFdRate (n : BitVec 4)
  /-- R217 -/
  | serOpenCh
  /-- R218 -/
  | serCloseCh
  /-- R236 -/
  | desPoll (f : FrameReg)
  /-- R237 -/
  | desLevel
  /-- R241, port operation -/
  | rxPush (d : Byte)
  /-- R220, port operation -/
  | txPop
deriving DecidableEq, Repr

/-- One transfer on an input port (R66): a whole command packet (R90: at least its header word, the port marks its end), a
byte on the receive byte port, or a request on the transmit byte port (R103). -/
inductive PortOp where
  | command (header : Word) (operands : List Word)
  | rxByte (d : Byte)
  | txRequest
deriving DecidableEq, Repr

end Sys2Proof
end

