-- ==== Sys2Proof/WellFormed.lean ====
section
/-! DEFINITION. The column "illegal by value" of 30_encoding.md R97 (rule R101): which operand values an operation accepts.
The meanings test the same in the words of their own rules and answer `ERR_ILLEGAL` (log entry 10). -/

namespace Sys2Proof

/-- R101. Every form not named here has no illegal value. -/
def Instr.WellFormed : Instr → Bool
  | .nop => true
  | .cfgApply _ _ samplePoint _ fdSamplePoint => samplePoint.toNat ≤ 0xFFFF && fdSamplePoint.toNat ≤ 0xFFFF
  | .ifOpen _ _ _ => true
  | .ifClose => true
  | .ifState => true
  | .ifSetId _ => true
  | .statGet n => n.toNat ≤ 5
  | .statBump n => n.toNat ≤ 5
  | .cfgGet => true
  | .frmClear _ => true
  | .frmSetRaw _ _ => true
  | .frmGetRaw _ => true
  | .frmSetId _ _ => true
  | .frmGetId _ => true
  | .frmSetFlags _ _ => true
  | .frmGetFlags _ => true
  | .frmSetLen _ _ => true
  | .frmGetLen _ => true
  | .frmSetByte _ _ _ => true
  | .frmGetByte _ _ => true
  | .frmExtract _ _ _ _ => true
  | .frmSetTs _ _ _ usec => usec.toNat < 1000000
  | .frmGetTs _ => true
  | .frmSetIf _ _ => true
  | .frmGetIf _ => true
  | .btLookup _ _ _ _ => true
  | .btCount _ _ => true
  | .btItem _ _ _ => true
  | .btTq _ _ _ => true
  | .dlcEnc _ _ => true
  | .dlcDec _ _ => true
  | .tsConv _ _ _ _ _ => true
  | .tsGet => true
  | .serFrame _ => true
  | .serBitrate n => n.toNat ≤ 9
  | .serFdRate n => n.toNat == 2 || n.toNat == 4 || n.toNat == 5 || n.toNat == 8
  | .serOpenCh => true
  | .serCloseCh => true
  | .desPoll _ => true
  | .desLevel => true
  | .rxPush _ => true
  | .txPop => true

end Sys2Proof
end

