-- ==== Sys2Proof/Decode.lean ====
section
/-! DEFINITION. Command encoding (30_encoding.md R90 to R104): the opcode map, a decoder total on every transfer of every
input port, and the encoder written from the same map. -/

namespace Sys2Proof

/-! ### The opcode map (R97) -/

/-- The column `opc` of R97. -/
def Opcode.code : Opcode → Byte
  | .nop => 0x00 | .cfgApply => 0x01 | .ifOpen => 0x02 | .ifClose => 0x03 | .ifState => 0x04
  | .ifSetId => 0x05 | .statGet => 0x06 | .statBump => 0x07 | .cfgGet => 0x08
  | .frmClear => 0x10 | .frmSetRaw => 0x11 | .frmGetRaw => 0x12 | .frmSetId => 0x13
  | .frmGetId => 0x14 | .frmSetFlags => 0x15 | .frmGetFlags => 0x16 | .frmSetLen => 0x17
  | .frmGetLen => 0x18 | .frmSetByte => 0x19 | .frmGetByte => 0x1A | .frmExtract => 0x1B
  | .frmSetTs => 0x1C | .frmGetTs => 0x1D | .frmSetIf => 0x1E | .frmGetIf => 0x1F
  | .btLookup => 0x20 | .btCount => 0x21 | .btItem => 0x22 | .btTq => 0x23
  | .dlcEnc => 0x30 | .dlcDec => 0x31
  | .tsConv => 0x40 | .tsGet => 0x41
  | .serFrame => 0x50 | .serBitrate => 0x51 | .serFdRate => 0x52 | .serOpenCh => 0x53
  | .serCloseCh => 0x54
  | .desPoll => 0x60 | .desLevel => 0x61

/-- The rows of R97 in the order of their opcodes. -/
def Opcode.all : List Opcode :=
  [.nop, .cfgApply, .ifOpen, .ifClose, .ifState, .ifSetId, .statGet, .statBump, .cfgGet,
   .frmClear, .frmSetRaw, .frmGetRaw, .frmSetId, .frmGetId, .frmSetFlags, .frmGetFlags, .frmSetLen,
   .frmGetLen, .frmSetByte, .frmGetByte, .frmExtract, .frmSetTs, .frmGetTs, .frmSetIf, .frmGetIf,
   .btLookup, .btCount, .btItem, .btTq, .dlcEnc, .dlcDec, .tsConv, .tsGet,
   .serFrame, .serBitrate, .serFdRate, .serOpenCh, .serCloseCh, .desPoll, .desLevel]

/-- The row an opcode byte selects; none is an unknown opcode (R98). -/
def Opcode.ofCode (c : Byte) : Option Opcode := Opcode.all.find? fun op => op.code == c

/-- The column `nops` of R97: how many operand words follow the header. -/
def Opcode.nops : Opcode → Nat
  | .cfgApply => 4
  | .frmSetTs | .btLookup | .btTq | .tsConv => 3
  | .ifOpen | .btItem => 2
  | .frmSetRaw | .frmSetId | .btCount => 1
  | .nop | .ifClose | .ifState | .ifSetId | .statGet | .statBump | .cfgGet | .frmClear | .frmGetRaw
  | .frmGetId | .frmSetFlags | .frmGetFlags | .frmSetLen | .frmGetLen | .frmSetByte | .frmGetByte
  | .frmExtract | .frmGetTs | .frmSetIf | .frmGetIf | .dlcEnc | .dlcDec | .tsGet | .serFrame
  | .serBitrate | .serFdRate | .serOpenCh | .serCloseCh | .desPoll | .desLevel => 0

/-- The column `nres` of R97: how many result words follow an `OK` status word. -/
def Opcode.nres : Opcode → Nat
  | .ifOpen => 12
  | .btLookup => 6
  | .cfgGet => 5
  | .btTq => 4
  | .frmGetTs | .tsConv | .tsGet | .desLevel => 3
  | .frmExtract => 2
  | .ifState | .statGet | .frmGetRaw | .frmGetId | .frmGetFlags | .frmGetLen | .frmGetByte | .frmGetIf
  | .btCount | .btItem | .dlcEnc | .dlcDec => 1
  | .nop | .cfgApply | .ifClose | .ifSetId | .statBump | .frmClear | .frmSetRaw | .frmSetId | .frmSetFlags
  | .frmSetLen | .frmSetByte | .frmSetTs | .frmSetIf | .serFrame | .serBitrate | .serFdRate | .serOpenCh
  | .serCloseCh | .desPoll => 0

/-- The column `mask` of the opcode table (R104): bits 31:24 and every reserved bit. -/
def Opcode.mask : Opcode → Word
  | .nop | .ifClose | .ifState | .cfgGet | .btTq | .tsGet | .serOpenCh | .serCloseCh | .desLevel => 0xFFFFFFFF
  | .cfgApply => 0xFFE0FFFF
  | .ifOpen => 0xFFF0FFFF
  | .ifSetId => 0xFFFF0000
  | .statGet | .statBump => 0xFFF8FFFF
  | .frmClear | .frmSetRaw | .frmGetRaw | .frmSetId | .frmGetId | .frmGetFlags | .frmGetLen | .frmSetTs
  | .frmGetTs | .frmGetIf | .btLookup | .btCount | .btItem | .serFrame | .desPoll => 0xFFFEFFFF
  | .frmSetFlags => 0xFFFEC0FF
  | .frmSetLen | .frmGetByte | .dlcEnc | .dlcDec => 0xFFFE00FF
  | .frmSetByte | .frmSetIf => 0xFFFE0000
  | .frmExtract => 0xFFFC0000
  | .tsConv => 0xFFFCFFFF
  | .serBitrate | .serFdRate => 0xFFFFF0FF

/-- The column `match` of the opcode table: the opcode in bits 31:24 and 0 elsewhere. -/
def Opcode.pattern (op : Opcode) : Word := op.code ++ (0 : BitVec 24)

/-! ### The header word (R91, R93) -/

/-- Field `opc`. -/
def headerOpc (h : Word) : Byte := h.extractLsb' 24 8

/-- Field `f = a[0]`. -/
def headerFrame (h : Word) : FrameReg := if h.getLsbD 16 then .f1 else .f0

/-- Field `t = a[0]`. -/
def headerTable (h : Word) : Table := if h.getLsbD 16 then .data else .arb

/-- Field `b`. -/
def headerB (h : Word) : Byte := h.extractLsb' 8 8

/-- Field `c`. -/
def headerC (h : Word) : Byte := h.extractLsb' 0 8

/-- The 16-bit argument with `b` as its high byte. -/
def headerBC (h : Word) : Half := h.extractLsb' 0 16

/-- The operation of a row with its operands taken from the header and the operand words (R94: in the order listed). It is
applied only to packets that passed the length check. -/
def instrOf (op : Opcode) (h : Word) (ws : List Word) : Instr :=
  match op with
  | .nop => .nop
  | .cfgApply => .cfgApply (h.extractLsb' 16 5) (ws.getD 0 0) (ws.getD 1 0) (ws.getD 2 0) (ws.getD 3 0)
  | .ifOpen => .ifOpen (h.extractLsb' 16 4) (ws.getD 0 0) (ws.getD 1 0)
  | .ifClose => .ifClose
  | .ifState => .ifState
  | .ifSetId => .ifSetId (headerBC h)
  | .statGet => .statGet (h.extractLsb' 16 3)
  | .statBump => .statBump (h.extractLsb' 16 3)
  | .cfgGet => .cfgGet
  | .frmClear => .frmClear (headerFrame h)
  | .frmSetRaw => .frmSetRaw (headerFrame h) (ws.getD 0 0)
  | .frmGetRaw => .frmGetRaw (headerFrame h)
  | .frmSetId => .frmSetId (headerFrame h) (ws.getD 0 0)
  | .frmGetId => .frmGetId (headerFrame h)
  | .frmSetFlags => .frmSetFlags (headerFrame h) (h.extractLsb' 8 6)
  | .frmGetFlags => .frmGetFlags (headerFrame h)
  | .frmSetLen => .frmSetLen (headerFrame h) (headerB h)
  | .frmGetLen => .frmGetLen (headerFrame h)
  | .frmSetByte => .frmSetByte (headerFrame h) (headerB h) (headerC h)
  | .frmGetByte => .frmGetByte (headerFrame h) (headerB h)
  | .frmExtract => .frmExtract (headerFrame h) (h.getLsbD 17) (headerB h) (headerC h)
  | .frmSetTs => .frmSetTs (headerFrame h) (ws.getD 0 0) (ws.getD 1 0) (ws.getD 2 0)
  | .frmGetTs => .frmGetTs (headerFrame h)
  | .frmSetIf => .frmSetIf (headerFrame h) (headerBC h)
  | .frmGetIf => .frmGetIf (headerFrame h)
  | .btLookup => .btLookup (headerTable h) (ws.getD 0 0) (ws.getD 1 0) (ws.getD 2 0)
  | .btCount => .btCount (headerTable h) (ws.getD 0 0)
  | .btItem => .btItem (headerTable h) (ws.getD 0 0) (ws.getD 1 0)
  | .btTq => .btTq (ws.getD 0 0) (ws.getD 1 0) (ws.getD 2 0)
  | .dlcEnc => .dlcEnc (h.getLsbD 16) (headerB h)
  | .dlcDec => .dlcDec (h.getLsbD 16) (headerB h)
  | .tsConv => .tsConv (headerFrame h) (h.getLsbD 17) (ws.getD 0 0) (ws.getD 1 0) (ws.getD 2 0)
  | .tsGet => .tsGet
  | .serFrame => .serFrame (headerFrame h)
  | .serBitrate => .serBitrate (h.extractLsb' 8 4)
  | .serFdRate => .serFdRate (h.extractLsb' 8 4)
  | .serOpenCh => .serOpenCh
  | .serCloseCh => .serCloseCh
  | .desPoll => .desPoll (headerFrame h)
  | .desLevel => .desLevel

/-! ### The decoder -/

/-- Why a packet is no operation. The block answers each with `ERR_ILLEGAL` and goes on (93_implementation_defined.md U5). -/
inductive DecodeError where
  /-- R98 -/
  | unknownOpcode
  /-- R100 -/
  | wrongLength
  /-- R99 -/
  | reservedBit
deriving DecidableEq, Repr

/-- What the decoder answers: an operation, or the reason there is none. -/
inductive Decoded where
  | instr (i : Instr)
  | rejected (e : DecodeError)
deriving DecidableEq, Repr

/-- R98, then R100, then R99 (the order of R101 and 60_exceptions.md R263). -/
def decodeCommand (h : Word) (ws : List Word) : Decoded :=
  match Opcode.ofCode (headerOpc h) with
  | none => .rejected .unknownOpcode
  | some op =>
    if ws.length ≠ op.nops then .rejected .wrongLength
    else if h &&& op.mask ≠ op.pattern then .rejected .reservedBit
    else .instr (instrOf op h ws)

/-- The operation a transfer stands for. Port operations have no opcode (R103). -/
def decode : PortOp → Decoded
  | .command h ws => decodeCommand h ws
  | .rxByte d => .instr (.rxPush d)
  | .txRequest => .instr .txPop

/-- The operation, when there is one. -/
def Decoded.toOption : Decoded → Option Instr
  | .instr i => some i
  | .rejected _ => none

/-! ### The encoder -/

/-- A header word from its opcode and argument bytes (R91). -/
def header (op : Opcode) (a b c : Byte) : Word := op.code ++ a ++ b ++ c

/-- Argument byte `a` of an operation whose only argument there is `f`. -/
def frameArg : FrameReg → Byte
  | .f0 => 0
  | .f1 => 1

/-- Argument byte `a` of an operation whose only argument there is `t`. -/
def tableArg : Table → Byte
  | .arb => 0
  | .data => 1

/-- Argument byte `a` with one flag in bit 0. -/
def boolArg (x : Bool) : Byte := if x then 1 else 0

/-- Argument byte `a` with `f` in bit 0 and a flag in bit 1. -/
def frameBoolArg (f : FrameReg) (x : Bool) : Byte := frameArg f ||| (if x then 2 else 0)

/-- High byte of a 16-bit argument. -/
def halfHigh (v : Half) : Byte := v.extractLsb' 8 8

/-- Low byte of a 16-bit argument. -/
def halfLow (v : Half) : Byte := v.extractLsb' 0 8

/-- The transfer that stands for an operation, from the "Encoding" line of its rule. -/
def encode : Instr → PortOp
  | .nop => .command (header .nop 0 0 0) []
  | .cfgApply flags r sp fr fsp => .command (header .cfgApply (flags.setWidth 8) 0 0) [r, sp, fr, fsp]
  | .ifOpen caps clk dev => .command (header .ifOpen (caps.setWidth 8) 0 0) [clk, dev]
  | .ifClose => .command (header .ifClose 0 0 0) []
  | .ifState => .command (header .ifState 0 0 0) []
  | .ifSetId id => .command (header .ifSetId 0 (halfHigh id) (halfLow id)) []
  | .statGet n => .command (header .statGet (n.setWidth 8) 0 0) []
  | .statBump n => .command (header .statBump (n.setWidth 8) 0 0) []
  | .cfgGet => .command (header .cfgGet 0 0 0) []
  | .frmClear f => .command (header .frmClear (frameArg f) 0 0) []
  | .frmSetRaw f w => .command (header .frmSetRaw (frameArg f) 0 0) [w]
  | .frmGetRaw f => .command (header .frmGetRaw (frameArg f) 0 0) []
  | .frmSetId f id => .command (header .frmSetId (frameArg f) 0 0) [id]
  | .frmGetId f => .command (header .frmGetId (frameArg f) 0 0) []
  | .frmSetFlags f flags => .command (header .frmSetFlags (frameArg f) (flags.setWidth 8) 0) []
  | .frmGetFlags f => .command (header .frmGetFlags (frameArg f) 0 0) []
  | .frmSetLen f n => .command (header .frmSetLen (frameArg f) n 0) []
  | .frmGetLen f => .command (header .frmGetLen (frameArg f) 0 0) []
  | .frmSetByte f i v => .command (header .frmSetByte (frameArg f) i v) []
  | .frmGetByte f i => .command (header .frmGetByte (frameArg f) i 0) []
  | .frmExtract f be st n => .command (header .frmExtract (frameBoolArg f be) st n) []
  | .frmSetTs f lo hi us => .command (header .frmSetTs (frameArg f) 0 0) [lo, hi, us]
  | .frmGetTs f => .command (header .frmGetTs (frameArg f) 0 0) []
  | .frmSetIf f id => .command (header .frmSetIf (frameArg f) (halfHigh id) (halfLow id)) []
  | .frmGetIf f => .command (header .frmGetIf (frameArg f) 0 0) []
  | .btLookup t clk rate sp => .command (header .btLookup (tableArg t) 0 0) [clk, rate, sp]
  | .btCount t clk => .command (header .btCount (tableArg t) 0 0) [clk]
  | .btItem t clk k => .command (header .btItem (tableArg t) 0 0) [clk, k]
  | .btTq clk w3 w4 => .command (header .btTq 0 0 0) [clk, w3, w4]
  | .dlcEnc fd n => .command (header .dlcEnc (boolArg fd) n 0) []
  | .dlcDec fd d => .command (header .dlcDec (boolArg fd) d 0) []
  | .tsConv f v dts lo hi => .command (header .tsConv (frameBoolArg f v) 0 0) [dts, lo, hi]
  | .tsGet => .command (header .tsGet 0 0 0) []
  | .serFrame f => .command (header .serFrame (frameArg f) 0 0) []
  | .serBitrate n => .command (header .serBitrate 0 (n.setWidth 8) 0) []
  | .serFdRate n => .command (header .serFdRate 0 (n.setWidth 8) 0) []
  | .serOpenCh => .command (header .serOpenCh 0 0 0) []
  | .serCloseCh => .command (header .serCloseCh 0 0 0) []
  | .desPoll f => .command (header .desPoll (frameArg f) 0 0) []
  | .desLevel => .command (header .desLevel 0 0 0) []
  | .rxPush d => .rxByte d
  | .txPop => .txRequest

/-! ### Rows of the table as transfers (log entry 14) -/

/-- The `k`-th 32-bit word of the number `w`, word 0 the least significant. -/
def tableWord (w k : Nat) : Word := BitVec.ofNat 32 (w / 2 ^ (32 * k))

/-- The operand count of a table word's packet: the opcode's `nops`, or more where `nbits` says so. -/
def tableOperands (nbits w : Nat) : Nat :=
  match Opcode.ofCode (headerOpc (tableWord w 0)) with
  | some op => max op.nops (nbits / 32 - 1)
  | none => nbits / 32 - 1

/-- The transfer of a row of the opcode table: no bits is the empty pattern of `TX.POP`, up to 8 bits the data bits of
`RX.PUSH` (R103), more a command packet with the operand words beyond `nbits` zero. -/
def tableWordOp (nbits w : Nat) : PortOp :=
  if nbits = 0 then .txRequest
  else if nbits ≤ 8 then .rxByte (BitVec.ofNat 8 w)
  else .command (tableWord w 0) ((List.range (tableOperands nbits w)).map fun k => tableWord w (k + 1))

/-- The operation the decoder reads from a table word. -/
def decodeTableWord (nbits w : Nat) : Option Instr := (decode (tableWordOp nbits w)).toOption

end Sys2Proof
end

