-- ==== Sys2Proof/Machine/State.lean ====
section
/-! DEFINITION. The state of one block instance (10_state.md R20 to R44), its reset value (70_reset_and_hazards.md R290), and
the data of its ports. Plain data throughout. -/

namespace Sys2Proof.Machine

/-- An index space of bytes (20_memory.md R60) as (index, byte) pairs: indices strictly rising, no pair holding the byte an
unlisted index reads as (`Memory.wf`, `Memory.read` in `Ops.lean`; log entry 6). -/
abbrev Memory := List Host.Cell

/-- 10_state.md R28: 0 is Rx, 1 is Tx. -/
inductive Direction where
  | rx
  | tx
deriving DecidableEq, Repr

/-- 10_state.md R26. -/
structure Timestamp where
  seconds : DWord
  microseconds : Word
deriving DecidableEq, Repr

/-- A frame register, the canonical frame of 10_state.md R20 to R28. The extended, remote and error flags and the identifier
are views of `rawId` (R22). -/
structure Frame where
  rawId : Word
  length : Byte
  /-- `FDATA`, indices 0 to 63 (20_memory.md R61) -/
  data : Memory
  isFD : Bool
  isBRS : Bool
  timestamp : Timestamp
  interfaceId : Half
  direction : Direction
deriving DecidableEq, Repr

/-- The all-zero frame of 10_state.md R29: the reset value, and what `FRM.CLEAR` writes. -/
def Frame.zero : Frame := ⟨0, 0, [], false, false, ⟨0, 0⟩, 0, .rx⟩

/-- `CFG`, 10_state.md R30. -/
structure AdapterConfig where
  bitrate : Word
  samplePoint : Half
  fdBitrate : Word
  fdSamplePoint : Half
  isCanFD : Bool
  listenOnly : Bool
  oneShot : Bool
  tripleSampling : Bool
  autoRestart : Bool
deriving DecidableEq, Repr

/-- `IFSTATE`, 10_state.md R31: encoded 0, 1, 2; the encoding 3 is never used (log entry 12). -/
inductive IfState where
  | closed
  | opening
  | opened
deriving DecidableEq, Repr

/-- The six counters by name, 10_state.md R34. -/
inductive CounterId where
  | rxCount
  | txCount
  | txErrors
  | rxErrors
  | rxOverruns
  | txDropped
deriving DecidableEq, Repr

/-- The values of the six counters. -/
structure Counters where
  rxCount : Word
  txCount : Word
  txErrors : Word
  rxErrors : Word
  rxOverruns : Word
  txDropped : Word
deriving DecidableEq, Repr

/-- Every counter 0: reset and a successful `IF.OPEN` (R34). -/
def Counters.zero : Counters := ⟨0, 0, 0, 0, 0, 0⟩

/-- The status codes of 60_exceptions.md R260 by name; the numbers are `Status.code` in `Ops.lean`. -/
inductive Status where
  | ok
  | errIllegal
  | errNotFound
  | errConfig
  | errState
  | errLength
  | errDlc
  | errFrame
  | errTxFull
  | errEmpty
  | errParse
  | errEnd
  | errDiv0
deriving DecidableEq, Repr

/-- What leaves the block: a response packet on the response port (30_encoding.md R95: the status word, then the result
words), or the answer of the transmit byte port (45_serializer.md R220). -/
inductive Output where
  | response (status : Word) (results : List Word)
  | txByte (v : Byte)
  | txEmpty
deriving DecidableEq, Repr

/-- What reaches the block: an operation on a port, with the value `hostNow` has for it (10_state.md R45, log entry 4), or the
reset event of the environment (70_reset_and_hazards.md R291). -/
inductive Input where
  | operation (hostNow : DWord) (op : PortOp)
  | reset
deriving DecidableEq, Repr

/-- The machine. The fields down to `txq` are the state the spec gives the block; the last four are the model's own
(parameters and ports). -/
structure State where
  /-- frame register `F0` (R20) -/
  f0 : Frame
  /-- frame register `F1` (R20) -/
  f1 : Frame
  /-- `CFG` (R30) -/
  cfg : AdapterConfig
  /-- `IFSTATE` (R31) -/
  ifState : IfState
  /-- `MODE` (R32): bit 0 fd, 1 listenOnly, 2 oneShot, 3 tripleSampling, 4 autoRestart -/
  mode : BitVec 5
  /-- `IFID` (R33) -/
  ifId : Half
  /-- the six counters (R34) -/
  counters : Counters
  /-- `HOSTOFF` (R35) -/
  hostOff : DWord
  /-- `DEVT0` (R36) -/
  devT0 : Word
  /-- the slots of the ring (R40) -/
  ring : Memory
  /-- write index of the ring (R40) -/
  ringHead : Nat
  /-- read index of the ring (R40) -/
  ringTail : Nat
  /-- the slots of the line buffer (R41) -/
  line : Memory
  /-- number of valid bytes of the line buffer (R41) -/
  lineLen : Nat
  /-- transmit queue, front first (R43) -/
  txq : List Byte
  /-- MODEL'S OWN: the parameters of 00_scope.md R4; no step changes them (log entry 5) -/
  params : Params
  /-- MODEL'S OWN: the host time input during the present operation (R45, log entry 4) -/
  hostNow : DWord
  /-- MODEL'S OWN: what the agents present next, in the total order of 20_memory.md R75 (log entry 2) -/
  inputs : List Input
  /-- MODEL'S OWN: what has left the block, oldest first; no rule reads it (log entry 1) -/
  outputs : List Output
deriving DecidableEq, Repr

/-- The machine right after reset with given parameters: every field at the value of R290. -/
def State.resetWith (p : Params) : State where
  f0 := Frame.zero
  f1 := Frame.zero
  cfg := ⟨0, 0, 0, 0, false, false, false, false, false⟩
  ifState := .closed
  mode := 0
  ifId := 0
  counters := Counters.zero
  hostOff := 0
  devT0 := 0
  ring := []
  ringHead := 0
  ringTail := 0
  line := []
  lineLen := 0
  txq := []
  params := p
  hostNow := 0
  inputs := []
  outputs := []

/-- The machine right after reset, with the parameters of log entry 5. -/
def State.reset : State := State.resetWith Params.example

/-- Reasons to stop with a fault. There is none: "Nothing is fatal" (60_exceptions.md R272); an operation that cannot be
carried out ends with a status and the block goes on (log entry 11). -/
inductive Fault where
deriving DecidableEq, Repr

/-- Reasons to give an operation no meaning. -/
inductive Refusal where
  /-- Raised by an arm of `exec` whose operation has no meaning in the model yet. Safe: nothing is claimed of it. No arm
  raises it. -/
  | notModelled (mnemonic : String)
deriving DecidableEq, Repr

/-- What a meaning answers. -/
abbrev Result := Host.Outcome State Fault Refusal

end Sys2Proof.Machine
end

