-- ==== Sys2Proof/Machine/Ops.lean ====
section
/-! DEFINITION. The operations every family shares: byte index spaces, responses, the error response (the block's exceptions),
helper functions of 00_scope.md R10, and how a step takes its operation from the ports. -/

namespace Sys2Proof.Machine

/-! ### Byte index spaces (20_memory.md R60, 00_scope.md R8) -/

/-- What an index nothing has written reads as: the reset value of `FDATA` (R24), and the choice R291 allows for ring and line
slots (log entry 6). -/
def Memory.blank : Byte := 0

/-- `MemRead(space, i, 1)`. -/
def Memory.read : Memory → Nat → Byte
  | [], _ => Memory.blank
  | (k, v) :: rest, i => if k = i then v else Memory.read rest i

/-- `MemWrite(space, i, 1, v)`, keeping the canonical form. -/
def Memory.write : Memory → Nat → Byte → Memory
  | [], i, v => if v = Memory.blank then [] else [(i, v)]
  | (k, w) :: rest, i, v =>
    if k < i then (k, w) :: Memory.write rest i v
    else if k = i then (if v = Memory.blank then rest else (i, v) :: rest)
    else (if v = Memory.blank then (k, w) :: rest else (i, v) :: (k, w) :: rest)

/-- The canonical form: indices strictly rising, no entry equal to what an unlisted index reads as. -/
def Memory.wf : Memory → Bool
  | [] => true
  | (k, v) :: rest => (v != Memory.blank) && rest.all (fun c => decide (k < c.1)) && Memory.wf rest

/-- Every listed index is below a bound. -/
def Memory.below (m : Memory) (n : Nat) : Bool := m.all fun c => decide (c.1 < n)

/-- Consecutive writes from an index upward. -/
def Memory.writeBytes (m : Memory) (i : Nat) : List Byte → Memory
  | [] => m
  | b :: bs => Memory.writeBytes (m.write i b) (i + 1) bs

/-! ### `FDATA`, the payload bytes (20_memory.md R61) -/

/-- Payload bytes of a frame register (R24). -/
abbrev payloadBytes : Nat := 64

/-- "Byte accessors are bounds-checked and return 0 / no-op outside `[0,64)`" (R130). -/
def Frame.readByte (fr : Frame) (i : Nat) : Byte := if i < payloadBytes then fr.data.read i else 0

/-- The write half of the same sentence (R129). -/
def Frame.writeByte (fr : Frame) (i : Nat) (v : Byte) : Frame :=
  if i < payloadBytes then { fr with data := fr.data.write i v } else fr

/-! ### Helper functions of 00_scope.md R10 -/

/-- `hexval(c)`. -/
def hexVal (c : Byte) : Option Nat :=
  if 0x30 ≤ c.toNat ∧ c.toNat ≤ 0x39 then some (c.toNat - 0x30)
  else if 0x41 ≤ c.toNat ∧ c.toNat ≤ 0x46 then some (c.toNat - 0x41 + 10)
  else if 0x61 ≤ c.toNat ∧ c.toNat ≤ 0x66 then some (c.toNat - 0x61 + 10)
  else none

/-- `hexchar(n)`, for `n` up to 15: upper case. -/
def hexChar (n : Nat) : Byte := if n ≤ 9 then BitVec.ofNat 8 (0x30 + n) else BitVec.ofNat 8 (0x41 + n - 10)

/-- "microseconds always < 1,000,000" (10_state.md R26). -/
abbrev microsPerSecond : Nat := 1000000

/-- `split_us(t)`. -/
def splitMicros (t : DWord) : Timestamp where
  seconds := BitVec.ofNat 64 (t.toNat / microsPerSecond)
  microseconds := BitVec.ofNat 32 (t.toNat % microsPerSecond)

/-- The carriage return that ends a line (45_serializer.md R210). -/
abbrev charCR : Byte := 0x0D

/-! ### 64-bit values on the ports (20_memory.md R69) -/

/-- A u64 from its low and high word. -/
def joinWords (lo hi : Word) : DWord := hi ++ lo

/-- Bits 31:0. -/
def lowWord (v : DWord) : Word := v.extractLsb' 0 32

/-- Bits 63:32. -/
def highWord (v : DWord) : Word := v.extractLsb' 32 32

/-- A count as a result word; one that does not fit 32 bits is the free value of log entry 9. -/
def countWord (n : Nat) : Word := if n < 2 ^ 32 then BitVec.ofNat 32 n else Config.wideCount n

/-! ### Responses (30_encoding.md R95, 60_exceptions.md R260, R264) -/

/-- The numbers of the status codes, R260. -/
def Status.code : Status → Byte
  | .ok => 0x00
  | .errIllegal => 0x01
  | .errNotFound => 0x02
  | .errConfig => 0x03
  | .errState => 0x04
  | .errLength => 0x05
  | .errDlc => 0x06
  | .errFrame => 0x07
  | .errTxFull => 0x08
  | .errEmpty => 0x09
  | .errParse => 0x0A
  | .errEnd => 0x0B
  | .errDiv0 => 0x0C

/-- The status word `S` of R95: code in 7:0, opcode echo in 15:8, 31:16 zero. -/
def statusWord (st : Status) (opc : Byte) : Word := (0 : BitVec 16) ++ opc ++ st.code

/-- One more answer leaves the block. -/
def State.emit (s : State) (o : Output) : State := { s with outputs := s.outputs ++ [o] }

/-- `ok(w1, ..., wm)` of R8. -/
def answerOk (op : Opcode) (ws : List Word) (s : State) : Result :=
  .next (s.emit (.response (statusWord .ok op.code) ws))

/-- `raise ERR_X` of R8, the one shared error response of R264: the status word alone, nothing saved, no transfer of control.
The state it is given is the one whose changes the operation's rule lists as standing. There is no return operation (R265). -/
def raise (op : Opcode) (st : Status) (s : State) : Result :=
  .next (s.emit (.response (statusWord st op.code) []))

/-- R98 to R100: a packet that is no operation answers `ERR_ILLEGAL` with the opcode as received, and nothing changes. -/
def illegalPacket (h : Word) (s : State) : Result :=
  .next (s.emit (.response (statusWord .errIllegal (headerOpc h)) []))

/-- What a rejected transfer does. Only command packets can be rejected (R103). -/
def rejectOp (op : PortOp) (s : State) : Result :=
  match op with
  | .command h _ => illegalPacket h s
  | .rxByte _ => .next s
  | .txRequest => .next s

/-! ### Reset and the ports (70_reset_and_hazards.md R290, R291; 20_memory.md R75) -/

/-- The reset event: every piece of state takes its value of R290. What the agents still present, what has left the block and
the host time input are outside the block and stay (log entry 15). -/
def applyReset (s : State) : State :=
  { State.resetWith s.params with hostNow := s.hostNow, inputs := s.inputs, outputs := s.outputs }

/-- Take one input off the front of the total order. -/
def popInput (s : State) (rest : List Input) : State := { s with inputs := rest }

/-- The same for an operation, which also samples the host time input (R45). -/
def takeInput (s : State) (now : DWord) (rest : List Input) : State := { s with inputs := rest, hostNow := now }

/-- Present an operation to be taken next, at the host time the input has now. -/
def presentOp (op : PortOp) (s : State) : State := { s with inputs := .operation s.hostNow op :: s.inputs }

end Sys2Proof.Machine
end

