-- ==== Sys2Proof/Machine/Operands.lean ====
section
/-! DEFINITION. What the operand fields select: a frame register, a catalog table, a counter (30_encoding.md R93, R97). -/

namespace Sys2Proof.Machine

/-- `F[f]`. -/
def State.frame (s : State) (f : FrameReg) : Frame :=
  match f with
  | .f0 => s.f0
  | .f1 => s.f1

/-- `F[f] <- fr`; the other frame register keeps its value (10_state.md R20: neither aliases the other). -/
def State.setFrame (s : State) (f : FrameReg) (fr : Frame) : State :=
  { s with
    f0 := (match f with | .f0 => fr | .f1 => s.f0)
    f1 := (match f with | .f0 => s.f1 | .f1 => fr) }

/-- `CAT(t)` (20_memory.md R65). -/
def State.catalog (s : State) (t : Table) : List TimingEntry :=
  match t with
  | .arb => s.params.catArb
  | .data => s.params.catData

/-- The counter an index names (10_state.md R34); 6 and 7 name none. -/
def counterOf (n : BitVec 3) : Option CounterId :=
  match n.toNat with
  | 0 => some .rxCount
  | 1 => some .txCount
  | 2 => some .txErrors
  | 3 => some .rxErrors
  | 4 => some .rxOverruns
  | 5 => some .txDropped
  | _ => none

/-- `counter[n]`. -/
def Counters.get (k : Counters) : CounterId → Word
  | .rxCount => k.rxCount
  | .txCount => k.txCount
  | .txErrors => k.txErrors
  | .rxErrors => k.rxErrors
  | .rxOverruns => k.rxOverruns
  | .txDropped => k.txDropped

/-- `counter[n] <- (counter[n] + 1) mod 2^32`. -/
def Counters.bump (k : Counters) : CounterId → Counters
  | .rxCount => { k with rxCount := k.rxCount + 1 }
  | .txCount => { k with txCount := k.txCount + 1 }
  | .txErrors => { k with txErrors := k.txErrors + 1 }
  | .rxErrors => { k with rxErrors := k.rxErrors + 1 }
  | .rxOverruns => { k with rxOverruns := k.rxOverruns + 1 }
  | .txDropped => { k with txDropped := k.txDropped + 1 }

/-- The same on the machine. -/
def State.bump (s : State) (c : CounterId) : State := { s with counters := s.counters.bump c }

/-- A u16 operand that travels in the low half of its word (30_encoding.md R94). -/
def halfOfWord (w : Word) : Half := w.extractLsb' 0 16

/-- The high half of a word that packs two u16 fields (20_memory.md R69). -/
def highHalfOfWord (w : Word) : Half := w.extractLsb' 16 16

/-- Two u16 fields in one word, the first-named low. -/
def packHalves (lo hi : Half) : Word := hi ++ lo

end Sys2Proof.Machine
end

