-- ==== Sys2Proof/Machine/Flags.lean ====
section
/-! DEFINITION. The flag bytes of 30_encoding.md R107 and the views of `rawId` (10_state.md R21, R22). The block has no flags
register (R47): no operation computes a flag as a side effect. -/

namespace Sys2Proof.Machine

/-- `isExtended = rawId[31]`. -/
def Frame.isExtended (fr : Frame) : Bool := fr.rawId.getLsbD 31

/-- `isRTR = rawId[30]`. -/
def Frame.isRTR (fr : Frame) : Bool := fr.rawId.getLsbD 30

/-- `isErrorFrame = rawId[29]`. -/
def Frame.isErrorFrame (fr : Frame) : Bool := fr.rawId.getLsbD 29

/-- The identifier: 29 bits of an extended frame, 11 of a standard one. -/
def Frame.id (fr : Frame) : Word :=
  if fr.isExtended then fr.rawId &&& 0x1FFFFFFF else fr.rawId &&& 0x000007FF

/-- `direction` as a bit, 1 for Tx (R28). -/
def Direction.bit : Direction → Bool
  | .rx => false
  | .tx => true

/-- The direction a bit stands for. -/
def Direction.ofBit (b : Bool) : Direction := if b then .tx else .rx

/-- Frame flags of R107: bit 0 isExtended, 1 isRTR, 2 isErrorFrame, 3 isFD, 4 isBRS, 5 direction. -/
def Frame.flags (fr : Frame) : BitVec 6 :=
  BitVec.ofBool fr.direction.bit ++ BitVec.ofBool fr.isBRS ++ BitVec.ofBool fr.isFD ++
    BitVec.ofBool fr.isErrorFrame ++ BitVec.ofBool fr.isRTR ++ BitVec.ofBool fr.isExtended

/-- The assignments of 40_frame_model.md R125: all six flags at once, `rawId[28:0]` kept. -/
def Frame.setFlags (fr : Frame) (g : BitVec 6) : Frame :=
  { fr with
    rawId := BitVec.ofBool (g.getLsbD 0) ++ BitVec.ofBool (g.getLsbD 1) ++ BitVec.ofBool (g.getLsbD 2) ++
      fr.rawId.extractLsb' 0 29
    isFD := g.getLsbD 3
    isBRS := g.getLsbD 4
    direction := Direction.ofBit (g.getLsbD 5) }

/-- Configuration flags of R107: bit 0 isCanFD, 1 listenOnly, 2 oneShot, 3 tripleSampling, 4 autoRestart. Also the bits of
`MODE`. -/
def AdapterConfig.flags (c : AdapterConfig) : BitVec 5 :=
  BitVec.ofBool c.autoRestart ++ BitVec.ofBool c.tripleSampling ++ BitVec.ofBool c.oneShot ++
    BitVec.ofBool c.listenOnly ++ BitVec.ofBool c.isCanFD

/-- Capability `capFD`, bit 3 of `IF.OPEN`'s capability flags (R107). The other three are not tested by any rule (D21). -/
def capFD (caps : BitVec 4) : Bool := caps.getLsbD 3

/-- The two bits of `IFSTATE` (10_state.md R31). -/
def IfState.bits : IfState → BitVec 2
  | .closed => 0
  | .opening => 1
  | .opened => 2

end Sys2Proof.Machine
end

