-- ==== Sys2Proof/Machine/Dlc.lean ====
section
/-! DEFINITION. The DLC mapper, 43_dlc_mapper.md R190 to R194: the one length table of the block. -/

namespace Sys2Proof.Machine

/-- `LenToDlc(fd, n)`, R191. The length is never rounded and never clamped. -/
def lenToDlc (fd : Bool) (n : Nat) : Option Nat :=
  if n ≤ 8 then some n
  else if fd = false then none
  else if n = 12 then some 0x9
  else if n = 16 then some 0xA
  else if n = 20 then some 0xB
  else if n = 24 then some 0xC
  else if n = 32 then some 0xD
  else if n = 48 then some 0xE
  else if n = 64 then some 0xF
  else none

/-- The lengths of the codes from 9 up, R192. -/
def fdLengths : List Nat := [12, 16, 20, 24, 32, 48, 64]

/-- `DlcToLen(fd, d)`, R192: above 0xF invalid always, above 8 invalid for a classic frame. -/
def dlcToLen (fd : Bool) (d : Nat) : Option Nat :=
  if 0xF < d then none
  else if fd = false ∧ 8 < d then none
  else if d ≤ 8 then some d
  else fdLengths[d - 9]?

/-- R191 `DLC.ENC`. -/
def execDlcEnc (fd : Bool) (n : Byte) (s : State) : Result :=
  match lenToDlc fd n.toNat with
  | none => raise .dlcEnc .errLength s
  | some d => answerOk .dlcEnc [BitVec.ofNat 32 d] s

/-- R192 `DLC.DEC`. -/
def execDlcDec (fd : Bool) (d : Byte) (s : State) : Result :=
  match dlcToLen fd d.toNat with
  | none => raise .dlcDec .errDlc s
  | some n => answerOk .dlcDec [BitVec.ofNat 32 n] s

end Sys2Proof.Machine
end

