-- ==== Sys2Proof/Machine/Deserializer.lean ====
section
/-! DEFINITION. The frame deserializer and the receive byte port, 46_deserializer.md R230 to R247. -/

namespace Sys2Proof.Machine

/-! ### The ring (10_state.md R40) -/

/-- An index moves by one slot and wraps at `RING_CAP` (20_memory.md R62). -/
def ringNext (s : State) (i : Nat) : Nat := (i + 1) % s.params.ringCap

/-- Number of stored bytes, `(ringHead - ringTail) mod RING_CAP`. -/
def ringCount (s : State) : Nat := (s.ringHead + s.params.ringCap - s.ringTail) % s.params.ringCap

/-- R241 `RX.PUSH`: a push that would make head catch tail discards the whole ring and its own byte. -/
def execRxPush (d : Byte) (s : State) : Result :=
  if ringNext s s.ringHead = s.ringTail then
    .next ({ s with ringHead := 0, ringTail := 0 }.bump .rxOverruns)
  else .next { s with ring := s.ring.write s.ringHead d, ringHead := ringNext s s.ringHead }

/-! ### The line parser -/

/-- The frame class a command letter names, R232. -/
structure LineClass where
  ext : Bool
  rtr : Bool
  fd : Bool
  brs : Bool
deriving DecidableEq, Repr

/-- The parsed frame of R231. -/
structure ParsedFrame where
  cls : LineClass
  id : Nat
  n : Nat
  bytes : List Byte
deriving DecidableEq, Repr

/-- `Class(c)`, R232: every other byte fails the line. -/
def lineClass (c : Byte) : Option LineClass :=
  if c = 0x74 then some ⟨false, false, false, false⟩
  else if c = 0x54 then some ⟨true, false, false, false⟩
  else if c = 0x72 then some ⟨false, true, false, false⟩
  else if c = 0x52 then some ⟨true, true, false, false⟩
  else if c = 0x64 then some ⟨false, false, true, false⟩
  else if c = 0x44 then some ⟨true, false, true, false⟩
  else if c = 0x62 then some ⟨false, false, true, true⟩
  else if c = 0x42 then some ⟨true, false, true, true⟩
  else none

/-- A number from its hexadecimal digits, most significant first, `acc` being the digits already read (R231, R233). -/
def hexNumber (acc : Nat) : List Byte → Option Nat
  | [] => some acc
  | c :: rest =>
    match hexVal c with
    | none => none
    | some h => hexNumber (acc * 16 + h) rest

/-- Payload bytes from digit pairs, high nibble first (R235). -/
def hexPairs : List Byte → Option (List Byte)
  | hi :: lo :: rest =>
    match hexVal hi, hexVal lo, hexPairs rest with
    | some a, some b, some bs => some (BitVec.ofNat 8 (a * 16 + b) :: bs)
    | _, _, _ => none
  | _ => some []

/-- The largest identifier of a class, R233. -/
def idLimit (ext : Bool) : Nat := if ext then 0x1FFFFFFF else 0x7FF

/-- What follows the DLC digit, R235: for a remote line nothing is read, else exactly `2 * n` characters. Whatever stands
behind is ignored. -/
def parsePayload (rtr : Bool) (n : Nat) (rest : List Byte) : Option (List Byte) :=
  if rtr then some []
  else if rest.length < 2 * n then none
  else hexPairs (rest.take (2 * n))

/-- R231 from the identifier on, `rest` being the line behind its command letter. -/
def parseBody (k : LineClass) (nId : Nat) (rest : List Byte) : Option ParsedFrame :=
  if rest.length < nId + 1 then none
  else do
    let id ← hexNumber 0 (rest.take nId)
    if idLimit k.ext < id then none
    else do
      let h ← hexVal (rest.getD nId 0)
      let n ← dlcToLen k.fd h
      let bytes ← parsePayload k.rtr n (rest.drop (nId + 1))
      some ⟨k, id, n, bytes⟩

/-- `ParseLine(L)`, R231; the empty line fails (R245). -/
def parseLine : List Byte → Option ParsedFrame
  | [] => none
  | c :: rest =>
    match lineClass c with
    | none => none
    | some k => parseBody k (if k.ext then 8 else 3) rest

/-! ### The poll -/

/-- `(p.ext SHL 31) OR (p.rtr SHL 30) OR p.id` of R238; bit 29 is 0. -/
def ParsedFrame.rawId (p : ParsedFrame) : Word :=
  (BitVec.ofNat 32 p.cls.ext.toNat <<< 31) ||| (BitVec.ofNat 32 p.cls.rtr.toNat <<< 30) ||| BitVec.ofNat 32 p.id

/-- The frame register content `WriteFrame` leaves (R238): bytes behind the payload keep their old values. -/
def receivedFrame (p : ParsedFrame) (now : DWord) (ifId : Half) (old : Frame) : Frame :=
  { rawId := p.rawId
    length := BitVec.ofNat 8 p.n
    data := old.data.writeBytes 0 p.bytes
    isFD := p.cls.fd
    isBRS := p.cls.brs
    timestamp := splitMicros now
    interfaceId := ifId
    direction := .rx }

/-- `WriteFrame(f, p)`, R238. -/
def writeFrame (f : FrameReg) (p : ParsedFrame) (s : State) : State :=
  s.setFrame f (receivedFrame p s.hostNow s.ifId (s.frame f))

/-- `line[0 .. lineLen - 1]`. -/
def lineBytes (s : State) : List Byte := (List.range s.lineLen).map s.line.read

/-- One byte leaves the ring at `ringTail` (R236). -/
def ringDrop (s : State) : State := { s with ringTail := ringNext s s.ringTail }

/-- The branch of R236 for a byte that is no CR: stored first, then the test for a full line buffer (R243). -/
def storeLineByte (c : Byte) (s : State) : State :=
  if s.lineLen + 1 = s.params.lineCap then
    { s with line := s.line.write s.lineLen c, lineLen := 0 }.bump .rxOverruns
  else { s with line := s.line.write s.lineLen c, lineLen := s.lineLen + 1 }

/-- The branch of R236 for a CR: the line buffer is emptied and the line parsed; a failed line leaves `F[f]` alone. -/
def endLine (f : FrameReg) (s : State) : Result :=
  match parseLine (lineBytes s) with
  | none => raise .desPoll .errParse ({ s with lineLen := 0 }.bump .rxErrors)
  | some p => answerOk .desPoll [] ((writeFrame f p { s with lineLen := 0 }).bump .rxCount)

/-- The loop of R236. The first argument bounds the number of bytes it may still take; the number stored is enough (log entry
16). -/
def pollLoop (f : FrameReg) : Nat → State → Result
  | 0, s => raise .desPoll .errEmpty s
  | n + 1, s =>
    if s.ringHead = s.ringTail then raise .desPoll .errEmpty s
    else if s.ring.read s.ringTail = charCR then endLine f (ringDrop s)
    else pollLoop f n (storeLineByte (s.ring.read s.ringTail) (ringDrop s))

/-- R236 `DES.POLL`: ends at the first CR it meets, or with `ERR_EMPTY` when the ring is drained. -/
def execDesPoll (f : FrameReg) (s : State) : Result := pollLoop f (ringCount s) s

/-- R237 `DES.LEVEL`. -/
def execDesLevel (s : State) : Result :=
  answerOk .desLevel [countWord (ringCount s), countWord s.lineLen, countWord s.txq.length] s

end Sys2Proof.Machine
end

