-- ==== Sys2Proof/Machine/FrameModel.lean ====
section
/-! DEFINITION. Frame model operations, 40_frame_model.md R120 to R137. Common to the family (R137): only `F[f]` is read or
written, and no operation reads `hostNow` or `IFSTATE`. -/

namespace Sys2Proof.Machine

/-- R120 `FRM.CLEAR`: the reset state of the register. -/
def execFrmClear (f : FrameReg) (s : State) : Result :=
  answerOk .frmClear [] (s.setFrame f Frame.zero)

/-- R121 `FRM.SETRAW`: all 32 bits. -/
def execFrmSetRaw (f : FrameReg) (w : Word) (s : State) : Result :=
  answerOk .frmSetRaw [] (s.setFrame f { s.frame f with rawId := w })

/-- R122 `FRM.GETRAW`. -/
def execFrmGetRaw (f : FrameReg) (s : State) : Result :=
  answerOk .frmGetRaw [(s.frame f).rawId] s

/-- R123 `FRM.SETID`: bits 28:0 from the operand, the three flag bits kept. -/
def execFrmSetId (f : FrameReg) (id : Word) (s : State) : Result :=
  answerOk .frmSetId []
    (s.setFrame f { s.frame f with rawId := ((s.frame f).rawId &&& 0xE0000000) ||| (id &&& 0x1FFFFFFF) })

/-- R124 `FRM.GETID`. -/
def execFrmGetId (f : FrameReg) (s : State) : Result :=
  answerOk .frmGetId [(s.frame f).id] s

/-- R125 `FRM.SETFLAGS`: six flags at once; every combination is accepted. -/
def execFrmSetFlags (f : FrameReg) (flags : BitVec 6) (s : State) : Result :=
  answerOk .frmSetFlags [] (s.setFrame f ((s.frame f).setFlags flags))

/-- R126 `FRM.GETFLAGS`. -/
def execFrmGetFlags (f : FrameReg) (s : State) : Result :=
  answerOk .frmGetFlags [(s.frame f).flags.setWidth 32] s

/-- R127: a length above 64 becomes 8, silently. -/
def clampLength (n : Byte) : Byte := if n.toNat ≤ 64 then n else 8

/-- R127 `FRM.SETLEN`. -/
def execFrmSetLen (f : FrameReg) (n : Byte) (s : State) : Result :=
  answerOk .frmSetLen [] (s.setFrame f { s.frame f with length := clampLength n })

/-- R128 `FRM.GETLEN`. -/
def execFrmGetLen (f : FrameReg) (s : State) : Result :=
  answerOk .frmGetLen [(s.frame f).length.setWidth 32] s

/-- R129 `FRM.SETBYTE`: no effect outside `[0,64)`, and still `OK`. -/
def execFrmSetByte (f : FrameReg) (i v : Byte) (s : State) : Result :=
  answerOk .frmSetByte [] (s.setFrame f ((s.frame f).writeByte i.toNat v))

/-- R130 `FRM.GETBYTE`: 0 outside `[0,64)`; a byte at or beyond `length` is the stored one (log entry 7). -/
def execFrmGetByte (f : FrameReg) (i : Byte) (s : State) : Result :=
  answerOk .frmGetByte [((s.frame f).readByte i.toNat).setWidth 32] s

/-- `W` of R133: bytes 0 to 7 as a little-endian word (20_memory.md R67). -/
def payloadWord (fr : Frame) : Nat :=
  (fr.readByte 0).toNat + (fr.readByte 1).toNat * 2 ^ 8 + (fr.readByte 2).toNat * 2 ^ 16 +
    (fr.readByte 3).toNat * 2 ^ 24 + (fr.readByte 4).toNat * 2 ^ 32 + (fr.readByte 5).toNat * 2 ^ 40 +
    (fr.readByte 6).toNat * 2 ^ 48 + (fr.readByte 7).toNat * 2 ^ 56

/-- `bswap64(v)` of 00_scope.md R9: byte `i` goes to byte `7 - i`. -/
def bswap64 (v : DWord) : DWord :=
  v.extractLsb' 0 8 ++ v.extractLsb' 8 8 ++ v.extractLsb' 16 8 ++ v.extractLsb' 24 8 ++
    v.extractLsb' 32 8 ++ v.extractLsb' 40 8 ++ v.extractLsb' 48 8 ++ v.extractLsb' 56 8

/-- `ExtractRaw(data, s, n, be)` of R133. The big-endian shift is `64 - Lc` in every case (log entry 8). -/
def extractRaw (fr : Frame) (start len : Nat) (be : Bool) : DWord :=
  let lc := min len 64
  let x := BitVec.ofNat 64 ((payloadWord fr >>> start) % 2 ^ lc)
  if be ∧ 8 < lc then bswap64 x >>> (64 - lc) else x

/-- R134 `FRM.EXTRACT`: no value of the start bit or the length is an error. -/
def execFrmExtract (f : FrameReg) (be : Bool) (start len : Byte) (s : State) : Result :=
  let x := extractRaw (s.frame f) start.toNat len.toNat be
  answerOk .frmExtract [lowWord x, highWord x] s

/-- R135 `FRM.SETTS`: microseconds of a million or more are refused. -/
def execFrmSetTs (f : FrameReg) (secLo secHi usec : Word) (s : State) : Result :=
  if microsPerSecond ≤ usec.toNat then raise .frmSetTs .errIllegal s
  else answerOk .frmSetTs [] (s.setFrame f { s.frame f with timestamp := ⟨joinWords secLo secHi, usec⟩ })

/-- R136 `FRM.GETTS`. -/
def execFrmGetTs (f : FrameReg) (s : State) : Result :=
  let ts := (s.frame f).timestamp
  answerOk .frmGetTs [lowWord ts.seconds, highWord ts.seconds, ts.microseconds] s

/-- R131 `FRM.SETIF`. -/
def execFrmSetIf (f : FrameReg) (id : Half) (s : State) : Result :=
  answerOk .frmSetIf [] (s.setFrame f { s.frame f with interfaceId := id })

/-- R132 `FRM.GETIF`. -/
def execFrmGetIf (f : FrameReg) (s : State) : Result :=
  answerOk .frmGetIf [(s.frame f).interfaceId.setWidth 32] s

end Sys2Proof.Machine
end

