-- ==== Sys2Proof/Machine/BitTiming.lean ====
section
/-! DEFINITION. The bit-timing lookup engine, 41_bit_timing.md R150 to R160. No operation of the family writes any state but its
response. -/

namespace Sys2Proof.Machine

/-- `EntryWords(e)`, R150. -/
def entryWords (e : TimingEntry) : List Word :=
  [e.baseClock, e.bitrate, e.dataBitrate, packHalves e.samplePointPermille e.prescaler,
    packHalves e.tseg1 e.tseg2, e.sjw.setWidth 32]

/-- The three compared fields of R151; `dataBitrate` and the register values are never compared. -/
def matchesKey (e : TimingEntry) (clk rate sp : Word) : Bool :=
  e.baseClock == clk && e.bitrate == rate && e.samplePointPermille.setWidth 32 == sp

/-- `Lookup(t, clk, rate, sp)`, R151: the first match in index order, and never an approximate one (R153). -/
def lookupEntry (s : State) (t : Table) (clk rate sp : Word) : Option TimingEntry :=
  (s.catalog t).find? fun e => matchesKey e clk rate sp

/-- The loop of R154, `out` being the list so far. -/
def availableFrom (clk : Word) (out : List Word) : List TimingEntry → List Word
  | [] => out
  | e :: rest =>
    if e.baseClock = clk ∧ e.bitrate ∉ out then availableFrom clk (out ++ [e.bitrate]) rest
    else availableFrom clk out rest

/-- `Available(t, clk)`, R154: distinct bitrates in the order of first occurrence. -/
def available (s : State) (t : Table) (clk : Word) : List Word := availableFrom clk [] (s.catalog t)

/-- R152 `BT.LOOKUP`. -/
def execBtLookup (t : Table) (clk rate sp : Word) (s : State) : Result :=
  match lookupEntry s t clk rate sp with
  | none => raise .btLookup .errNotFound s
  | some e => answerOk .btLookup (entryWords e) s

/-- R155 `BT.COUNT`. -/
def execBtCount (t : Table) (clk : Word) (s : State) : Result :=
  answerOk .btCount [countWord (available s t clk).length] s

/-- R156 `BT.ITEM`. -/
def execBtItem (t : Table) (clk k : Word) (s : State) : Result :=
  match (available s t clk)[k.toNat]? with
  | none => raise .btItem .errEnd s
  | some r => answerOk .btItem [r] s

/-- R158 `BT.TQ`, in exact natural-number arithmetic. The formulas are general knowledge, as the spec marks them (log entry
13). -/
def execBtTq (clk w3 w4 : Word) (s : State) : Result :=
  let p := (highHalfOfWord w3).toNat
  let t1 := (halfOfWord w4).toNat
  let t2 := (highHalfOfWord w4).toNat
  let ntq := 1 + t1 + t2
  let den := p * ntq
  if p = 0 then raise .btTq .errDiv0 s
  else answerOk .btTq
    [BitVec.ofNat 32 ntq, BitVec.ofNat 32 (clk.toNat / den), BitVec.ofNat 32 (clk.toNat % den),
      BitVec.ofNat 32 (1000 * (1 + t1) / ntq)] s

end Sys2Proof.Machine
end

