-- ==== Sys2Proof/Machine/Interface.lean ====
section
/-! DEFINITION. Interface control, configuration and counters, 42_interface.md R170 to R181. -/

namespace Sys2Proof.Machine

/-- R170 `NOP`. -/
def execNop (s : State) : Result := answerOk .nop [] s

/-- R171 `CFG.APPLY`: all nine fields at once, in both interface states; a sample point above 0xFFFF is refused. -/
def execCfgApply (flags : BitVec 5) (bitrate samplePoint fdBitrate fdSamplePoint : Word) (s : State) : Result :=
  if 0xFFFF < samplePoint.toNat ∨ 0xFFFF < fdSamplePoint.toNat then raise .cfgApply .errIllegal s
  else answerOk .cfgApply []
    { s with
      cfg :=
        { bitrate := bitrate
          samplePoint := halfOfWord samplePoint
          fdBitrate := fdBitrate
          fdSamplePoint := halfOfWord fdSamplePoint
          isCanFD := flags.getLsbD 0
          listenOnly := flags.getLsbD 1
          oneShot := flags.getLsbD 2
          tripleSampling := flags.getLsbD 3
          autoRestart := flags.getLsbD 4 } }

/-- R172 `CFG.GET`. -/
def execCfgGet (s : State) : Result :=
  answerOk .cfgGet
    [s.cfg.flags.setWidth 32, s.cfg.bitrate, s.cfg.samplePoint.setWidth 32, s.cfg.fdBitrate,
      s.cfg.fdSamplePoint.setWidth 32] s

/-- The data-phase words of R173: an entry's words when the lookup is made and finds one, six zero words when the device is
not FD-capable; none is a failed lookup. The lookup is made whenever `capFD` is set, whatever `CFG.isCanFD` is. -/
def dataPhaseWords (caps : BitVec 4) (baseClock : Word) (s : State) : Option (List Word) :=
  if capFD caps then
    (lookupEntry s .data baseClock s.cfg.fdBitrate (s.cfg.fdSamplePoint.setWidth 32)).map entryWords
  else some [0, 0, 0, 0, 0, 0]

/-- The state changes of a successful open (R173): the captured pair, the counters, `MODE`, `IFSTATE`. -/
def openInterface (devNow : Word) (s : State) : State :=
  { s with
    hostOff := s.hostNow
    devT0 := devNow
    counters := Counters.zero
    mode := s.cfg.flags
    ifState := .opened }

/-- R173 `IF.OPEN`, its four checks in the order written; on every error nothing changes. -/
def execIfOpen (caps : BitVec 4) (baseClock devNow : Word) (s : State) : Result :=
  if s.ifState = .opened then raise .ifOpen .errState s
  else if s.cfg.isCanFD = true ∧ capFD caps = false then raise .ifOpen .errConfig s
  else
    match lookupEntry s .arb baseClock s.cfg.bitrate (s.cfg.samplePoint.setWidth 32) with
    | none => raise .ifOpen .errNotFound s
    | some ea =>
      match dataPhaseWords caps baseClock s with
      | none => raise .ifOpen .errNotFound s
      | some wd => answerOk .ifOpen (entryWords ea ++ wd) (openInterface devNow s)

/-- R174 `IF.CLOSE`: idempotent. -/
def execIfClose (s : State) : Result :=
  answerOk .ifClose [] { s with ifState := .closed, mode := 0 }

/-- R175 `IF.STATE`. -/
def execIfState (s : State) : Result :=
  answerOk .ifState
    [s.ifState.bits.setWidth 32 ||| (s.mode.setWidth 32 <<< 8) ||| (s.ifId.setWidth 32 <<< 16)] s

/-- R176 `IF.SETID`. -/
def execIfSetId (id : Half) (s : State) : Result :=
  answerOk .ifSetId [] { s with ifId := id }

/-- R177 `STAT.GET`: reading does not clear; index 6 and 7 are refused. -/
def execStatGet (n : BitVec 3) (s : State) : Result :=
  match counterOf n with
  | none => raise .statGet .errIllegal s
  | some c => answerOk .statGet [s.counters.get c] s

/-- R178 `STAT.BUMP`. -/
def execStatBump (n : BitVec 3) (s : State) : Result :=
  match counterOf n with
  | none => raise .statBump .errIllegal s
  | some c => answerOk .statBump [] (s.bump c)

end Sys2Proof.Machine
end

