-- ==== Sys2Proof/Machine/Serializer.lean ====
section
/-! DEFINITION. The frame serializer and the transmit byte port, 45_serializer.md R210 to R222. -/

namespace Sys2Proof.Machine

/-- The command letter of a standard frame, R211: `isBRS` of a classic frame is ignored. -/
def baseLetter (fr : Frame) : Byte :=
  if fr.isFD then (if fr.isBRS then 0x62 else 0x64)
  else (if fr.isRTR then 0x72 else 0x74)

/-- The command letter: upper case for an extended frame. -/
def frameLetter (fr : Frame) : Byte := if fr.isExtended then baseLetter fr - 0x20 else baseLetter fr

/-- The `n` hexadecimal digits of a number, most significant first (R212). -/
def hexDigits (n v : Nat) : List Byte :=
  (List.range n).map fun j => hexChar ((v >>> (4 * (n - 1 - j))) % 16)

/-- The payload characters: two digits per byte, high nibble first (R210). -/
def payloadDigits (fr : Frame) (n : Nat) : List Byte :=
  (List.range n).flatMap fun i =>
    [hexChar ((fr.readByte i).toNat / 16), hexChar ((fr.readByte i).toNat % 16)]

/-- How many identifier digits a frame has. -/
def idDigits (ext : Bool) : Nat := if ext then 8 else 3

/-- The line of a frame whose length has the DLC code `d` (R212): a remote frame carries no payload characters. -/
def frameLine (fr : Frame) (d : Nat) : List Byte :=
  frameLetter fr :: hexDigits (idDigits fr.isExtended) fr.id.toNat ++ [hexChar d] ++
    (if fr.isRTR then [] else payloadDigits fr fr.length.toNat) ++ [charCR]

/-- `EncodeLine(F)`, R212: a line, or the status the frame is refused with. The `ERR_FRAME` tests come first. -/
def encodeLine (fr : Frame) : Except Status (List Byte) :=
  if fr.isErrorFrame = true then .error .errFrame
  else if fr.isFD = true ∧ fr.isRTR = true then .error .errFrame
  else
    match lenToDlc fr.isFD fr.length.toNat with
    | none => .error .errLength
    | some d => .ok (frameLine fr d)

/-- The test of `Append(L)`, R219: a line enters whole or not at all. -/
def lineFits (l : List Byte) (s : State) : Bool := decide (s.txq.length + l.length ≤ s.params.txqCap)

/-- The bytes join the end of the transmit queue. -/
def enqueue (l : List Byte) (s : State) : State := { s with txq := s.txq ++ l }

/-- `Append(L)` followed by `ok()`, R219: what the four configuration lines do. -/
def appendLine (op : Opcode) (l : List Byte) (s : State) : Result :=
  if lineFits l s then answerOk op [] (enqueue l s) else raise op .errTxFull (s.bump .txDropped)

/-- The bookkeeping of a successful send, R213: `txCount`, the stamp with the present host time, direction Tx. -/
def stampSent (f : FrameReg) (s : State) : State :=
  (s.bump .txCount).setFrame f { s.frame f with timestamp := splitMicros s.hostNow, direction := .tx }

/-- R213 `SER.FRAME`: independent of `IFSTATE`. -/
def execSerFrame (f : FrameReg) (s : State) : Result :=
  match encodeLine (s.frame f) with
  | .error e => raise .serFrame e (s.bump .txErrors)
  | .ok l =>
    if lineFits l s then answerOk .serFrame [] (stampSent f (enqueue l s))
    else raise .serFrame .errTxFull (s.bump .txDropped)

/-- A preset digit character. -/
def digitChar (n : BitVec 4) : Byte := BitVec.ofNat 8 (0x30 + n.toNat)

/-- R215 `SER.BITRATE`: presets 0 to 9. -/
def execSerBitrate (n : BitVec 4) (s : State) : Result :=
  if 9 < n.toNat then raise .serBitrate .errIllegal s
  else appendLine .serBitrate [0x53, digitChar n, charCR] s

/-- R216 `SER.FDRATE`: presets 2, 4, 5, 8. -/
def execSerFdRate (n : BitVec 4) (s : State) : Result :=
  if n.toNat ∈ [2, 4, 5, 8] then appendLine .serFdRate [0x59, digitChar n, charCR] s
  else raise .serFdRate .errIllegal s

/-- R217 `SER.OPENCH`: does not change `IFSTATE`. -/
def execSerOpenCh (s : State) : Result := appendLine .serOpenCh [0x4F, charCR] s

/-- R218 `SER.CLOSECH`: does not change `IFSTATE`. -/
def execSerCloseCh (s : State) : Result := appendLine .serCloseCh [0x43, charCR] s

/-- R220 `TX.POP`: the byte at the front of the queue, or "empty". -/
def execTxPop (s : State) : Result :=
  match s.txq with
  | [] => .next (s.emit .txEmpty)
  | v :: rest => .next (({ s with txq := rest }).emit (.txByte v))

end Sys2Proof.Machine
end

