-- ==== Sys2Proof/Machine/Timestamp.lean ====
section
/-! DEFINITION. The timestamp accumulator, 44_timestamp.md R200 to R205. -/

namespace Sys2Proof.Machine

/-- `2^32 · 1.5` microseconds (R201). -/
def rolloverThreshold : DWord := 0x180000000

/-- The time `TS.CONV` computes (R201): `hostNow` when no device timestamp was supplied or it is 0, else the captured pair
corrected by the 32-bit wrapping difference and, past the threshold, by the high half of `elapsed`. -/
def convertTime (hostNow hostOff : DWord) (devT0 : Word) (v : Bool) (dts : Word) (elapsed : DWord) : DWord :=
  if v = false ∨ dts = 0 then hostNow
  else
    let ts := hostOff + (dts - devT0).setWidth 64
    if rolloverThreshold < elapsed then ts + (elapsed &&& 0xFFFFFFFF00000000) else ts

/-- R201 `TS.CONV`: refused unless the interface is Open; only `F[f].timestamp` is written. -/
def execTsConv (f : FrameReg) (v : Bool) (dts elapsedLo elapsedHi : Word) (s : State) : Result :=
  if s.ifState ≠ .opened then raise .tsConv .errState s
  else
    let ts := splitMicros (convertTime s.hostNow s.hostOff s.devT0 v dts (joinWords elapsedLo elapsedHi))
    answerOk .tsConv [lowWord ts.seconds, highWord ts.seconds, ts.microseconds]
      (s.setFrame f { s.frame f with timestamp := ts })

/-- R203 `TS.GET`: works in both interface states. -/
def execTsGet (s : State) : Result :=
  answerOk .tsGet [lowWord s.hostOff, highWord s.hostOff, s.devT0] s

end Sys2Proof.Machine
end

