-- ==== Sys2Proof/Machine/Dispatch.lean ====
section
/-! DEFINITION. One meaning per operation of the opcode table. -/

namespace Sys2Proof.Machine

def exec (i : Instr) (s : State) : Host.Outcome State Fault Refusal :=
  match i with
  | .nop => Sys2Proof.Machine.execNop s
  | .cfgApply flags bitrate samplePoint fdBitrate fdSamplePoint => Sys2Proof.Machine.execCfgApply flags bitrate samplePoint fdBitrate fdSamplePoint s
  | .ifOpen caps baseClock devNow => Sys2Proof.Machine.execIfOpen caps baseClock devNow s
  | .ifClose => Sys2Proof.Machine.execIfClose s
  | .ifState => Sys2Proof.Machine.execIfState s
  | .ifSetId id => Sys2Proof.Machine.execIfSetId id s
  | .statGet n => Sys2Proof.Machine.execStatGet n s
  | .statBump n => Sys2Proof.Machine.execStatBump n s
  | .cfgGet => Sys2Proof.Machine.execCfgGet s
  | .frmClear f => Sys2Proof.Machine.execFrmClear f s
  | .frmSetRaw f w => Sys2Proof.Machine.execFrmSetRaw f w s
  | .frmGetRaw f => Sys2Proof.Machine.execFrmGetRaw f s
  | .frmSetId f id => Sys2Proof.Machine.execFrmSetId f id s
  | .frmGetId f => Sys2Proof.Machine.execFrmGetId f s
  | .frmSetFlags f flags => Sys2Proof.Machine.execFrmSetFlags f flags s
  | .frmGetFlags f => Sys2Proof.Machine.execFrmGetFlags f s
  | .frmSetLen f n => Sys2Proof.Machine.execFrmSetLen f n s
  | .frmGetLen f => Sys2Proof.Machine.execFrmGetLen f s
  | .frmSetByte f idx v => Sys2Proof.Machine.execFrmSetByte f idx v s
  | .frmGetByte f idx => Sys2Proof.Machine.execFrmGetByte f idx s
  | .frmExtract f be start len => Sys2Proof.Machine.execFrmExtract f be start len s
  | .frmSetTs f secLo secHi usec => Sys2Proof.Machine.execFrmSetTs f secLo secHi usec s
  | .frmGetTs f => Sys2Proof.Machine.execFrmGetTs f s
  | .frmSetIf f id => Sys2Proof.Machine.execFrmSetIf f id s
  | .frmGetIf f => Sys2Proof.Machine.execFrmGetIf f s
  | .btLookup t clk rate sp => Sys2Proof.Machine.execBtLookup t clk rate sp s
  | .btCount t clk => Sys2Proof.Machine.execBtCount t clk s
  | .btItem t clk k => Sys2Proof.Machine.execBtItem t clk k s
  | .btTq clk w3 w4 => Sys2Proof.Machine.execBtTq clk w3 w4 s
  | .dlcEnc fd n => Sys2Proof.Machine.execDlcEnc fd n s
  | .dlcDec fd d => Sys2Proof.Machine.execDlcDec fd d s
  | .tsConv f v dts elapsedLo elapsedHi => Sys2Proof.Machine.execTsConv f v dts elapsedLo elapsedHi s
  | .tsGet => Sys2Proof.Machine.execTsGet s
  | .serFrame f => Sys2Proof.Machine.execSerFrame f s
  | .serBitrate n => Sys2Proof.Machine.execSerBitrate n s
  | .serFdRate n => Sys2Proof.Machine.execSerFdRate n s
  | .serOpenCh => Sys2Proof.Machine.execSerOpenCh s
  | .serCloseCh => Sys2Proof.Machine.execSerCloseCh s
  | .desPoll f => Sys2Proof.Machine.execDesPoll f s
  | .desLevel => Sys2Proof.Machine.execDesLevel s
  | .rxPush d => Sys2Proof.Machine.execRxPush d s
  | .txPop => Sys2Proof.Machine.execTxPop s

end Sys2Proof.Machine
end

