-- ==== Sys2Proof/Machine/Step.lean ====
section
/-! DEFINITION. One step: the next input of the total order (20_memory.md R75) is taken and carried out whole (R71). -/

namespace Sys2Proof.Machine

/-- Carry out one transfer: the decoded operation, or the answer to a packet that is none. -/
def runOp (op : PortOp) (s : State) : Host.Outcome State Fault Refusal :=
  match decode op with
  | .instr i => exec i s
  | .rejected _ => rejectOp op s

/-- With nothing pending the block does nothing (10_state.md R46, log entry 3). -/
def step (s : State) : Host.Outcome State Fault Refusal :=
  match s.inputs with
  | [] => .next s
  | .reset :: rest => .next (applyReset (popInput s rest))
  | .operation now op :: rest => runOp op (takeInput s now rest)

/-- The block fetches no instruction (20_memory.md R77): the word is presented on its port as the next operation, at the host
time the input has now. This stands for the agents' presenting a program (log entry 2). -/
def State.withFetchWord (s : State) (nbits w : Nat) : State := presentOp (tableWordOp nbits w) s

end Sys2Proof.Machine
end

