-- ==== Sys2Proof/Machine/Assembler.lean ====
section
/-! DEFINITION. Assembler syntax and pseudo-instructions, 30_encoding.md R105 and R106, and the host recipe of 42_interface.md
R181. Text, expansions and host loops only: no meaning uses this file. -/

namespace Sys2Proof.Machine

/-! ### Pseudo-instructions (R106) -/

/-- `FRM.SETDATA Ff, [v0, ..., vk]`, from an index on. -/
def setDataFrom (f : FrameReg) (i : Nat) : List Byte → List Instr
  | [] => []
  | v :: vs => .frmSetByte f (BitVec.ofNat 8 i) v :: setDataFrom f (i + 1) vs

/-- `FRM.SETDATA Ff, [v0, ..., vk]`, `k <= 63`. -/
def pseudoSetData (f : FrameReg) (vs : List Byte) : List Instr := setDataFrom f 0 vs

/-- `RX.PUSHS "text"`. -/
def pseudoPushString (text : List Byte) : List Instr := text.map .rxPush

/-- `FRM.SETSTD Ff, id`: writes the whole of `rawId`, so it clears `RTR` and `ERR` too. -/
def pseudoSetStd (f : FrameReg) (id : Word) : List Instr := [.frmSetRaw f (id &&& 0x7FF)]

/-- `FRM.SETEXT Ff, id`. -/
def pseudoSetExt (f : FrameReg) (id : Word) : List Instr := [.frmSetRaw f (0x80000000 ||| (id &&& 0x1FFFFFFF))]

/-- The USB receive path of R181 in its first form: `DLC.DEC` on the wire frame's code, with `n` the length it answered. -/
def recipeUsbReceive (f : FrameReg) (rawId : Word) (flags : BitVec 6) (fd : Bool) (dlc n : Byte) (payload : List Byte)
    (v : Bool) (dts elapsedLo elapsedHi : Word) (ifId : Half) : List Instr :=
  [.frmSetRaw f rawId, .frmSetFlags f flags, .dlcDec fd dlc, .frmSetLen f n] ++ pseudoSetData f payload ++
    [.tsConv f v dts elapsedLo elapsedHi, .frmSetIf f ifId, .statBump 0]

/-- The send path of R181: the length is translated; the transport write, outside the block, comes next; then the counter of
its outcome is bumped, `txCount` or `txErrors`. -/
def recipeUsbSend (fd : Bool) (n : Byte) (written : Bool) : List Instr :=
  [.dlcEnc fd n, .statBump (if written then 1 else 2)]

/-! ### The two host loops of R106, with nothing else between their operations -/

/-- "drain": `DES.POLL` until the status is `ERR_EMPTY`, each poll at the next of the host times given, which also bound the
loop. -/
def idiomDrain (f : FrameReg) : List DWord → State → Result
  | [], s => .next s
  | now :: rest, s =>
    match execDesPoll f { s with hostNow := now } with
    | .next t =>
      if t.outputs.getLast? = some (.response (statusWord .errEmpty Opcode.desPoll.code) []) then .next t
      else idiomDrain f rest t
    | stop => stop

/-- "flush": `TX.POP` until the answer is "empty", at most so many times. -/
def idiomFlush : Nat → State → Result
  | 0, s => .next s
  | n + 1, s =>
    match execTxPop s with
    | .next t => if t.outputs.getLast? = some .txEmpty then .next t else idiomFlush n t
    | stop => stop

/-! ### Assembler text (R105): mnemonic, argument fields, a semicolon, operand words -/

/-- `F0` or `F1`. -/
def textFrame : FrameReg → String
  | .f0 => "F0"
  | .f1 => "F1"

/-- `ARB` or `DATA`. -/
def textTable : Table → String
  | .arb => "ARB"
  | .data => "DATA"

/-- `CLASSIC` or `FD`. -/
def textClass (fd : Bool) : String := if fd then "FD" else "CLASSIC"

/-- `LE` or `BE`. -/
def textEndian (be : Bool) : String := if be then "BE" else "LE"

/-- A number, in decimal. -/
def textNat {w : Nat} (v : BitVec w) : String := toString v.toNat

/-- A mnemonic, its argument fields and its operand words, separated by commas. -/
def textLine (mnemonic : String) (args words : List String) : String :=
  mnemonic ++ (if args.isEmpty then "" else " " ++ ", ".intercalate args) ++
    (if words.isEmpty then "" else "; " ++ ", ".intercalate words)

/-- R105. Flag fields are written as numbers. -/
def assemblyText : Instr → String
  | .nop => textLine "NOP" [] []
  | .cfgApply g r sp fr fsp => textLine "CFG.APPLY" [textNat g] [textNat r, textNat sp, textNat fr, textNat fsp]
  | .ifOpen k clk dev => textLine "IF.OPEN" [textNat k] [textNat clk, textNat dev]
  | .ifClose => textLine "IF.CLOSE" [] []
  | .ifState => textLine "IF.STATE" [] []
  | .ifSetId id => textLine "IF.SETID" [textNat id] []
  | .statGet n => textLine "STAT.GET" [textNat n] []
  | .statBump n => textLine "STAT.BUMP" [textNat n] []
  | .cfgGet => textLine "CFG.GET" [] []
  | .frmClear f => textLine "FRM.CLEAR" [textFrame f] []
  | .frmSetRaw f w => textLine "FRM.SETRAW" [textFrame f] [textNat w]
  | .frmGetRaw f => textLine "FRM.GETRAW" [textFrame f] []
  | .frmSetId f id => textLine "FRM.SETID" [textFrame f] [textNat id]
  | .frmGetId f => textLine "FRM.GETID" [textFrame f] []
  | .frmSetFlags f g => textLine "FRM.SETFLAGS" [textFrame f, textNat g] []
  | .frmGetFlags f => textLine "FRM.GETFLAGS" [textFrame f] []
  | .frmSetLen f n => textLine "FRM.SETLEN" [textFrame f, textNat n] []
  | .frmGetLen f => textLine "FRM.GETLEN" [textFrame f] []
  | .frmSetByte f i v => textLine "FRM.SETBYTE" [textFrame f, textNat i, textNat v] []
  | .frmGetByte f i => textLine "FRM.GETBYTE" [textFrame f, textNat i] []
  | .frmExtract f be st n => textLine "FRM.EXTRACT" [textFrame f, textEndian be, textNat st, textNat n] []
  | .frmSetTs f lo hi us => textLine "FRM.SETTS" [textFrame f] [textNat lo, textNat hi, textNat us]
  | .frmGetTs f => textLine "FRM.GETTS" [textFrame f] []
  | .frmSetIf f id => textLine "FRM.SETIF" [textFrame f, textNat id] []
  | .frmGetIf f => textLine "FRM.GETIF" [textFrame f] []
  | .btLookup t clk r sp => textLine "BT.LOOKUP" [textTable t] [textNat clk, textNat r, textNat sp]
  | .btCount t clk => textLine "BT.COUNT" [textTable t] [textNat clk]
  | .btItem t clk k => textLine "BT.ITEM" [textTable t] [textNat clk, textNat k]
  | .btTq clk w3 w4 => textLine "BT.TQ" [] [textNat clk, textNat w3, textNat w4]
  | .dlcEnc fd n => textLine "DLC.ENC" [textClass fd, textNat n] []
  | .dlcDec fd d => textLine "DLC.DEC" [textClass fd, textNat d] []
  | .tsConv f v dts lo hi =>
    textLine "TS.CONV" [textFrame f, if v then "v=1" else "v=0"] [textNat dts, textNat lo, textNat hi]
  | .tsGet => textLine "TS.GET" [] []
  | .serFrame f => textLine "SER.FRAME" [textFrame f] []
  | .serBitrate n => textLine "SER.BITRATE" [textNat n] []
  | .serFdRate n => textLine "SER.FDRATE" [textNat n] []
  | .serOpenCh => textLine "SER.OPENCH" [] []
  | .serCloseCh => textLine "SER.CLOSECH" [] []
  | .desPoll f => textLine "DES.POLL" [textFrame f] []
  | .desLevel => textLine "DES.LEVEL" [] []
  | .rxPush d => textLine "RX.PUSH" [textNat d] []
  | .txPop => textLine "TX.POP" [] []

/-- The names of the status codes (60_exceptions.md R260). -/
def textStatus : Status → String
  | .ok => "OK"
  | .errIllegal => "ERR_ILLEGAL"
  | .errNotFound => "ERR_NOT_FOUND"
  | .errConfig => "ERR_CONFIG"
  | .errState => "ERR_STATE"
  | .errLength => "ERR_LENGTH"
  | .errDlc => "ERR_DLC"
  | .errFrame => "ERR_FRAME"
  | .errTxFull => "ERR_TXFULL"
  | .errEmpty => "ERR_EMPTY"
  | .errParse => "ERR_PARSE"
  | .errEnd => "ERR_END"
  | .errDiv0 => "ERR_DIV0"

/-- A response in the notation of R105: `-> OK w1, w2` or `-> ERR_NAME`. -/
def textResponse (st : Status) (ws : List Word) : String :=
  "-> " ++ textStatus st ++ (if ws.isEmpty then "" else " " ++ ", ".intercalate (ws.map textNat))

end Sys2Proof.Machine
end

