-- ==== Sys2Proof/Safety.lean ====
section
/-! DEFINITION. The terms claims use: the invariant of a block instance, lists of operations, what an operation names and may
answer, and the list-level views of the buffers. -/

namespace Sys2Proof.Machine

/-! ### The invariant -/

/-- What a frame register always satisfies: 10_state.md R23, R26, and `FDATA` in canonical form within its 64 indices. -/
structure FrameInv (fr : Frame) : Prop where
  length_le : fr.length.toNat ≤ 64
  micros_lt : fr.timestamp.microseconds.toNat < 1000000
  data_wf : fr.data.wf = true
  data_below : fr.data.below 64 = true

/-- The invariant of a block instance whose capacities meet 00_scope.md R4: R23, R26, R31, R32, R40, R41, R43 of
10_state.md, and the canonical form of the byte index spaces. -/
structure Inv (s : State) : Prop where
  bounds : s.params.WithinBounds
  frame0 : FrameInv s.f0
  frame1 : FrameInv s.f1
  not_opening : s.ifState ≠ .opening
  closed_mode : s.ifState = .closed → s.mode = 0
  head_lt : s.ringHead < s.params.ringCap
  tail_lt : s.ringTail < s.params.ringCap
  ring_wf : s.ring.wf = true
  ring_below : s.ring.below s.params.ringCap = true
  len_lt : s.lineLen < s.params.lineCap
  line_wf : s.line.wf = true
  line_below : s.line.below s.params.lineCap = true
  txq_le : s.txq.length ≤ s.params.txqCap

/-! ### Running -/

/-- Carry out operations one after the other, stopping at the first that does not answer a next state. -/
def execAll : List Instr → State → Result
  | [], s => .next s
  | i :: is, s =>
    match exec i s with
    | .next t => execAll is t
    | .fault r => .fault r
    | .refused r => .refused r

/-- The same state with one more response packet on the response port: status word, then result words. -/
def State.answer (s : State) (status : Word) (results : List Word) : State :=
  { s with outputs := s.outputs ++ [.response status results] }

/-- Map the next state of an answer. -/
def mapNext (g : State → State) : Result → Result
  | .next t => .next (g t)
  | .fault r => .fault r
  | .refused r => .refused r

/-! ### What an operation names and may answer -/

/-- The command an operation is; port operations have no opcode (30_encoding.md R103). -/
def opcodeOf : Instr → Option Opcode
  | .nop => some .nop
  | .cfgApply _ _ _ _ _ => some .cfgApply
  | .ifOpen _ _ _ => some .ifOpen
  | .ifClose => some .ifClose
  | .ifState => some .ifState
  | .ifSetId _ => some .ifSetId
  | .statGet _ => some .statGet
  | .statBump _ => some .statBump
  | .cfgGet => some .cfgGet
  | .frmClear _ => some .frmClear
  | .frmSetRaw _ _ => some .frmSetRaw
  | .frmGetRaw _ => some .frmGetRaw
  | .frmSetId _ _ => some .frmSetId
  | .frmGetId _ => some .frmGetId
  | .frmSetFlags _ _ => some .frmSetFlags
  | .frmGetFlags _ => some .frmGetFlags
  | .frmSetLen _ _ => some .frmSetLen
  | .frmGetLen _ => some .frmGetLen
  | .frmSetByte _ _ _ => some .frmSetByte
  | .frmGetByte _ _ => some .frmGetByte
  | .frmExtract _ _ _ _ => some .frmExtract
  | .frmSetTs _ _ _ _ => some .frmSetTs
  | .frmGetTs _ => some .frmGetTs
  | .frmSetIf _ _ => some .frmSetIf
  | .frmGetIf _ => some .frmGetIf
  | .btLookup _ _ _ _ => some .btLookup
  | .btCount _ _ => some .btCount
  | .btItem _ _ _ => some .btItem
  | .btTq _ _ _ => some .btTq
  | .dlcEnc _ _ => some .dlcEnc
  | .dlcDec _ _ => some .dlcDec
  | .tsConv _ _ _ _ _ => some .tsConv
  | .tsGet => some .tsGet
  | .serFrame _ => some .serFrame
  | .serBitrate _ => some .serBitrate
  | .serFdRate _ => some .serFdRate
  | .serOpenCh => some .serOpenCh
  | .serCloseCh => some .serCloseCh
  | .desPoll _ => some .desPoll
  | .desLevel => some .desLevel
  | .rxPush _ => none
  | .txPop => none

/-- The frame register an operation names by its field `f` (R93); none when it has no such field. -/
def frameOf : Instr → Option FrameReg
  | .frmClear f => some f
  | .frmSetRaw f _ => some f
  | .frmGetRaw f => some f
  | .frmSetId f _ => some f
  | .frmGetId f => some f
  | .frmSetFlags f _ => some f
  | .frmGetFlags f => some f
  | .frmSetLen f _ => some f
  | .frmGetLen f => some f
  | .frmSetByte f _ _ => some f
  | .frmGetByte f _ => some f
  | .frmExtract f _ _ _ => some f
  | .frmSetTs f _ _ _ => some f
  | .frmGetTs f => some f
  | .frmSetIf f _ => some f
  | .frmGetIf f => some f
  | .tsConv f _ _ _ _ => some f
  | .serFrame f => some f
  | .desPoll f => some f
  | .nop => none
  | .cfgApply _ _ _ _ _ => none
  | .ifOpen _ _ _ => none
  | .ifClose => none
  | .ifState => none
  | .ifSetId _ => none
  | .statGet _ => none
  | .statBump _ => none
  | .cfgGet => none
  | .btLookup _ _ _ _ => none
  | .btCount _ _ => none
  | .btItem _ _ _ => none
  | .btTq _ _ _ => none
  | .dlcEnc _ _ => none
  | .dlcDec _ _ => none
  | .tsGet => none
  | .serBitrate _ => none
  | .serFdRate _ => none
  | .serOpenCh => none
  | .serCloseCh => none
  | .desLevel => none
  | .rxPush _ => none
  | .txPop => none

/-- The further statuses of 60_exceptions.md R261; every command can answer `OK` and `ERR_ILLEGAL`. -/
def furtherStatuses : Opcode → List Status
  | .ifOpen => [.errState, .errConfig, .errNotFound]
  | .btLookup => [.errNotFound]
  | .btItem => [.errEnd]
  | .btTq => [.errDiv0]
  | .dlcEnc => [.errLength]
  | .dlcDec => [.errDlc]
  | .tsConv => [.errState]
  | .serFrame => [.errFrame, .errLength, .errTxFull]
  | .serBitrate | .serFdRate | .serOpenCh | .serCloseCh => [.errTxFull]
  | .desPoll => [.errEmpty, .errParse]
  | .nop | .cfgApply | .cfgGet | .ifClose | .ifState | .ifSetId | .statGet | .statBump
  | .frmClear | .frmSetRaw | .frmGetRaw | .frmSetId | .frmGetId | .frmSetFlags | .frmGetFlags | .frmSetLen
  | .frmGetLen | .frmSetByte | .frmGetByte | .frmExtract | .frmSetTs | .frmGetTs | .frmSetIf | .frmGetIf
  | .btCount | .tsGet | .desLevel => []

/-! ### Header words as the rules write them -/

/-- `f SHL 16`. -/
def fieldF : FrameReg → Word
  | .f0 => 0
  | .f1 => 0x00010000

/-- `t SHL 16`. -/
def fieldT : Table → Word
  | .arb => 0
  | .data => 0x00010000

/-- One bit of argument byte `a`: the class `fd` in bit 16, the flags `be` and `v` in bit 17 (30_encoding.md R93). -/
def fieldBit (k : Nat) (b : Bool) : Word := if b then BitVec.ofNat 32 (2 ^ k) else 0

/-- A field of any width at a bit position. -/
def fieldAt {w : Nat} (k : Nat) (v : BitVec w) : Word := v.setWidth 32 <<< k

/-- The packet `h, ws` is the operation `i`. -/
def Carries (h : Word) (ws : List Word) (i : Instr) : Prop := decode (.command h ws) = .instr i

/-- The status word of 30_encoding.md R95 for an opcode byte as received and a status code, as numbers. -/
def statusNumber (opc code : Nat) : Word := BitVec.ofNat 32 (opc * 256 + code)

/-! ### Catalog lookups in words -/

/-- The three compared fields of 41_bit_timing.md R151 agree. -/
def KeyMatches (e : TimingEntry) (clk rate sp : Word) : Prop :=
  e.baseClock = clk ∧ e.bitrate = rate ∧ e.samplePointPermille.toNat = sp.toNat

/-- `e` is the first entry in index order that matches. -/
def FirstMatch (l : List TimingEntry) (clk rate sp : Word) (e : TimingEntry) : Prop :=
  ∃ pre post, l = pre ++ e :: post ∧ KeyMatches e clk rate sp ∧ ∀ x ∈ pre, ¬ KeyMatches x clk rate sp

/-- `L` is the list `Available` of 41_bit_timing.md R154 for a table and a clock: exactly the bitrates the table offers for it,
in the order of their first occurrence. -/
def AvailableList (l : List TimingEntry) (clk : Word) (L : List Word) : Prop :=
  (∀ r, r ∈ L ↔ ∃ e ∈ l, e.baseClock = clk ∧ e.bitrate = r) ∧
  L.Pairwise fun a b =>
    ((l.filter fun e => e.baseClock = clk).map fun e => e.bitrate).idxOf a <
      ((l.filter fun e => e.baseClock = clk).map fun e => e.bitrate).idxOf b

/-- No entry matches. -/
def NoMatch (l : List TimingEntry) (clk rate sp : Word) : Prop := ∀ e ∈ l, ¬ KeyMatches e clk rate sp

/-! ### The buffers as lists -/

/-- The bytes stored in the ring, the next one to be read first (10_state.md R40). -/
def ringBytes (s : State) : List Byte :=
  (List.range (ringCount s)).map fun k => s.ring.read ((s.ringTail + k) % s.params.ringCap)

/-- How often the line buffer overflows when bytes that are no CR join it (46_deserializer.md R243: each time it holds
`LINE_CAP` bytes, all of them go). -/
def lineOverflows (s : State) (moved : List Byte) : Nat := (lineBytes s ++ moved).length / s.params.lineCap

/-- What the line buffer then holds. -/
def lineLeft (s : State) (moved : List Byte) : List Byte :=
  (lineBytes s ++ moved).drop (s.params.lineCap * lineOverflows s moved)

/-- Two states that agree in everything but slots of the ring and the line buffer that hold no stored byte
(70_reset_and_hazards.md R291). -/
structure SlotsAgree (s s' : State) : Prop where
  rest : s' = { s with ring := s'.ring, line := s'.line }
  ring : ringBytes s' = ringBytes s
  line : lineBytes s' = lineBytes s

/-! ### The spec's tables, for claims that must not be about the model's own functions -/

/-- Every piece of state of 70_reset_and_hazards.md R290 that it gives a value. -/
def AtReset (t : State) : Prop :=
  (∀ f, (t.frame f).rawId = 0 ∧ (t.frame f).length = 0 ∧ (∀ i, i < 64 → (t.frame f).data.read i = 0) ∧
    (t.frame f).isFD = false ∧ (t.frame f).isBRS = false ∧ (t.frame f).timestamp = ⟨0, 0⟩ ∧
    (t.frame f).interfaceId = 0 ∧ (t.frame f).direction = .rx) ∧
  t.cfg.bitrate = 0 ∧ t.cfg.fdBitrate = 0 ∧ t.cfg.samplePoint = 0 ∧ t.cfg.fdSamplePoint = 0 ∧
  t.cfg.isCanFD = false ∧ t.cfg.listenOnly = false ∧ t.cfg.oneShot = false ∧ t.cfg.tripleSampling = false ∧
  t.cfg.autoRestart = false ∧ t.ifState = .closed ∧ t.mode = 0 ∧ t.ifId = 0 ∧
  t.counters.rxCount = 0 ∧ t.counters.txCount = 0 ∧ t.counters.txErrors = 0 ∧ t.counters.rxErrors = 0 ∧
  t.counters.rxOverruns = 0 ∧ t.counters.txDropped = 0 ∧ t.hostOff = 0 ∧ t.devT0 = 0 ∧
  t.ringHead = 0 ∧ t.ringTail = 0 ∧ t.lineLen = 0 ∧ t.txq = []

/-- The opcode values of 30_encoding.md R98 that name no operation. -/
def UnknownOpcode (o : Nat) : Prop :=
  (0x09 ≤ o ∧ o ≤ 0x0F) ∨ (0x24 ≤ o ∧ o ≤ 0x2F) ∨ (0x32 ≤ o ∧ o ≤ 0x3F) ∨ (0x42 ≤ o ∧ o ≤ 0x4F) ∨
    (0x55 ≤ o ∧ o ≤ 0x5F) ∨ (0x62 ≤ o ∧ o ≤ 0xFF)

/-- The six words of 41_bit_timing.md R150 in its own arithmetic. -/
def entryImage (e : TimingEntry) : List Word :=
  [e.baseClock, e.bitrate, e.dataBitrate,
    BitVec.ofNat 32 (e.samplePointPermille.toNat + e.prescaler.toNat * 2 ^ 16),
    BitVec.ofNat 32 (e.tseg1.toNat + e.tseg2.toNat * 2 ^ 16), BitVec.ofNat 32 e.sjw.toNat]

/-- The six counters by index, 10_state.md R34. -/
def counterList (k : Counters) : List Word :=
  [k.rxCount, k.txCount, k.txErrors, k.rxErrors, k.rxOverruns, k.txDropped]

/-- The five flags of `CFG` as the number of 30_encoding.md R107. -/
def flagNumber (c : AdapterConfig) : Nat :=
  c.isCanFD.toNat + 2 * c.listenOnly.toNat + 4 * c.oneShot.toNat + 8 * c.tripleSampling.toNat + 16 * c.autoRestart.toNat

/-- Bit `k` of the payload word `W` of 20_memory.md R67, 0 from bit 64 on. -/
def payloadBit (fr : Frame) (k : Nat) : Bool := decide (k < 64) && (fr.data.read (k / 8)).getLsbD (k % 8)

/-- Bit `k` of the field of `n` bits from bit `st` on, before any byte swap (40_frame_model.md R133). -/
def signalBit (fr : Frame) (st n k : Nat) : Bool := decide (k < min n 64) && payloadBit fr (st + k)

/-- The time in microseconds a timestamp stands for. -/
def Timestamp.micros (ts : Timestamp) : Nat := ts.seconds.toNat * 1000000 + ts.microseconds.toNat

/-- The time of 44_timestamp.md R201 in natural numbers. -/
def conversionTime (s : State) (v : Bool) (dts : Word) (elapsed : Nat) : Nat :=
  if v = false ∨ dts.toNat = 0 then s.hostNow.toNat
  else
    let d := (dts.toNat + 2 ^ 32 - s.devT0.toNat) % 2 ^ 32
    let ts := (s.hostOff.toNat + d) % 2 ^ 64
    if elapsed > 6442450944 then (ts + elapsed / 2 ^ 32 * 2 ^ 32) % 2 ^ 64 else ts

/-- The table of 43_dlc_mapper.md R190: length and code. -/
def dlcTable : List (Nat × Nat) :=
  [(0, 0x0), (1, 0x1), (2, 0x2), (3, 0x3), (4, 0x4), (5, 0x5), (6, 0x6), (7, 0x7), (8, 0x8),
   (12, 0x9), (16, 0xA), (20, 0xB), (24, 0xC), (32, 0xD), (48, 0xE), (64, 0xF)]

/-- The legal lengths of a frame class, R190. -/
def legalLengths (fd : Bool) : List Nat :=
  if fd then [0, 1, 2, 3, 4, 5, 6, 7, 8, 12, 16, 20, 24, 32, 48, 64] else [0, 1, 2, 3, 4, 5, 6, 7, 8]

/-- The table of 46_deserializer.md R232 (and of 45_serializer.md R211): command letter and class. -/
def letterTable : List (Byte × LineClass) :=
  [(0x74, ⟨false, false, false, false⟩), (0x54, ⟨true, false, false, false⟩),
   (0x72, ⟨false, true, false, false⟩), (0x52, ⟨true, true, false, false⟩),
   (0x64, ⟨false, false, true, false⟩), (0x44, ⟨true, false, true, false⟩),
   (0x62, ⟨false, false, true, true⟩), (0x42, ⟨true, false, true, true⟩)]

/-- The characters `0` to `9` and `A` to `F`. -/
def upperDigits : List Byte :=
  [0x30, 0x31, 0x32, 0x33, 0x34, 0x35, 0x36, 0x37, 0x38, 0x39, 0x41, 0x42, 0x43, 0x44, 0x45, 0x46]

/-- The class a frame register's content has as a line: `isBRS` of a classic frame is ignored (45_serializer.md R211). -/
def lineClassOf (fr : Frame) : LineClass :=
  ⟨fr.rawId.getLsbD 31, fr.rawId.getLsbD 30, fr.isFD, fr.isFD && fr.isBRS⟩

/-- The identifier of 10_state.md R22 as a number. -/
def idNumber (fr : Frame) : Nat :=
  if fr.rawId.getLsbD 31 then fr.rawId.toNat % 2 ^ 29 else fr.rawId.toNat % 2 ^ 11

/-- `L` is the line of 45_serializer.md R210 for a frame register's content: command letter, identifier digits, DLC digit,
payload digits (none for a remote frame), carriage return. -/
def LineOf (fr : Frame) (L : List Byte) : Prop :=
  ∃ (c : Byte) (ids : List Byte) (d : Nat) (pay : List Byte),
    L = c :: ids ++ upperDigits.getD d 0 :: pay ++ [0x0D] ∧
    (c, lineClassOf fr) ∈ letterTable ∧
    ids.length = (if fr.rawId.getLsbD 31 then 8 else 3) ∧
    (∀ j, j < ids.length → ids[j]? = some (upperDigits.getD (idNumber fr / 16 ^ (ids.length - 1 - j) % 16) 0)) ∧
    (fr.length.toNat, d) ∈ dlcTable ∧
    pay.length = (if fr.rawId.getLsbD 30 then 0 else 2 * fr.length.toNat) ∧
    ∀ i, 2 * i < pay.length →
      pay[2 * i]? = some (upperDigits.getD ((fr.data.read i).toNat / 16) 0) ∧
      pay[2 * i + 1]? = some (upperDigits.getD ((fr.data.read i).toNat % 16) 0)

/-- What 46_deserializer.md R231 to R235 say a line without its CR means. -/
def LineMeans (L : List Byte) (p : ParsedFrame) : Prop :=
  ∃ (c : Byte) (ids : List Byte) (dl : Byte) (rest : List Byte) (hs : List Nat) (h : Nat),
    L = c :: ids ++ dl :: rest ∧
    (c, p.cls) ∈ letterTable ∧
    ids.length = (if p.cls.ext then 8 else 3) ∧
    ids.mapM hexVal = some hs ∧
    p.id = hs.foldl (fun a x => a * 16 + x) 0 ∧
    p.id ≤ (if p.cls.ext then 0x1FFFFFFF else 0x7FF) ∧
    hexVal dl = some h ∧
    (p.n, h) ∈ dlcTable ∧ p.n ∈ legalLengths p.cls.fd ∧
    (p.cls.rtr = true → p.bytes = []) ∧
    (p.cls.rtr = false → ∃ (ps tail : List Byte) (vs : List Nat),
      rest = ps ++ tail ∧ ps.length = 2 * p.n ∧ ps.mapM hexVal = some vs ∧ p.bytes.length = p.n ∧
      ∀ i, i < p.n → p.bytes[i]? = some (BitVec.ofNat 8 (vs.getD (2 * i) 0 * 16 + vs.getD (2 * i + 1) 0)))

end Sys2Proof.Machine
end

