-- ==== Sys2Proof/Certificates/Slice0/Obligations.lean ====
section
/-! DEFINITION. The statements for the provers. `s.answer w ws` is `s` with one more response packet; an equation with it states
the result, the response and the frame at once: every field it does not name is as before. -/

open Sys2Proof Sys2Proof.Machine

/-! ### Reset and the whole machine -/

/-- 70_reset_and_hazards.md R290. -/
def Obligations.ResetGivesEveryStateItsValue : Prop :=
  AtReset State.reset ∧
  ∀ (s : State) (rest : List Input), s.inputs = .reset :: rest →
    ∃ t, step s = .next t ∧ AtReset t ∧ t.params = s.params

/-- The invariant holds after reset, whatever the parameters are within the bounds of 00_scope.md R4. -/
def Obligations.InvariantHoldsAfterReset : Prop :=
  Inv State.reset ∧ ∀ p : Params, p.WithinBounds → Inv (State.resetWith p)

/-- Every step, of every input, keeps the invariant. -/
def Obligations.InvariantKeptByEveryStep : Prop :=
  ∀ s t : State, Inv s → step s = .next t → Inv t

/-- 60_exceptions.md R272: every operation is answered in every state. -/
def Obligations.EveryOperationAnswersANextState : Prop :=
  (∀ (i : Instr) (s : State), ∃ t, exec i s = .next t) ∧ ∀ s : State, ∃ t, step s = .next t

/-- A step is the decoded operation's own effect on the state with that input taken and the host time sampled. -/
def Obligations.StepRunsTheDecodedOperation : Prop :=
  ∀ (s : State) (now : DWord) (op : PortOp) (rest : List Input) (i : Instr),
    s.inputs = .operation now op :: rest → decode op = .instr i →
    step s = exec i { s with inputs := rest, hostNow := now }

/-- The model's choice (log entry 3): with no input pending, a step changes nothing. -/
def Obligations.NothingPendingChangesNothing : Prop :=
  ∀ s : State, s.inputs = [] → step s = .next s

/-! ### Encoding -/

/-- Words of 30_encoding.md, written out from the "Encoding" line of their rules, one per family. -/
def Obligations.KnownWordsDecode : Prop :=
  Carries 0x01020000 [0x0007A120, 0x0000036B, 0, 0] (.cfgApply 2 500000 875 0 0) ∧
  Carries 0x02070000 [0x04C4B400, 0] (.ifOpen 7 80000000 0) ∧
  Carries 0x05000007 [] (.ifSetId 7) ∧
  Carries 0x15001900 [] (.frmSetFlags .f0 0b011001) ∧
  Carries 0x19000342 [] (.frmSetByte .f0 3 0x42) ∧
  Carries 0x1B000008 [] (.frmExtract .f0 false 0 8) ∧
  Carries 0x1E000102 [] (.frmSetIf .f0 0x0102) ∧
  Carries 0x20000000 [0x04C4B400, 0x0007A120, 0x0000036B] (.btLookup .arb 80000000 500000 875) ∧
  Carries 0x31010900 [] (.dlcDec true 9) ∧
  Carries 0x40030000 [0x0007A120, 0, 0] (.tsConv .f1 true 500000 0 0) ∧
  Carries 0x51000600 [] (.serBitrate 6) ∧
  Carries 0x60010000 [] (.desPoll .f1)

/-- No bit of an operation is lost on the way through its packet, for every operation and every operand value. -/
def Obligations.DecodeOfEncode : Prop :=
  ∀ i : Instr, decode (encode i) = .instr i

/-- No two transfers stand for one operation, and the encoder gives the transfer the decoder read. -/
def Obligations.EncodeOfDecode : Prop :=
  ∀ (op : PortOp) (i : Instr), decode op = .instr i → encode i = op

/-- 30_encoding.md R104: the rows of two mnemonics never both match a word, and a word that matches no row is no operation. -/
def Obligations.TableRowsNeverOverlap : Prop :=
  (∀ (a b : Opcode) (h : Word), h &&& a.mask = a.pattern → h &&& b.mask = b.pattern → a = b) ∧
  (∀ (h : Word) (ws : List Word), (∀ op : Opcode, h &&& op.mask ≠ op.pattern) →
    ∀ i, decode (.command h ws) ≠ .instr i) ∧
  ∀ (op : Opcode) (h : Word) (ws : List Word), h &&& op.mask = op.pattern → ws.length = op.nops →
    ∃ i, decode (.command h ws) = .instr i ∧ opcodeOf i = some op

/-- 30_encoding.md R98, R99, R100: a packet with an unknown opcode, a wrong length or a reserved bit set answers `ERR_ILLEGAL`
with the opcode echoed, and nothing else changes. -/
def Obligations.IllegalPacketsAnswerErrIllegal : Prop :=
  ∀ (s : State) (now : DWord) (h : Word) (ws : List Word) (rest : List Input),
    s.inputs = .operation now (.command h ws) :: rest →
    (UnknownOpcode (h.toNat / 2 ^ 24) ∨
      ∃ op : Opcode, op.code.toNat = h.toNat / 2 ^ 24 ∧
        (ws.length ≠ op.nops ∨ h &&& op.mask &&& 0x00FFFFFF ≠ 0)) →
    step s = .next ({ s with inputs := rest, hostNow := now }.answer (statusNumber (h.toNat / 2 ^ 24) 0x01) [])

/-- 30_encoding.md R101: the column "illegal by value", in every state and before any other check of the operation. -/
def Obligations.IllegalValuesAnswerErrIllegal : Prop :=
  ∀ s : State,
    (∀ (g : BitVec 5) (r sp fr fsp : Word), 0xFFFF < sp.toNat ∨ 0xFFFF < fsp.toNat →
      exec (.cfgApply g r sp fr fsp) s = .next (s.answer 0x0101 [])) ∧
    (∀ n : BitVec 3, n = 6 ∨ n = 7 → exec (.statGet n) s = .next (s.answer 0x0601 []) ∧
      exec (.statBump n) s = .next (s.answer 0x0701 [])) ∧
    (∀ (f : FrameReg) (lo hi us : Word), 1000000 ≤ us.toNat →
      exec (.frmSetTs f lo hi us) s = .next (s.answer 0x1C01 [])) ∧
    (∀ n : BitVec 4, 10 ≤ n.toNat → exec (.serBitrate n) s = .next (s.answer 0x5101 [])) ∧
    ∀ n : BitVec 4, n ≠ 2 → n ≠ 4 → n ≠ 5 → n ≠ 8 → exec (.serFdRate n) s = .next (s.answer 0x5201 [])

/-! ### Responses and errors -/

/-- 30_encoding.md R95: one response packet per command, its status word made of the status code and the opcode, its result
words as many as the opcode's `nres` for `OK` and none for an error. The clause that limits the status is 60_exceptions.md
R261, which the spec marks as derived from the exception lists of its own rules; the statement is 'derived' for that clause. -/
def Obligations.EveryCommandGetsOneResponse : Prop :=
  (∀ (i : Instr) (op : Opcode) (s t : State), opcodeOf i = some op → exec i s = .next t →
    ∃ (st : Status) (ws : List Word),
      t.outputs = s.outputs ++ [.response (statusNumber op.code.toNat st.code.toNat) ws] ∧
      (st = .ok → ws.length = op.nres) ∧ (st ≠ .ok → ws = []) ∧
      (st = .ok ∨ st = .errIllegal ∨ st ∈ furtherStatuses op)) ∧
  (∀ (h : Word) (ws : List Word) (e : DecodeError) (s : State), decode (.command h ws) = .rejected e →
    runOp (.command h ws) s = .next (s.answer (statusNumber (h.toNat / 2 ^ 24) 0x01) [])) ∧
  (∀ (d : Byte) (s t : State), exec (.rxPush d) s = .next t → t.outputs = s.outputs) ∧
  ∀ s t : State, exec .txPop s = .next t →
    t.outputs = s.outputs ++ [.txEmpty] ∨ ∃ v, t.outputs = s.outputs ++ [.txByte v]

/-- 60_exceptions.md R264: an error changes nothing but the counters and buffer movements its rule lists. -/
def Obligations.ErrorsChangeOnlyWhatRulesList : Prop :=
  ∀ (i : Instr) (op : Opcode) (s t : State) (st : Status) (ws : List Word), Inv s →
    opcodeOf i = some op → exec i s = .next t → st ≠ .ok →
    t.outputs = s.outputs ++ [.response (statusNumber op.code.toNat st.code.toNat) ws] →
    ws = [] ∧
    (if op = .serFrame ∧ (st = .errFrame ∨ st = .errLength) then
      t = { s with counters := { s.counters with txErrors := s.counters.txErrors + 1 }, outputs := t.outputs }
    else if st = .errTxFull then
      t = { s with counters := { s.counters with txDropped := s.counters.txDropped + 1 }, outputs := t.outputs }
    else if st = .errParse then
      ∃ pre post, ringBytes s = pre ++ 0x0D :: post ∧ 0x0D ∉ pre ∧ ringBytes t = post ∧
        t = { s with
          ringTail := t.ringTail
          line := t.line
          lineLen := 0
          counters := { s.counters with
            rxErrors := s.counters.rxErrors + 1
            rxOverruns := s.counters.rxOverruns + BitVec.ofNat 32 (lineOverflows s pre) }
          outputs := t.outputs }
    else if st = .errEmpty then
      ringBytes t = [] ∧ lineBytes t = lineLeft s (ringBytes s) ∧
        t = { s with
          ringTail := s.ringHead
          line := t.line
          lineLen := t.lineLen
          counters := { s.counters with
            rxOverruns := s.counters.rxOverruns + BitVec.ofNat 32 (lineOverflows s (ringBytes s)) }
          outputs := t.outputs }
    else t = { s with outputs := t.outputs })

/-- 10_state.md R37, the column "written by": a piece of state differs after an operation only if the operation is named for
it; the parameters and the catalogs never change. -/
def Obligations.OnlyNamedOperationsWriteEachState : Prop :=
  ∀ (i : Instr) (s t : State), exec i s = .next t →
    (∀ f, (t.frame f).rawId ≠ (s.frame f).rawId → frameOf i = some f ∧
      opcodeOf i ∈ [some .frmClear, some .frmSetRaw, some .frmSetId, some .frmSetFlags, some .desPoll]) ∧
    (∀ f, (t.frame f).length ≠ (s.frame f).length → frameOf i = some f ∧
      opcodeOf i ∈ [some .frmClear, some .frmSetLen, some .desPoll]) ∧
    (∀ f, (t.frame f).data ≠ (s.frame f).data → frameOf i = some f ∧
      opcodeOf i ∈ [some .frmClear, some .frmSetByte, some .desPoll]) ∧
    (∀ f, (t.frame f).isFD ≠ (s.frame f).isFD ∨ (t.frame f).isBRS ≠ (s.frame f).isBRS → frameOf i = some f ∧
      opcodeOf i ∈ [some .frmClear, some .frmSetFlags, some .desPoll]) ∧
    (∀ f, (t.frame f).timestamp ≠ (s.frame f).timestamp → frameOf i = some f ∧
      opcodeOf i ∈ [some .frmClear, some .frmSetTs, some .tsConv, some .serFrame, some .desPoll]) ∧
    (∀ f, (t.frame f).interfaceId ≠ (s.frame f).interfaceId → frameOf i = some f ∧
      opcodeOf i ∈ [some .frmClear, some .frmSetIf, some .desPoll]) ∧
    (∀ f, (t.frame f).direction ≠ (s.frame f).direction → frameOf i = some f ∧
      opcodeOf i ∈ [some .frmClear, some .frmSetFlags, some .serFrame, some .desPoll]) ∧
    (t.cfg ≠ s.cfg → opcodeOf i = some .cfgApply) ∧
    (t.ifState ≠ s.ifState ∨ t.mode ≠ s.mode → opcodeOf i ∈ [some .ifOpen, some .ifClose]) ∧
    (t.ifId ≠ s.ifId → opcodeOf i = some .ifSetId) ∧
    (t.counters ≠ s.counters → opcodeOf i ∈ [some .statBump, some .ifOpen, some .serFrame, some .serBitrate,
      some .serFdRate, some .serOpenCh, some .serCloseCh, some .desPoll] ∨ ∃ d, i = .rxPush d) ∧
    (t.hostOff ≠ s.hostOff ∨ t.devT0 ≠ s.devT0 → opcodeOf i = some .ifOpen) ∧
    (t.ring ≠ s.ring ∨ t.ringHead ≠ s.ringHead → ∃ d, i = .rxPush d) ∧
    (t.ringTail ≠ s.ringTail → opcodeOf i = some .desPoll ∨ ∃ d, i = .rxPush d) ∧
    (t.line ≠ s.line ∨ t.lineLen ≠ s.lineLen → opcodeOf i = some .desPoll) ∧
    (t.txq ≠ s.txq → opcodeOf i ∈ [some .serFrame, some .serBitrate, some .serFdRate, some .serOpenCh,
      some .serCloseCh] ∨ i = .txPop) ∧
    t.params = s.params

/-- 10_state.md R45: the host time input reaches only `IF.OPEN`, `TS.CONV`, `SER.FRAME` and `DES.POLL`. -/
def Obligations.HostTimeReadByFourOperations : Prop :=
  ∀ (i : Instr) (s : State) (now : DWord),
    opcodeOf i ∉ [some .ifOpen, some .tsConv, some .serFrame, some .desPoll] →
    exec i { s with hostNow := now } = mapNext (fun t => { t with hostNow := now }) (exec i s)

/-- 10_state.md R29: an operation neither reads nor writes a frame register it does not name. -/
def Obligations.OperationsIgnoreTheOtherFrame : Prop :=
  ∀ (i : Instr) (f : FrameReg) (fr : Frame) (s : State), frameOf i ≠ some f →
    exec i (s.setFrame f fr) = mapNext (fun t => t.setFrame f fr) (exec i s)

/-- The model's own fields (log entries 1 and 2): no operation reads what has left the block or what is still to come. -/
def Obligations.OperationsIgnorePendingAndPastTransfers : Prop :=
  ∀ (i : Instr) (s : State) (past : List Output) (pending : List Input),
    exec i { s with outputs := past ++ s.outputs, inputs := pending } =
      mapNext (fun t => { t with outputs := past ++ t.outputs, inputs := pending }) (exec i s)

/-- 70_reset_and_hazards.md R291: what slots of the ring and of the line buffer hold that hold no stored byte cannot be
observed, now or later. -/
def Obligations.SlotContentsCannotBeObserved : Prop :=
  ∀ (i : Instr) (s s' : State), Inv s → Inv s' → SlotsAgree s s' →
    ∃ t t', exec i s = .next t ∧ exec i s' = .next t' ∧ SlotsAgree t t' ∧ t'.outputs = t.outputs

/-- 20_memory.md R73: these operations change no state and answer the same when repeated. -/
def Obligations.QueriesChangeNothing : Prop :=
  ∀ (i : Instr) (op : Opcode) (s : State), opcodeOf i = some op →
    op ∈ [Opcode.statGet, .desLevel, .ifState, .cfgGet, .tsGet, .frmGetRaw, .frmGetId, .frmGetFlags, .frmGetLen, .frmGetByte,
      .frmGetTs, .frmGetIf, .frmExtract, .dlcEnc, .dlcDec, .btLookup, .btCount, .btItem, .btTq] →
    ∃ w ws, exec i s = .next (s.answer w ws) ∧
      exec i (s.answer w ws) = .next ((s.answer w ws).answer w ws)

/-! ### Interface control, configuration, counters -/

/-- 42_interface.md R179: the five rows of the interface state machine, and that no other operation depends on the state but
`TS.CONV` and the operations that report or change it. -/
def Obligations.InterfaceStateMachine : Prop :=
  (∀ (i : Instr) (s t : State), s.ifState ≠ .opening → exec i s = .next t →
    t.ifState ≠ .opening ∧
    (s.ifState = .closed → t.ifState = .opened → (∃ caps clk dev, i = .ifOpen caps clk dev) ∧
      ∃ ws, t.outputs = s.outputs ++ [.response 0x0200 ws]) ∧
    (s.ifState = .opened → t.ifState = .closed → i = .ifClose)) ∧
  (∀ (caps : BitVec 4) (clk dev : Word) (s t : State), s.ifState = .closed →
    exec (.ifOpen caps clk dev) s = .next t →
    (t.ifState = .opened ∧ t.hostOff = s.hostNow ∧ t.devT0 = dev ∧ t.counters = ⟨0, 0, 0, 0, 0, 0⟩ ∧
      t.mode = BitVec.ofNat 5 (flagNumber s.cfg)) ∨
    t = s.answer 0x0202 [] ∨ t = s.answer 0x0203 []) ∧
  (∀ (caps : BitVec 4) (clk dev : Word) (s : State), s.ifState = .opened →
    exec (.ifOpen caps clk dev) s = .next (s.answer 0x0204 [])) ∧
  (∀ s : State, s.ifState = .opened →
    exec .ifClose s = .next ({ s with ifState := .closed, mode := 0 }.answer 0x0300 [])) ∧
  (∀ s : State, s.ifState = .closed → s.mode = 0 → exec .ifClose s = .next (s.answer 0x0300 [])) ∧
  ∀ (i : Instr) (s : State) (x : IfState),
    opcodeOf i ∉ [some .tsConv, some .ifOpen, some .ifClose, some .ifState] →
    exec i { s with ifState := x } = mapNext (fun t => { t with ifState := x }) (exec i s)

/-- 42_interface.md R170, R174, R176: `NOP`, `IF.CLOSE`, `IF.SETID`. -/
def Obligations.NopCloseSetId : Prop :=
  ∀ s : State,
    Carries 0x00000000 [] .nop ∧ exec .nop s = .next (s.answer 0x0000 []) ∧
    Carries 0x03000000 [] .ifClose ∧
    exec .ifClose s = .next ({ s with ifState := .closed, mode := 0 }.answer 0x0300 []) ∧
    ∀ id : Half, Carries (0x05000000 ||| fieldAt 0 id) [] (.ifSetId id) ∧
      exec (.ifSetId id) s = .next ({ s with ifId := id }.answer 0x0500 [])

/-- 42_interface.md R175: the fields of the word `IF.STATE` answers. -/
def Obligations.IfStateWord : Prop :=
  Carries 0x04000000 [] .ifState ∧
  ∀ s : State, s.ifState ≠ .opening → ∃ w : Word, exec .ifState s = .next (s.answer 0x0400 [w]) ∧
    w.extractLsb' 0 2 = (if s.ifState = .opened then 2 else 0) ∧ w.extractLsb' 2 6 = 0 ∧
    w.extractLsb' 8 5 = s.mode ∧ w.extractLsb' 13 3 = 0 ∧ w.extractLsb' 16 16 = s.ifId

/-- 42_interface.md R171: all nine fields of `CFG` at once, or none. -/
def Obligations.ConfigApply : Prop :=
  ∀ (g : BitVec 5) (r sp fr fsp : Word) (s : State),
    Carries (0x01000000 ||| fieldAt 16 g) [r, sp, fr, fsp] (.cfgApply g r sp fr fsp) ∧
    (sp.toNat ≤ 0xFFFF → fsp.toNat ≤ 0xFFFF →
      ∃ c : AdapterConfig, exec (.cfgApply g r sp fr fsp) s = .next ({ s with cfg := c }.answer 0x0100 []) ∧
        c.bitrate = r ∧ c.samplePoint.toNat = sp.toNat ∧ c.fdBitrate = fr ∧ c.fdSamplePoint.toNat = fsp.toNat ∧
        flagNumber c = g.toNat) ∧
    (0xFFFF < sp.toNat ∨ 0xFFFF < fsp.toNat → exec (.cfgApply g r sp fr fsp) s = .next (s.answer 0x0101 []))

/-- 42_interface.md R172. -/
def Obligations.ConfigGet : Prop :=
  Carries 0x08000000 [] .cfgGet ∧
  ∀ s : State, ∃ w sp fsp : Word,
    exec .cfgGet s = .next (s.answer 0x0800 [w, s.cfg.bitrate, sp, s.cfg.fdBitrate, fsp]) ∧
    w.toNat = flagNumber s.cfg ∧ sp.toNat = s.cfg.samplePoint.toNat ∧ fsp.toNat = s.cfg.fdSamplePoint.toNat

/-- 42_interface.md R173: the four checks in their order, and what a successful open captures, clears, copies and answers. -/
def Obligations.InterfaceOpen : Prop :=
  ∀ (caps : BitVec 4) (clk dev : Word) (s : State),
    let i : Instr := .ifOpen caps clk dev
    let sp : Word := s.cfg.samplePoint.setWidth 32
    let fsp : Word := s.cfg.fdSamplePoint.setWidth 32
    let opened : List Word → State := fun ws =>
      { s with
        hostOff := s.hostNow
        devT0 := dev
        counters := ⟨0, 0, 0, 0, 0, 0⟩
        mode := BitVec.ofNat 5 (flagNumber s.cfg)
        ifState := .opened }.answer 0x0200 ws
    Carries (0x02000000 ||| fieldAt 16 caps) [clk, dev] i ∧
    (s.ifState = .opened → exec i s = .next (s.answer 0x0204 [])) ∧
    (s.ifState ≠ .opened → s.cfg.isCanFD = true → caps.getLsbD 3 = false → exec i s = .next (s.answer 0x0203 [])) ∧
    (s.ifState ≠ .opened → ¬ (s.cfg.isCanFD = true ∧ caps.getLsbD 3 = false) →
      (NoMatch s.params.catArb clk s.cfg.bitrate sp → exec i s = .next (s.answer 0x0202 [])) ∧
      ∀ ea, FirstMatch s.params.catArb clk s.cfg.bitrate sp ea →
        (caps.getLsbD 3 = true → NoMatch s.params.catData clk s.cfg.fdBitrate fsp →
          exec i s = .next (s.answer 0x0202 [])) ∧
        (caps.getLsbD 3 = true → ∀ ed, FirstMatch s.params.catData clk s.cfg.fdBitrate fsp ed →
          exec i s = .next (opened (entryImage ea ++ entryImage ed))) ∧
        (caps.getLsbD 3 = false → exec i s = .next (opened (entryImage ea ++ [0, 0, 0, 0, 0, 0]))))

/-- 42_interface.md R177, R178: the six counters by index; reading does not clear, a bump adds one modulo 2^32. -/
def Obligations.StatGetAndBump : Prop :=
  ∀ (n : BitVec 3) (s : State),
    Carries (0x06000000 ||| fieldAt 16 n) [] (.statGet n) ∧
    Carries (0x07000000 ||| fieldAt 16 n) [] (.statBump n) ∧
    (5 < n.toNat → exec (.statGet n) s = .next (s.answer 0x0601 []) ∧
      exec (.statBump n) s = .next (s.answer 0x0701 [])) ∧
    ∀ w, (counterList s.counters)[n.toNat]? = some w →
      exec (.statGet n) s = .next (s.answer 0x0600 [w]) ∧
      ∃ k : Counters, exec (.statBump n) s = .next ({ s with counters := k }.answer 0x0700 []) ∧
        counterList k = (counterList s.counters).set n.toNat (BitVec.ofNat 32 ((w.toNat + 1) % 2 ^ 32))

/-! ### Frame registers -/

/-- 40_frame_model.md R120, R121, R131: the whole register, `rawId`, `interfaceId`. -/
def Obligations.FrameClearSetRawSetIf : Prop :=
  ∀ (f : FrameReg) (s : State),
    (Carries (0x10000000 ||| fieldF f) [] (.frmClear f) ∧
      ∃ fr : Frame, exec (.frmClear f) s = .next ((s.setFrame f fr).answer 0x1000 []) ∧
        fr.rawId = 0 ∧ fr.length = 0 ∧ (∀ i, i < 64 → fr.data.read i = 0) ∧ fr.isFD = false ∧ fr.isBRS = false ∧
        fr.timestamp = ⟨0, 0⟩ ∧ fr.interfaceId = 0 ∧ fr.direction = .rx) ∧
    (∀ w : Word, Carries (0x11000000 ||| fieldF f) [w] (.frmSetRaw f w) ∧
      exec (.frmSetRaw f w) s = .next ((s.setFrame f { s.frame f with rawId := w }).answer 0x1100 [])) ∧
    ∀ id : Half, Carries (0x1E000000 ||| fieldF f ||| fieldAt 0 id) [] (.frmSetIf f id) ∧
      exec (.frmSetIf f id) s = .next ((s.setFrame f { s.frame f with interfaceId := id }).answer 0x1E00 [])

/-- 40_frame_model.md R123: 29 bits from the operand, the three flag bits kept. -/
def Obligations.FrameSetId : Prop :=
  ∀ (f : FrameReg) (id : Word) (s : State),
    Carries (0x13000000 ||| fieldF f) [id] (.frmSetId f id) ∧
    ∃ r : Word, exec (.frmSetId f id) s = .next ((s.setFrame f { s.frame f with rawId := r }).answer 0x1300 []) ∧
      (∀ k, k < 29 → r.getLsbD k = id.getLsbD k) ∧
      ∀ k, 29 ≤ k → r.getLsbD k = (s.frame f).rawId.getLsbD k

/-- 40_frame_model.md R125: six flags at once, `rawId[28:0]` kept. -/
def Obligations.FrameSetFlags : Prop :=
  ∀ (f : FrameReg) (g : BitVec 6) (s : State),
    Carries (0x15000000 ||| fieldF f ||| fieldAt 8 g) [] (.frmSetFlags f g) ∧
    ∃ r : Word, exec (.frmSetFlags f g) s = .next ((s.setFrame f
        { s.frame f with
          rawId := r
          isFD := g.getLsbD 3
          isBRS := g.getLsbD 4
          direction := if g.getLsbD 5 = true then .tx else .rx }).answer 0x1500 []) ∧
      r.getLsbD 31 = g.getLsbD 0 ∧ r.getLsbD 30 = g.getLsbD 1 ∧ r.getLsbD 29 = g.getLsbD 2 ∧
      ∀ k, k < 29 → r.getLsbD k = (s.frame f).rawId.getLsbD k

/-- 40_frame_model.md R127: a length above 64 becomes 8, with status `OK`. -/
def Obligations.FrameSetLenClamps : Prop :=
  ∀ (f : FrameReg) (n : Byte) (s : State),
    Carries (0x17000000 ||| fieldF f ||| fieldAt 8 n) [] (.frmSetLen f n) ∧
    (n.toNat ≤ 64 → exec (.frmSetLen f n) s = .next ((s.setFrame f { s.frame f with length := n }).answer 0x1700 [])) ∧
    (64 < n.toNat → exec (.frmSetLen f n) s = .next ((s.setFrame f { s.frame f with length := 8 }).answer 0x1700 []))

/-- 40_frame_model.md R129: the byte at the index is written when the index is below 64, and no other byte ever is. -/
def Obligations.FrameSetByte : Prop :=
  ∀ (f : FrameReg) (i v : Byte) (s : State), (s.frame f).data.wf = true →
    Carries (0x19000000 ||| fieldF f ||| fieldAt 8 i ||| fieldAt 0 v) [] (.frmSetByte f i v) ∧
    ∃ m : Memory, exec (.frmSetByte f i v) s = .next ((s.setFrame f { s.frame f with data := m }).answer 0x1900 []) ∧
      m.wf = true ∧ (64 ≤ i.toNat → m = (s.frame f).data) ∧ (i.toNat < 64 → m.read i.toNat = v) ∧
      ∀ j, j ≠ i.toNat → m.read j = (s.frame f).data.read j

/-- 40_frame_model.md R122, R124, R126, R128, R130, R132: what the reading operations of a frame register answer. -/
def Obligations.FrameGetters : Prop :=
  ∀ (f : FrameReg) (s : State),
    let fr := s.frame f
    (Carries (0x12000000 ||| fieldF f) [] (.frmGetRaw f) ∧
      exec (.frmGetRaw f) s = .next (s.answer 0x1200 [fr.rawId])) ∧
    (Carries (0x14000000 ||| fieldF f) [] (.frmGetId f) ∧
      ∃ w : Word, exec (.frmGetId f) s = .next (s.answer 0x1400 [w]) ∧
        w.toNat = (if fr.rawId.getLsbD 31 = true then fr.rawId.toNat % 2 ^ 29 else fr.rawId.toNat % 2 ^ 11)) ∧
    (Carries (0x16000000 ||| fieldF f) [] (.frmGetFlags f) ∧
      ∃ w : Word, exec (.frmGetFlags f) s = .next (s.answer 0x1600 [w]) ∧
        w.toNat = (fr.rawId.getLsbD 31).toNat + 2 * (fr.rawId.getLsbD 30).toNat + 4 * (fr.rawId.getLsbD 29).toNat +
          8 * fr.isFD.toNat + 16 * fr.isBRS.toNat + (if fr.direction = .tx then 32 else 0)) ∧
    (Carries (0x18000000 ||| fieldF f) [] (.frmGetLen f) ∧
      ∃ w : Word, exec (.frmGetLen f) s = .next (s.answer 0x1800 [w]) ∧ w.toNat = fr.length.toNat) ∧
    (∀ i : Byte, Carries (0x1A000000 ||| fieldF f ||| fieldAt 8 i) [] (.frmGetByte f i) ∧
      ∃ w : Word, exec (.frmGetByte f i) s = .next (s.answer 0x1A00 [w]) ∧
        w.toNat = (if i.toNat < 64 then (fr.data.read i.toNat).toNat else 0)) ∧
    (Carries (0x1F000000 ||| fieldF f) [] (.frmGetIf f) ∧
      ∃ w : Word, exec (.frmGetIf f) s = .next (s.answer 0x1F00 [w]) ∧ w.toNat = fr.interfaceId.toNat)

/-- 40_frame_model.md R133, R134, bit by bit. The big-endian clause rests on the spec's decision D11 (log entry 8): the field
is byte-swapped and shifted right by `64 - Lc`. -/
def Obligations.FrameExtract : Prop :=
  ∀ (f : FrameReg) (be : Bool) (st n : Byte) (s : State),
    Carries (0x1B000000 ||| fieldF f ||| fieldBit 17 be ||| fieldAt 8 st ||| fieldAt 0 n) [] (.frmExtract f be st n) ∧
    ∃ lo hi : Word, exec (.frmExtract f be st n) s = .next (s.answer 0x1B00 [lo, hi]) ∧
      ∀ k, k < 64 →
        (if k < 32 then lo.getLsbD k else hi.getLsbD (k - 32)) =
          (if be = true ∧ 8 < min n.toNat 64 then
            let q := k + (64 - min n.toNat 64)
            decide (q < 64) && signalBit (s.frame f) st.toNat n.toNat (8 * (7 - q / 8) + q % 8)
          else signalBit (s.frame f) st.toNat n.toNat k)

/-- The case every reading of the source's sentence agrees on (93_implementation_defined.md U3): a big-endian field of whole
bytes that starts at a byte comes out as the number its bytes spell, the first one most significant. -/
def Obligations.FrameExtractBigEndianBytes : Prop :=
  ∀ (f : FrameReg) (k m : Nat) (s : State), 2 ≤ m → k + m ≤ 8 →
    ∃ lo hi : Word,
      exec (.frmExtract f true (BitVec.ofNat 8 (8 * k)) (BitVec.ofNat 8 (8 * m))) s = .next (s.answer 0x1B00 [lo, hi]) ∧
      lo.toNat + hi.toNat * 2 ^ 32 =
        ((List.range m).map fun j => (s.frame f).data.read (k + j)).foldl (fun a b => a * 256 + b.toNat) 0

/-- 40_frame_model.md R135, R136. -/
def Obligations.FrameTimestamps : Prop :=
  ∀ (f : FrameReg) (s : State),
    (∀ lo hi us : Word, Carries (0x1C000000 ||| fieldF f) [lo, hi, us] (.frmSetTs f lo hi us) ∧
      (1000000 ≤ us.toNat → exec (.frmSetTs f lo hi us) s = .next (s.answer 0x1C01 [])) ∧
      (us.toNat < 1000000 →
        exec (.frmSetTs f lo hi us) s = .next ((s.setFrame f
          { s.frame f with timestamp := ⟨BitVec.ofNat 64 (lo.toNat + hi.toNat * 2 ^ 32), us⟩ }).answer 0x1C00 []))) ∧
    Carries (0x1D000000 ||| fieldF f) [] (.frmGetTs f) ∧
    exec (.frmGetTs f) s = .next (s.answer 0x1D00
      [BitVec.ofNat 32 ((s.frame f).timestamp.seconds.toNat % 2 ^ 32),
        BitVec.ofNat 32 ((s.frame f).timestamp.seconds.toNat / 2 ^ 32), (s.frame f).timestamp.microseconds])

/-! ### Bit-timing lookup -/

/-- 41_bit_timing.md R150 to R153: the first exact match in index order, or not found; on a well-formed table the entry of the
key itself. -/
def Obligations.TimingLookup : Prop :=
  ∀ (t : Table) (clk rate sp : Word) (s : State),
    Carries (0x20000000 ||| fieldT t) [clk, rate, sp] (.btLookup t clk rate sp) ∧
    (NoMatch (s.catalog t) clk rate sp → exec (.btLookup t clk rate sp) s = .next (s.answer 0x2002 [])) ∧
    (∀ e, FirstMatch (s.catalog t) clk rate sp e →
      exec (.btLookup t clk rate sp) s = .next (s.answer 0x2000 (entryImage e))) ∧
    (catalogKeysDistinct (s.catalog t) → ∀ e ∈ s.catalog t, KeyMatches e clk rate sp →
      exec (.btLookup t clk rate sp) s = .next (s.answer 0x2000 (entryImage e)))

/-- 41_bit_timing.md R154 to R156: the distinct bitrates of a clock in order of first occurrence, their number, and each by
index. A number that does not fit a word is a free value (log entry 9). -/
def Obligations.TimingCountAndItem : Prop :=
  ∀ (t : Table) (clk : Word) (s : State), ∃ L : List Word, AvailableList (s.catalog t) clk L ∧
    Carries (0x21000000 ||| fieldT t) [clk] (.btCount t clk) ∧
    (∃ w : Word, exec (.btCount t clk) s = .next (s.answer 0x2100 [w]) ∧ (L.length < 2 ^ 32 → w.toNat = L.length)) ∧
    ∀ k : Word, Carries (0x22000000 ||| fieldT t) [clk, k] (.btItem t clk k) ∧
      (∀ r, L[k.toNat]? = some r → exec (.btItem t clk k) s = .next (s.answer 0x2200 [r])) ∧
      (L.length ≤ k.toNat → exec (.btItem t clk k) s = .next (s.answer 0x220B []))

/-- 41_bit_timing.md R158, formulas the spec marks as general knowledge (log entry 13): no result is cut to 32 bits. -/
def Obligations.TimeQuantumCalculator : Prop :=
  ∀ (clk w3 w4 : Word) (s : State),
    let p := w3.toNat / 2 ^ 16
    let t1 := w4.toNat % 2 ^ 16
    let t2 := w4.toNat / 2 ^ 16
    Carries 0x23000000 [clk, w3, w4] (.btTq clk w3 w4) ∧
    (p = 0 → exec (.btTq clk w3 w4) s = .next (s.answer 0x230C [])) ∧
    (p ≠ 0 → ∃ ws : List Word, exec (.btTq clk w3 w4) s = .next (s.answer 0x2300 ws) ∧
      ws.map BitVec.toNat = [1 + t1 + t2, clk.toNat / (p * (1 + t1 + t2)), clk.toNat % (p * (1 + t1 + t2)),
        1000 * (1 + t1) / (1 + t1 + t2)])

/-! ### DLC mapper -/

/-- 43_dlc_mapper.md R193: the two functions are inverse to each other on what they accept, and the decoder's results are the
legal lengths of the class. -/
def Obligations.DlcRoundTrip : Prop :=
  (∀ (fd : Bool) (n d : Nat), lenToDlc fd n = some d ↔ dlcToLen fd d = some n) ∧
  ∀ (fd : Bool) (n : Nat), (∃ d, dlcToLen fd d = some n) ↔ n ∈ legalLengths fd

/-- 43_dlc_mapper.md R190 to R192: both directions against the table of R190. -/
def Obligations.DlcEncodeDecode : Prop :=
  ∀ (fd : Bool) (x : Byte) (s : State),
    Carries (0x30000000 ||| fieldBit 16 fd ||| fieldAt 8 x) [] (.dlcEnc fd x) ∧
    Carries (0x31000000 ||| fieldBit 16 fd ||| fieldAt 8 x) [] (.dlcDec fd x) ∧
    (∀ d, (x.toNat, d) ∈ dlcTable → x.toNat ∈ legalLengths fd →
      exec (.dlcEnc fd x) s = .next (s.answer 0x3000 [BitVec.ofNat 32 d])) ∧
    (x.toNat ∉ legalLengths fd → exec (.dlcEnc fd x) s = .next (s.answer 0x3005 [])) ∧
    (∀ n, (n, x.toNat) ∈ dlcTable → n ∈ legalLengths fd →
      exec (.dlcDec fd x) s = .next (s.answer 0x3100 [BitVec.ofNat 32 n])) ∧
    ((∀ n, (n, x.toNat) ∈ dlcTable → n ∉ legalLengths fd) → exec (.dlcDec fd x) s = .next (s.answer 0x3106 []))

/-! ### Timestamps -/

/-- 44_timestamp.md R201 in natural numbers. -/
def Obligations.TimestampConversion : Prop :=
  ∀ (f : FrameReg) (v : Bool) (dts lo hi : Word) (s : State),
    let T := conversionTime s v dts (lo.toNat + hi.toNat * 2 ^ 32)
    Carries (0x40000000 ||| fieldF f ||| fieldBit 17 v) [dts, lo, hi] (.tsConv f v dts lo hi) ∧
    (s.ifState ≠ .opened → exec (.tsConv f v dts lo hi) s = .next (s.answer 0x4004 [])) ∧
    (s.ifState = .opened →
      exec (.tsConv f v dts lo hi) s = .next ((s.setFrame f { s.frame f with
          timestamp := ⟨BitVec.ofNat 64 (T / 1000000), BitVec.ofNat 32 (T % 1000000)⟩ }).answer 0x4000
        [BitVec.ofNat 32 (T / 1000000 % 2 ^ 32), BitVec.ofNat 32 (T / 1000000 / 2 ^ 32), BitVec.ofNat 32 (T % 1000000)]))

/-- 44_timestamp.md R202, a consequence the spec derives: with true inputs the conversion gives the true time before the first
wrap and past one and a half wraps, and a time one wrap early between. -/
def Obligations.TimestampConversionAccuracy : Prop :=
  ∀ (f : FrameReg) (dts lo hi : Word) (E : Nat) (s : State), s.ifState = .opened →
    lo.toNat + hi.toNat * 2 ^ 32 = E → s.hostOff.toNat + E < 2 ^ 64 →
    dts.toNat = (s.devT0.toNat + E) % 2 ^ 32 → dts ≠ 0 →
    ∃ t, exec (.tsConv f true dts lo hi) s = .next t ∧
      (t.frame f).timestamp.micros =
        (if E < 2 ^ 32 ∨ 6442450944 < E then s.hostOff.toNat + E else s.hostOff.toNat + E - 2 ^ 32)

/-- 44_timestamp.md R203. -/
def Obligations.TimestampGet : Prop :=
  Carries 0x41000000 [] .tsGet ∧
  ∀ s : State, exec .tsGet s = .next (s.answer 0x4100
    [BitVec.ofNat 32 (s.hostOff.toNat % 2 ^ 32), BitVec.ofNat 32 (s.hostOff.toNat / 2 ^ 32), s.devT0])

/-! ### Serializer -/

/-- 45_serializer.md R210 to R213: which frames are refused, in which order, and the line any other frame becomes; the line
enters the transmit queue whole, or not at all (R219). -/
def Obligations.SerializeFrame : Prop :=
  ∀ (f : FrameReg) (s : State),
    let fr := s.frame f
    let refusedAs : Word → Host.Outcome State Fault Refusal := fun w => .next ({ s with
      counters := { s.counters with txErrors := s.counters.txErrors + 1 } }.answer w [])
    Carries (0x50000000 ||| fieldF f) [] (.serFrame f) ∧
    (fr.rawId.getLsbD 29 = true ∨ (fr.isFD = true ∧ fr.rawId.getLsbD 30 = true) →
      exec (.serFrame f) s = refusedAs 0x5007) ∧
    (¬ (fr.rawId.getLsbD 29 = true ∨ (fr.isFD = true ∧ fr.rawId.getLsbD 30 = true)) →
      (fr.length.toNat ∉ legalLengths fr.isFD → exec (.serFrame f) s = refusedAs 0x5005) ∧
      (fr.length.toNat ∈ legalLengths fr.isFD → ∃ L, LineOf fr L ∧
        (s.txq.length + L.length ≤ s.params.txqCap →
          exec (.serFrame f) s = .next (({ s with
              txq := s.txq ++ L
              counters := { s.counters with txCount := s.counters.txCount + 1 } }.setFrame f
            { fr with
              timestamp := ⟨BitVec.ofNat 64 (s.hostNow.toNat / 1000000), BitVec.ofNat 32 (s.hostNow.toNat % 1000000)⟩
              direction := .tx }).answer 0x5000 [])) ∧
        (s.params.txqCap < s.txq.length + L.length →
          exec (.serFrame f) s = .next ({ s with
            counters := { s.counters with txDropped := s.counters.txDropped + 1 } }.answer 0x5008 []))))

/-- 45_serializer.md R215 to R219: the configuration lines `S0` to `S9`, `Y2`, `Y4`, `Y5`, `Y8`, `O`, `C`. -/
def Obligations.SerializeConfiguration : Prop :=
  ∀ s : State,
    let appends : Instr → Nat → List Byte → Prop := fun i opc L =>
      (s.txq.length + L.length ≤ s.params.txqCap →
        exec i s = .next ({ s with txq := s.txq ++ L }.answer (statusNumber opc 0x00) [])) ∧
      (s.params.txqCap < s.txq.length + L.length →
        exec i s = .next ({ s with
          counters := { s.counters with txDropped := s.counters.txDropped + 1 } }.answer (statusNumber opc 0x08) []))
    (∀ n : BitVec 4, Carries (0x51000000 ||| fieldAt 8 n) [] (.serBitrate n) ∧
      (n.toNat ≤ 9 → appends (.serBitrate n) 0x51 [0x53, BitVec.ofNat 8 (0x30 + n.toNat), 0x0D]) ∧
      (9 < n.toNat → exec (.serBitrate n) s = .next (s.answer 0x5101 []))) ∧
    (∀ n : BitVec 4, Carries (0x52000000 ||| fieldAt 8 n) [] (.serFdRate n) ∧
      (n = 2 ∨ n = 4 ∨ n = 5 ∨ n = 8 → appends (.serFdRate n) 0x52 [0x59, BitVec.ofNat 8 (0x30 + n.toNat), 0x0D]) ∧
      (¬ (n = 2 ∨ n = 4 ∨ n = 5 ∨ n = 8) → exec (.serFdRate n) s = .next (s.answer 0x5201 []))) ∧
    Carries 0x53000000 [] .serOpenCh ∧ appends .serOpenCh 0x53 [0x4F, 0x0D] ∧
    Carries 0x54000000 [] .serCloseCh ∧ appends .serCloseCh 0x54 [0x43, 0x0D]

/-- 45_serializer.md R220 and 20_memory.md R64: `TX.POP` answers the byte at the front or "empty"; repeated, it gives the bytes
in the order they entered. -/
def Obligations.TransmitQueueIsFirstInFirstOut : Prop :=
  decode .txRequest = .instr .txPop ∧
  (∀ s : State, s.txq = [] → exec .txPop s = .next { s with outputs := s.outputs ++ [.txEmpty] }) ∧
  (∀ (v : Byte) (rest : List Byte) (s : State), s.txq = v :: rest →
    exec .txPop s = .next { s with txq := rest, outputs := s.outputs ++ [.txByte v] }) ∧
  ∀ (l rest : List Byte) (s : State), s.txq = l ++ rest →
    execAll (List.replicate l.length .txPop) s =
      .next { s with txq := rest, outputs := s.outputs ++ l.map .txByte }

/-! ### Deserializer -/

/-- 46_deserializer.md R241: a push stores one byte at `ringHead`, or, when head would catch tail, discards the ring and
itself. -/
def Obligations.ReceivePush : Prop :=
  ∀ (d : Byte) (s : State), Inv s →
    decode (.rxByte d) = .instr (.rxPush d) ∧
    ((s.ringHead + 1) % s.params.ringCap = s.ringTail ↔ (ringBytes s).length + 1 = s.params.ringCap) ∧
    ((s.ringHead + 1) % s.params.ringCap = s.ringTail →
      exec (.rxPush d) s = .next { s with
        ringHead := 0
        ringTail := 0
        counters := { s.counters with rxOverruns := s.counters.rxOverruns + 1 } }) ∧
    ((s.ringHead + 1) % s.params.ringCap ≠ s.ringTail →
      ∃ m : Memory,
        let t : State := { s with ring := m, ringHead := (s.ringHead + 1) % s.params.ringCap }
        exec (.rxPush d) s = .next t ∧ ringBytes t = ringBytes s ++ [d] ∧ m.read s.ringHead = d ∧
          ∀ k, k ≠ s.ringHead → m.read k = s.ring.read k)

/-- 46_deserializer.md R231 to R235 and R245: the parser accepts exactly the lines the rules describe, with the meaning they
give them. -/
def Obligations.ParserAcceptsExactlyTheLines : Prop :=
  (∀ (L : List Byte) (p : ParsedFrame), parseLine L = some p ↔ LineMeans L p) ∧ parseLine [] = none

/-- 46_deserializer.md R236, R238, R243: `DES.POLL` moves the bytes up to the first CR from the ring to the line buffer and
parses the line; without a CR it drains the ring. -/
def Obligations.DeserializePoll : Prop :=
  ∀ (f : FrameReg) (s : State), Inv s →
    Carries (0x60000000 ||| fieldF f) [] (.desPoll f) ∧
    (0x0D ∉ ringBytes s →
      ∃ (m : Memory) (n : Nat),
        let t : State := { s with
          ringTail := s.ringHead
          line := m
          lineLen := n
          counters := { s.counters with
            rxOverruns := s.counters.rxOverruns + BitVec.ofNat 32 (lineOverflows s (ringBytes s)) } }
        exec (.desPoll f) s = .next (t.answer 0x6009 []) ∧ lineBytes t = lineLeft s (ringBytes s) ∧
          ∀ k, (∀ j, j < (ringBytes s).length → k ≠ (s.lineLen + j) % s.params.lineCap) → m.read k = s.line.read k) ∧
    ∀ pre post, ringBytes s = pre ++ 0x0D :: post → 0x0D ∉ pre →
      ∃ (m : Memory) (tail : Nat),
        let t : State := { s with
          ringTail := tail
          line := m
          lineLen := 0
          counters := { s.counters with
            rxOverruns := s.counters.rxOverruns + BitVec.ofNat 32 (lineOverflows s pre) } }
        ringBytes t = post ∧ tail < s.params.ringCap ∧
        (∀ k, (∀ j, j < pre.length → k ≠ (s.lineLen + j) % s.params.lineCap) → m.read k = s.line.read k) ∧
        ((∀ p, ¬ LineMeans (lineLeft s pre) p) →
          exec (.desPoll f) s = .next ({ t with
            counters := { t.counters with rxErrors := s.counters.rxErrors + 1 } }.answer 0x600A [])) ∧
        ∀ p, LineMeans (lineLeft s pre) p →
          ∃ fr : Frame,
            exec (.desPoll f) s = .next (({ t with
              counters := { t.counters with rxCount := s.counters.rxCount + 1 } }.setFrame f fr).answer 0x6000 []) ∧
            fr.rawId.toNat = p.cls.ext.toNat * 2 ^ 31 + p.cls.rtr.toNat * 2 ^ 30 + p.id ∧
            fr.isFD = p.cls.fd ∧ fr.isBRS = p.cls.brs ∧ fr.length.toNat = p.n ∧
            (∀ k, fr.data.read k = (p.bytes[k]?).getD ((s.frame f).data.read k)) ∧
            fr.timestamp = ⟨BitVec.ofNat 64 (s.hostNow.toNat / 1000000), BitVec.ofNat 32 (s.hostNow.toNat % 1000000)⟩ ∧
            fr.interfaceId = s.ifId ∧ fr.direction = .rx

/-- 46_deserializer.md R237: the numbers of bytes waiting. A number that does not fit a word is a free value (log entry 9). -/
def Obligations.DeserializerLevel : Prop :=
  Carries 0x61000000 [] .desLevel ∧
  ∀ s : State, Inv s → ∃ a b c : Word, exec .desLevel s = .next (s.answer 0x6100 [a, b, c]) ∧
    ((ringBytes s).length < 2 ^ 32 → a.toNat = (ringBytes s).length) ∧
    (s.lineLen < 2 ^ 32 → b.toNat = s.lineLen) ∧
    (s.txq.length < 2 ^ 32 → c.toNat = s.txq.length)

/-! ### Across the serializer and the deserializer -/

/-- 46_deserializer.md R247: what the serializer writes, the parser reads back. -/
def Obligations.SerializedLineParsesBack : Prop :=
  ∀ (fr : Frame) (l : List Byte), encodeLine fr = .ok l →
    ∃ L, l = L ++ [0x0D] ∧ 0x0D ∉ L ∧ l.length ≤ 139 ∧
      parseLine L = some
        { cls := lineClassOf fr
          id := idNumber fr
          n := fr.length.toNat
          bytes := if fr.rawId.getLsbD 30 = true then [] else (List.range fr.length.toNat).map fr.data.read }

/-- A frame goes out of one frame register and comes back into a frame register: the line is queued, popped byte by byte,
pushed byte by byte, and polled. Between an empty queue and an empty receive side nothing is lost or changed. -/
def Obligations.FrameSurvivesTheLoop : Prop :=
  ∀ (f g : FrameReg) (s : State) (L : List Byte), Inv s → LineOf (s.frame f) L →
    (s.frame f).rawId.getLsbD 29 = false → ¬ ((s.frame f).isFD = true ∧ (s.frame f).rawId.getLsbD 30 = true) →
    (s.frame f).length.toNat ∈ legalLengths (s.frame f).isFD →
    s.txq = [] → ringBytes s = [] → s.lineLen = 0 → L.length < s.params.ringCap →
    ∃ t, execAll (.serFrame f :: List.replicate L.length .txPop ++ L.map .rxPush ++ [.desPoll g]) s = .next t ∧
      t.outputs = s.outputs ++ .response 0x5000 [] :: L.map .txByte ++ [.response 0x6000 []] ∧
      t.txq = [] ∧ ringBytes t = [] ∧ t.lineLen = 0 ∧
      (t.frame g).rawId.getLsbD 31 = (s.frame f).rawId.getLsbD 31 ∧
      (t.frame g).rawId.getLsbD 30 = (s.frame f).rawId.getLsbD 30 ∧
      idNumber (t.frame g) = idNumber (s.frame f) ∧
      (t.frame g).length = (s.frame f).length ∧ (t.frame g).isFD = (s.frame f).isFD ∧
      (t.frame g).isBRS = ((s.frame f).isFD && (s.frame f).isBRS) ∧
      ((s.frame f).rawId.getLsbD 30 = false → ∀ i, i < (s.frame f).length.toNat →
        (t.frame g).data.read i = (s.frame f).data.read i)

/-! ### Pseudo-instructions and helper functions -/

/-- 30_encoding.md R106: the four fixed expansions. -/
def Obligations.PseudoInstructionsExpand : Prop :=
  (∀ (f : FrameReg) (vs : List Byte) (k : Nat) (v : Byte), vs[k]? = some v →
    (pseudoSetData f vs)[k]? = some (.frmSetByte f (BitVec.ofNat 8 k) v)) ∧
  (∀ (f : FrameReg) (vs : List Byte), (pseudoSetData f vs).length = vs.length) ∧
  (∀ text : List Byte, pseudoPushString text = text.map .rxPush) ∧
  ∀ (f : FrameReg) (id : Word) (s : State),
    execAll (pseudoSetStd f id) s = .next ((s.setFrame f
      { s.frame f with rawId := BitVec.ofNat 32 (id.toNat % 2 ^ 11) }).answer 0x1100 []) ∧
    execAll (pseudoSetExt f id) s = .next ((s.setFrame f
      { s.frame f with rawId := BitVec.ofNat 32 (2 ^ 31 + id.toNat % 2 ^ 29) }).answer 0x1100 [])

/-- The effect of `FRM.SETDATA` (30_encoding.md R106 with 40_frame_model.md R129): the first bytes are the ones given, and
nothing else of the block changes. -/
def Obligations.SetDataWritesTheBytes : Prop :=
  ∀ (f : FrameReg) (vs : List Byte) (s : State), vs.length ≤ 64 → (s.frame f).data.wf = true →
    ∃ m : Memory,
      execAll (pseudoSetData f vs) s = .next { s.setFrame f { s.frame f with data := m } with
        outputs := s.outputs ++ vs.map fun _ => .response 0x1900 [] } ∧
      m.wf = true ∧ ∀ j, m.read j = (vs[j]?).getD ((s.frame f).data.read j)

/-- 00_scope.md R10: `hexval`, `hexchar`, `split_us`. -/
def Obligations.HelperFunctions : Prop :=
  (∀ (c : Byte) (h : Nat), hexVal c = some h ↔
    (0x30 ≤ c.toNat ∧ c.toNat ≤ 0x39 ∧ h = c.toNat - 0x30) ∨ (0x41 ≤ c.toNat ∧ c.toNat ≤ 0x46 ∧ h = c.toNat - 0x41 + 10) ∨
      (0x61 ≤ c.toNat ∧ c.toNat ≤ 0x66 ∧ h = c.toNat - 0x61 + 10)) ∧
  (∀ n, n ≤ 15 → hexChar n = upperDigits.getD n 0 ∧ hexVal (hexChar n) = some n) ∧
  ∀ t : DWord, (splitMicros t).seconds.toNat = t.toNat / 1000000 ∧
    (splitMicros t).microseconds.toNat = t.toNat % 1000000
end

