-- ==== Sys2Proof/Laws/Memory.lean ====
section
/-! SUPPORT. Laws of the byte index spaces: read after write, the canonical form is kept, and equal contents are equal data. -/

namespace Sys2Proof.Machine

variable {m : Memory} {i j n : Nat} {v : Byte}

@[simp] theorem read_nil (i : Nat) : Memory.read [] i = Memory.blank := rfl

theorem read_cons (k : Nat) (w : Byte) (rest : Memory) (i : Nat) :
    Memory.read ((k, w) :: rest) i = if k = i then w else Memory.read rest i := rfl

theorem wf_cons {k : Nat} {w : Byte} {rest : Memory} :
    Memory.wf ((k, w) :: rest) = true ↔
      w ≠ Memory.blank ∧ (∀ c ∈ rest, k < c.1) ∧ Memory.wf rest = true := by
  simp [Memory.wf, and_assoc]

theorem below_iff : m.below n = true ↔ ∀ c ∈ m, c.1 < n := by
  simp [Memory.below]

/-- An index below every listed one reads as nothing written. -/
theorem read_of_lt (h : ∀ c ∈ m, i < c.1) : m.read i = Memory.blank := by
  induction m with
  | nil => rfl
  | cons c rest ih =>
    obtain ⟨k, w⟩ := c
    have hk := h (k, w) (by simp)
    rw [read_cons, if_neg (by simp at hk; omega)]
    exact ih fun c hc => h c (by simp [hc])

/-- An index a bounded space does not list reads as nothing written. -/
theorem read_of_below (h : m.below n = true) (hi : n ≤ i) : m.read i = Memory.blank := by
  rw [below_iff] at h
  induction m with
  | nil => rfl
  | cons c rest ih =>
    obtain ⟨k, w⟩ := c
    have hk := h (k, w) (by simp)
    rw [read_cons, if_neg (by simp at hk; omega)]
    exact ih fun c hc => h c (by simp [hc])

/-- Every index a write lists was listed before or is the one written. -/
theorem mem_write {c : Host.Cell} (h : c ∈ m.write i v) : c ∈ m ∨ c.1 = i := by
  induction m with
  | nil =>
    unfold Memory.write at h
    split at h <;> simp_all
  | cons d rest ih =>
    obtain ⟨k, w⟩ := d
    unfold Memory.write at h
    split at h
    · rcases List.mem_cons.1 h with rfl | h
      · simp
      · rcases ih h with h | h <;> simp [h]
    · split at h <;> split at h <;> simp only [List.mem_cons] at h ⊢ <;> aesop

theorem write_wf (h : m.wf = true) : (m.write i v).wf = true := by
  induction m with
  | nil => by_cases hv : v = Memory.blank <;> simp [Memory.write, Memory.wf, hv]
  | cons d rest ih =>
    obtain ⟨k, w⟩ := d
    rw [wf_cons] at h
    obtain ⟨hw, hk, hr⟩ := h
    unfold Memory.write
    split
    · rw [wf_cons]
      refine ⟨hw, fun c hc => ?_, ih hr⟩
      rcases mem_write hc with hc | hc
      · exact hk c hc
      · omega
    · split
      · next hki =>
        subst hki
        split
        · exact hr
        · exact wf_cons.2 ⟨‹_›, hk, hr⟩
      · split
        · exact wf_cons.2 ⟨hw, hk, hr⟩
        · rw [wf_cons, wf_cons]
          refine ⟨‹_›, fun c hc => ?_, hw, hk, hr⟩
          rcases List.mem_cons.1 hc with rfl | hc
          · simp; omega
          · have := hk c hc
            omega

theorem write_below (h : m.below n = true) (hi : i < n) : (m.write i v).below n = true := by
  rw [below_iff] at h ⊢
  intro c hc
  rcases mem_write hc with hc | hc
  · exact h c hc
  · omega

/-- Read after write. -/
theorem read_write (h : m.wf = true) (i j : Nat) (v : Byte) :
    (m.write i v).read j = if i = j then v else m.read j := by
  induction m with
  | nil =>
    by_cases hv : v = Memory.blank
    · simp [Memory.write, hv]
    · simp [Memory.write, hv, read_cons]
  | cons d rest ih =>
    obtain ⟨k, w⟩ := d
    obtain ⟨hw, hk, hr⟩ := wf_cons.1 h
    have hlow : ∀ q, q ≤ k → Memory.read rest q = Memory.blank := fun q hq =>
      read_of_lt fun c hc => by have := hk c hc; omega
    unfold Memory.write
    split
    · rw [read_cons, read_cons, ih hr]
      split <;> split <;> first | rfl | omega
    · split
      · next hki =>
        subst hki
        split
        · next hv =>
          rw [read_cons]
          split
          · next hj => subst hj; rw [hlow _ (Nat.le_refl _), hv]
          · rfl
        · rw [read_cons, read_cons]
          split <;> rfl
      · split
        · next hv =>
          split
          · next hj => rw [← hj, read_cons, if_neg (by omega), hlow _ (by omega), hv]
          · rfl
        · rw [read_cons]

theorem read_write_same (h : m.wf = true) : (m.write i v).read i = v := by
  rw [read_write h, if_pos rfl]

theorem read_write_other (h : m.wf = true) (hij : i ≠ j) : (m.write i v).read j = m.read j := by
  rw [read_write h, if_neg hij]

theorem writeBytes_wf {bs : List Byte} (h : m.wf = true) : (m.writeBytes i bs).wf = true := by
  induction bs generalizing m i with
  | nil => exact h
  | cons b bs ih => exact ih (write_wf h)

theorem writeBytes_below {bs : List Byte} (h : m.below n = true) (hi : i + bs.length ≤ n) :
    (m.writeBytes i bs).below n = true := by
  induction bs generalizing m i with
  | nil => exact h
  | cons b bs ih =>
    simp only [List.length_cons] at hi
    exact ih (write_below h (by omega)) (by omega)

/-- What consecutive writes leave: the bytes written, and everything else as before. -/
theorem read_writeBytes {bs : List Byte} (h : m.wf = true) (i j : Nat) :
    (m.writeBytes i bs).read j = if i ≤ j ∧ j < i + bs.length then bs.getD (j - i) 0 else m.read j := by
  induction bs generalizing m i with
  | nil =>
    rw [if_neg (by rw [List.length_nil]; omega)]
    rfl
  | cons b bs ih =>
    rw [Memory.writeBytes, ih (write_wf h), read_write h]
    simp only [List.length_cons]
    by_cases h1 : i = j
    · subst h1
      rw [if_neg (by omega), if_pos rfl, if_pos (by omega)]
      simp
    · by_cases h2 : i + 1 ≤ j ∧ j < i + 1 + bs.length
      · rw [if_pos h2, if_pos (by omega), show j - i = (j - (i + 1)) + 1 by omega]
        simp
      · rw [if_neg h2, if_neg h1, if_neg (by omega)]

/-- Equal contents in canonical form are equal data. -/
theorem memory_ext {m m' : Memory} (h : m.wf = true) (h' : m'.wf = true) (heq : ∀ i, m.read i = m'.read i) : m = m' := by
  induction m generalizing m' with
  | nil =>
    cases m' with
    | nil => rfl
    | cons c rest =>
      obtain ⟨k, w⟩ := c
      have := heq k
      rw [read_cons, if_pos rfl] at this
      exact absurd this.symm (wf_cons.1 h').1
  | cons c rest ih =>
    obtain ⟨k, w⟩ := c
    obtain ⟨hw, hk, hr⟩ := wf_cons.1 h
    cases m' with
    | nil =>
      have := heq k
      rw [read_cons, if_pos rfl] at this
      exact absurd this hw
    | cons c' rest' =>
      obtain ⟨k', w'⟩ := c'
      obtain ⟨hw', hk', hr'⟩ := wf_cons.1 h'
      have e1 := heq k
      have e2 := heq k'
      rw [read_cons, if_pos rfl, read_cons] at e1
      rw [read_cons, read_cons _ w', if_pos rfl] at e2
      have hkk : k = k' := by
        rcases Nat.lt_trichotomy k k' with hlt | heq' | hgt
        · rw [if_neg (by omega), read_of_lt fun c hc => by have := hk' c hc; omega] at e1
          exact absurd e1 hw
        · exact heq'
        · rw [if_neg (by omega), read_of_lt fun c hc => by have := hk c hc; omega] at e2
          exact absurd e2.symm hw'
      subst hkk
      rw [if_pos rfl] at e1
      subst e1
      congr 1
      refine ih hr hr' fun i => ?_
      by_cases hi : k = i
      · subst hi
        rw [read_of_lt hk, read_of_lt hk']
      · have := heq i
        rwa [read_cons, read_cons, if_neg hi, if_neg hi] at this

end Sys2Proof.Machine
end

