-- ==== Sys2Proof/Laws/State.lean ====
section
/-! SUPPORT. One lemma per field per update of State, true by rfl, so that no proof unfolds a record update. -/

namespace Sys2Proof.Machine

/-! ### `emit` -/

@[simp] theorem emit_f0 (s : State) (o : Output) : (s.emit o).f0 = s.f0 := rfl
@[simp] theorem emit_f1 (s : State) (o : Output) : (s.emit o).f1 = s.f1 := rfl
@[simp] theorem emit_cfg (s : State) (o : Output) : (s.emit o).cfg = s.cfg := rfl
@[simp] theorem emit_ifState (s : State) (o : Output) : (s.emit o).ifState = s.ifState := rfl
@[simp] theorem emit_mode (s : State) (o : Output) : (s.emit o).mode = s.mode := rfl
@[simp] theorem emit_ifId (s : State) (o : Output) : (s.emit o).ifId = s.ifId := rfl
@[simp] theorem emit_counters (s : State) (o : Output) : (s.emit o).counters = s.counters := rfl
@[simp] theorem emit_hostOff (s : State) (o : Output) : (s.emit o).hostOff = s.hostOff := rfl
@[simp] theorem emit_devT0 (s : State) (o : Output) : (s.emit o).devT0 = s.devT0 := rfl
@[simp] theorem emit_ring (s : State) (o : Output) : (s.emit o).ring = s.ring := rfl
@[simp] theorem emit_ringHead (s : State) (o : Output) : (s.emit o).ringHead = s.ringHead := rfl
@[simp] theorem emit_ringTail (s : State) (o : Output) : (s.emit o).ringTail = s.ringTail := rfl
@[simp] theorem emit_line (s : State) (o : Output) : (s.emit o).line = s.line := rfl
@[simp] theorem emit_lineLen (s : State) (o : Output) : (s.emit o).lineLen = s.lineLen := rfl
@[simp] theorem emit_txq (s : State) (o : Output) : (s.emit o).txq = s.txq := rfl
@[simp] theorem emit_params (s : State) (o : Output) : (s.emit o).params = s.params := rfl
@[simp] theorem emit_hostNow (s : State) (o : Output) : (s.emit o).hostNow = s.hostNow := rfl
@[simp] theorem emit_inputs (s : State) (o : Output) : (s.emit o).inputs = s.inputs := rfl
@[simp] theorem emit_outputs (s : State) (o : Output) : (s.emit o).outputs = s.outputs ++ [o] := rfl

@[simp] theorem emit_frame (s : State) (o : Output) (f : FrameReg) : (s.emit o).frame f = s.frame f := rfl
@[simp] theorem emit_catalog (s : State) (o : Output) (t : Table) : (s.emit o).catalog t = s.catalog t := rfl

/-! ### `bump` -/

@[simp] theorem bump_f0 (s : State) (c : CounterId) : (s.bump c).f0 = s.f0 := rfl
@[simp] theorem bump_f1 (s : State) (c : CounterId) : (s.bump c).f1 = s.f1 := rfl
@[simp] theorem bump_cfg (s : State) (c : CounterId) : (s.bump c).cfg = s.cfg := rfl
@[simp] theorem bump_ifState (s : State) (c : CounterId) : (s.bump c).ifState = s.ifState := rfl
@[simp] theorem bump_mode (s : State) (c : CounterId) : (s.bump c).mode = s.mode := rfl
@[simp] theorem bump_ifId (s : State) (c : CounterId) : (s.bump c).ifId = s.ifId := rfl
@[simp] theorem bump_counters (s : State) (c : CounterId) : (s.bump c).counters = s.counters.bump c := rfl
@[simp] theorem bump_hostOff (s : State) (c : CounterId) : (s.bump c).hostOff = s.hostOff := rfl
@[simp] theorem bump_devT0 (s : State) (c : CounterId) : (s.bump c).devT0 = s.devT0 := rfl
@[simp] theorem bump_ring (s : State) (c : CounterId) : (s.bump c).ring = s.ring := rfl
@[simp] theorem bump_ringHead (s : State) (c : CounterId) : (s.bump c).ringHead = s.ringHead := rfl
@[simp] theorem bump_ringTail (s : State) (c : CounterId) : (s.bump c).ringTail = s.ringTail := rfl
@[simp] theorem bump_line (s : State) (c : CounterId) : (s.bump c).line = s.line := rfl
@[simp] theorem bump_lineLen (s : State) (c : CounterId) : (s.bump c).lineLen = s.lineLen := rfl
@[simp] theorem bump_txq (s : State) (c : CounterId) : (s.bump c).txq = s.txq := rfl
@[simp] theorem bump_params (s : State) (c : CounterId) : (s.bump c).params = s.params := rfl
@[simp] theorem bump_hostNow (s : State) (c : CounterId) : (s.bump c).hostNow = s.hostNow := rfl
@[simp] theorem bump_inputs (s : State) (c : CounterId) : (s.bump c).inputs = s.inputs := rfl
@[simp] theorem bump_outputs (s : State) (c : CounterId) : (s.bump c).outputs = s.outputs := rfl

@[simp] theorem bump_frame (s : State) (c : CounterId) (f : FrameReg) : (s.bump c).frame f = s.frame f := rfl

/-! ### `setFrame` -/

@[simp] theorem setFrame_cfg (s : State) (f : FrameReg) (fr : Frame) : (s.setFrame f fr).cfg = s.cfg := rfl
@[simp] theorem setFrame_ifState (s : State) (f : FrameReg) (fr : Frame) : (s.setFrame f fr).ifState = s.ifState := rfl
@[simp] theorem setFrame_mode (s : State) (f : FrameReg) (fr : Frame) : (s.setFrame f fr).mode = s.mode := rfl
@[simp] theorem setFrame_ifId (s : State) (f : FrameReg) (fr : Frame) : (s.setFrame f fr).ifId = s.ifId := rfl
@[simp] theorem setFrame_counters (s : State) (f : FrameReg) (fr : Frame) : (s.setFrame f fr).counters = s.counters := rfl
@[simp] theorem setFrame_hostOff (s : State) (f : FrameReg) (fr : Frame) : (s.setFrame f fr).hostOff = s.hostOff := rfl
@[simp] theorem setFrame_devT0 (s : State) (f : FrameReg) (fr : Frame) : (s.setFrame f fr).devT0 = s.devT0 := rfl
@[simp] theorem setFrame_ring (s : State) (f : FrameReg) (fr : Frame) : (s.setFrame f fr).ring = s.ring := rfl
@[simp] theorem setFrame_ringHead (s : State) (f : FrameReg) (fr : Frame) : (s.setFrame f fr).ringHead = s.ringHead := rfl
@[simp] theorem setFrame_ringTail (s : State) (f : FrameReg) (fr : Frame) : (s.setFrame f fr).ringTail = s.ringTail := rfl
@[simp] theorem setFrame_line (s : State) (f : FrameReg) (fr : Frame) : (s.setFrame f fr).line = s.line := rfl
@[simp] theorem setFrame_lineLen (s : State) (f : FrameReg) (fr : Frame) : (s.setFrame f fr).lineLen = s.lineLen := rfl
@[simp] theorem setFrame_txq (s : State) (f : FrameReg) (fr : Frame) : (s.setFrame f fr).txq = s.txq := rfl
@[simp] theorem setFrame_params (s : State) (f : FrameReg) (fr : Frame) : (s.setFrame f fr).params = s.params := rfl
@[simp] theorem setFrame_hostNow (s : State) (f : FrameReg) (fr : Frame) : (s.setFrame f fr).hostNow = s.hostNow := rfl
@[simp] theorem setFrame_inputs (s : State) (f : FrameReg) (fr : Frame) : (s.setFrame f fr).inputs = s.inputs := rfl
@[simp] theorem setFrame_outputs (s : State) (f : FrameReg) (fr : Frame) : (s.setFrame f fr).outputs = s.outputs := rfl

@[simp] theorem frame_setFrame_same (s : State) (f : FrameReg) (fr : Frame) : (s.setFrame f fr).frame f = fr := by
  cases f <;> rfl

theorem frame_setFrame_other (s : State) (f g : FrameReg) (fr : Frame) (h : f ≠ g) :
    (s.setFrame f fr).frame g = s.frame g := by
  cases f <;> cases g <;> first | rfl | exact absurd rfl h

theorem frame_setFrame (s : State) (f g : FrameReg) (fr : Frame) :
    (s.setFrame f fr).frame g = if f = g then fr else s.frame g := by
  cases f <;> cases g <;> rfl

@[simp] theorem setFrame_frame (s : State) (f : FrameReg) : s.setFrame f (s.frame f) = s := by
  cases f <;> rfl

@[simp] theorem setFrame_setFrame (s : State) (f : FrameReg) (x y : Frame) :
    (s.setFrame f x).setFrame f y = s.setFrame f y := by
  cases f <;> rfl

/-! ### `enqueue` -/

@[simp] theorem enqueue_f0 (s : State) (l : List Byte) : (enqueue l s).f0 = s.f0 := rfl
@[simp] theorem enqueue_f1 (s : State) (l : List Byte) : (enqueue l s).f1 = s.f1 := rfl
@[simp] theorem enqueue_cfg (s : State) (l : List Byte) : (enqueue l s).cfg = s.cfg := rfl
@[simp] theorem enqueue_ifState (s : State) (l : List Byte) : (enqueue l s).ifState = s.ifState := rfl
@[simp] theorem enqueue_mode (s : State) (l : List Byte) : (enqueue l s).mode = s.mode := rfl
@[simp] theorem enqueue_ifId (s : State) (l : List Byte) : (enqueue l s).ifId = s.ifId := rfl
@[simp] theorem enqueue_counters (s : State) (l : List Byte) : (enqueue l s).counters = s.counters := rfl
@[simp] theorem enqueue_hostOff (s : State) (l : List Byte) : (enqueue l s).hostOff = s.hostOff := rfl
@[simp] theorem enqueue_devT0 (s : State) (l : List Byte) : (enqueue l s).devT0 = s.devT0 := rfl
@[simp] theorem enqueue_ring (s : State) (l : List Byte) : (enqueue l s).ring = s.ring := rfl
@[simp] theorem enqueue_ringHead (s : State) (l : List Byte) : (enqueue l s).ringHead = s.ringHead := rfl
@[simp] theorem enqueue_ringTail (s : State) (l : List Byte) : (enqueue l s).ringTail = s.ringTail := rfl
@[simp] theorem enqueue_line (s : State) (l : List Byte) : (enqueue l s).line = s.line := rfl
@[simp] theorem enqueue_lineLen (s : State) (l : List Byte) : (enqueue l s).lineLen = s.lineLen := rfl
@[simp] theorem enqueue_txq (s : State) (l : List Byte) : (enqueue l s).txq = s.txq ++ l := rfl
@[simp] theorem enqueue_params (s : State) (l : List Byte) : (enqueue l s).params = s.params := rfl
@[simp] theorem enqueue_hostNow (s : State) (l : List Byte) : (enqueue l s).hostNow = s.hostNow := rfl
@[simp] theorem enqueue_inputs (s : State) (l : List Byte) : (enqueue l s).inputs = s.inputs := rfl
@[simp] theorem enqueue_outputs (s : State) (l : List Byte) : (enqueue l s).outputs = s.outputs := rfl

@[simp] theorem enqueue_frame (s : State) (l : List Byte) (f : FrameReg) : (enqueue l s).frame f = s.frame f := rfl

/-! ### `ringDrop` -/

@[simp] theorem ringDrop_f0 (s : State) : (ringDrop s).f0 = s.f0 := rfl
@[simp] theorem ringDrop_f1 (s : State) : (ringDrop s).f1 = s.f1 := rfl
@[simp] theorem ringDrop_cfg (s : State) : (ringDrop s).cfg = s.cfg := rfl
@[simp] theorem ringDrop_ifState (s : State) : (ringDrop s).ifState = s.ifState := rfl
@[simp] theorem ringDrop_mode (s : State) : (ringDrop s).mode = s.mode := rfl
@[simp] theorem ringDrop_ifId (s : State) : (ringDrop s).ifId = s.ifId := rfl
@[simp] theorem ringDrop_counters (s : State) : (ringDrop s).counters = s.counters := rfl
@[simp] theorem ringDrop_hostOff (s : State) : (ringDrop s).hostOff = s.hostOff := rfl
@[simp] theorem ringDrop_devT0 (s : State) : (ringDrop s).devT0 = s.devT0 := rfl
@[simp] theorem ringDrop_ring (s : State) : (ringDrop s).ring = s.ring := rfl
@[simp] theorem ringDrop_ringHead (s : State) : (ringDrop s).ringHead = s.ringHead := rfl
@[simp] theorem ringDrop_ringTail (s : State) : (ringDrop s).ringTail = ringNext s s.ringTail := rfl
@[simp] theorem ringDrop_line (s : State) : (ringDrop s).line = s.line := rfl
@[simp] theorem ringDrop_lineLen (s : State) : (ringDrop s).lineLen = s.lineLen := rfl
@[simp] theorem ringDrop_txq (s : State) : (ringDrop s).txq = s.txq := rfl
@[simp] theorem ringDrop_params (s : State) : (ringDrop s).params = s.params := rfl
@[simp] theorem ringDrop_hostNow (s : State) : (ringDrop s).hostNow = s.hostNow := rfl
@[simp] theorem ringDrop_inputs (s : State) : (ringDrop s).inputs = s.inputs := rfl
@[simp] theorem ringDrop_outputs (s : State) : (ringDrop s).outputs = s.outputs := rfl

/-! ### `popInput` -/

@[simp] theorem popInput_f0 (s : State) (rest : List Input) : (popInput s rest).f0 = s.f0 := rfl
@[simp] theorem popInput_f1 (s : State) (rest : List Input) : (popInput s rest).f1 = s.f1 := rfl
@[simp] theorem popInput_cfg (s : State) (rest : List Input) : (popInput s rest).cfg = s.cfg := rfl
@[simp] theorem popInput_ifState (s : State) (rest : List Input) : (popInput s rest).ifState = s.ifState := rfl
@[simp] theorem popInput_mode (s : State) (rest : List Input) : (popInput s rest).mode = s.mode := rfl
@[simp] theorem popInput_ifId (s : State) (rest : List Input) : (popInput s rest).ifId = s.ifId := rfl
@[simp] theorem popInput_counters (s : State) (rest : List Input) : (popInput s rest).counters = s.counters := rfl
@[simp] theorem popInput_hostOff (s : State) (rest : List Input) : (popInput s rest).hostOff = s.hostOff := rfl
@[simp] theorem popInput_devT0 (s : State) (rest : List Input) : (popInput s rest).devT0 = s.devT0 := rfl
@[simp] theorem popInput_ring (s : State) (rest : List Input) : (popInput s rest).ring = s.ring := rfl
@[simp] theorem popInput_ringHead (s : State) (rest : List Input) : (popInput s rest).ringHead = s.ringHead := rfl
@[simp] theorem popInput_ringTail (s : State) (rest : List Input) : (popInput s rest).ringTail = s.ringTail := rfl
@[simp] theorem popInput_line (s : State) (rest : List Input) : (popInput s rest).line = s.line := rfl
@[simp] theorem popInput_lineLen (s : State) (rest : List Input) : (popInput s rest).lineLen = s.lineLen := rfl
@[simp] theorem popInput_txq (s : State) (rest : List Input) : (popInput s rest).txq = s.txq := rfl
@[simp] theorem popInput_params (s : State) (rest : List Input) : (popInput s rest).params = s.params := rfl
@[simp] theorem popInput_hostNow (s : State) (rest : List Input) : (popInput s rest).hostNow = s.hostNow := rfl
@[simp] theorem popInput_inputs (s : State) (rest : List Input) : (popInput s rest).inputs = rest := rfl
@[simp] theorem popInput_outputs (s : State) (rest : List Input) : (popInput s rest).outputs = s.outputs := rfl

/-! ### `takeInput` -/

@[simp] theorem takeInput_f0 (s : State) (now : DWord) (rest : List Input) : (takeInput s now rest).f0 = s.f0 := rfl
@[simp] theorem takeInput_f1 (s : State) (now : DWord) (rest : List Input) : (takeInput s now rest).f1 = s.f1 := rfl
@[simp] theorem takeInput_cfg (s : State) (now : DWord) (rest : List Input) : (takeInput s now rest).cfg = s.cfg := rfl
@[simp] theorem takeInput_ifState (s : State) (now : DWord) (rest : List Input) : (takeInput s now rest).ifState = s.ifState := rfl
@[simp] theorem takeInput_mode (s : State) (now : DWord) (rest : List Input) : (takeInput s now rest).mode = s.mode := rfl
@[simp] theorem takeInput_ifId (s : State) (now : DWord) (rest : List Input) : (takeInput s now rest).ifId = s.ifId := rfl
@[simp] theorem takeInput_counters (s : State) (now : DWord) (rest : List Input) : (takeInput s now rest).counters = s.counters := rfl
@[simp] theorem takeInput_hostOff (s : State) (now : DWord) (rest : List Input) : (takeInput s now rest).hostOff = s.hostOff := rfl
@[simp] theorem takeInput_devT0 (s : State) (now : DWord) (rest : List Input) : (takeInput s now rest).devT0 = s.devT0 := rfl
@[simp] theorem takeInput_ring (s : State) (now : DWord) (rest : List Input) : (takeInput s now rest).ring = s.ring := rfl
@[simp] theorem takeInput_ringHead (s : State) (now : DWord) (rest : List Input) : (takeInput s now rest).ringHead = s.ringHead := rfl
@[simp] theorem takeInput_ringTail (s : State) (now : DWord) (rest : List Input) : (takeInput s now rest).ringTail = s.ringTail := rfl
@[simp] theorem takeInput_line (s : State) (now : DWord) (rest : List Input) : (takeInput s now rest).line = s.line := rfl
@[simp] theorem takeInput_lineLen (s : State) (now : DWord) (rest : List Input) : (takeInput s now rest).lineLen = s.lineLen := rfl
@[simp] theorem takeInput_txq (s : State) (now : DWord) (rest : List Input) : (takeInput s now rest).txq = s.txq := rfl
@[simp] theorem takeInput_params (s : State) (now : DWord) (rest : List Input) : (takeInput s now rest).params = s.params := rfl
@[simp] theorem takeInput_hostNow (s : State) (now : DWord) (rest : List Input) : (takeInput s now rest).hostNow = now := rfl
@[simp] theorem takeInput_inputs (s : State) (now : DWord) (rest : List Input) : (takeInput s now rest).inputs = rest := rfl
@[simp] theorem takeInput_outputs (s : State) (now : DWord) (rest : List Input) : (takeInput s now rest).outputs = s.outputs := rfl

/-! ### The views of State -/

theorem frame_f0 (s : State) : s.frame .f0 = s.f0 := rfl

theorem frame_f1 (s : State) : s.frame .f1 = s.f1 := rfl

theorem emit_eq_answer (s : State) (w : Word) (ws : List Word) : s.emit (.response w ws) = s.answer w ws := rfl

/-- Two states with equal fields are equal; the frame registers may be compared by selector. -/
theorem state_frames_ext {s t : State} (h : ∀ f, t.frame f = s.frame f)
    (hr : t = { s with f0 := t.f0, f1 := t.f1 }) : t = s := by
  have h0 := h .f0
  have h1 := h .f1
  simp only [frame_f0, frame_f1] at h0 h1
  rw [hr, h0, h1]

end Sys2Proof.Machine
end

