-- ==== Sys2Proof/Laws/Ops.lean ====
section
/-! SUPPORT. What each shared operation can do, said once: payload bytes, responses, the flag and word views. -/

namespace Sys2Proof.Machine

variable {fr : Frame} {i : Nat} {v : Byte}

/-! ### `FDATA` -/

theorem readByte_lt (h : i < 64) : fr.readByte i = fr.data.read i := if_pos h

theorem readByte_ge (h : 64 ≤ i) : fr.readByte i = 0 := if_neg (Nat.not_lt.2 h)

theorem writeByte_lt (h : i < 64) : fr.writeByte i v = { fr with data := fr.data.write i v } := if_pos h

theorem writeByte_ge (h : 64 ≤ i) : fr.writeByte i v = fr := if_neg (Nat.not_lt.2 h)

/-! ### Responses -/

theorem answerOk_eq (op : Opcode) (ws : List Word) (s : State) :
    answerOk op ws s = .next (s.answer (statusWord .ok op.code) ws) := rfl

theorem raise_eq (op : Opcode) (st : Status) (s : State) :
    raise op st s = .next (s.answer (statusWord st op.code) []) := rfl

/-- The status word as a number (30_encoding.md R95). -/
theorem statusWord_eq (st : Status) (c : Byte) : statusWord st c = statusNumber c.toNat st.code.toNat := by
  apply BitVec.eq_of_toNat_eq
  have h := st.code.isLt
  simp only [statusWord, statusNumber, BitVec.toNat_append, BitVec.toNat_ofNat, Nat.shiftLeft_eq]
  rw [Nat.mul_comm _ (2 ^ 8), ← Nat.two_pow_add_eq_or_of_lt (i := 8) h]
  simp
  omega

/-! ### Words and fields -/

/-- Two fields laid side by side as a number. -/
theorem toNat_append_lt {a b : Nat} (x : BitVec a) (y : BitVec b) : (x ++ y).toNat = x.toNat * 2 ^ b + y.toNat := by
  rw [BitVec.toNat_append, Nat.shiftLeft_eq, Nat.mul_comm, ← Nat.two_pow_add_eq_or_of_lt y.isLt]

theorem joinWords_toNat (lo hi : Word) : (joinWords lo hi).toNat = lo.toNat + hi.toNat * 2 ^ 32 := by
  rw [joinWords, toNat_append_lt, Nat.add_comm]

theorem lowWord_eq (x : DWord) : lowWord x = BitVec.ofNat 32 (x.toNat % 2 ^ 32) := by
  apply BitVec.eq_of_toNat_eq
  simp [lowWord]

theorem highWord_eq (x : DWord) : highWord x = BitVec.ofNat 32 (x.toNat / 2 ^ 32) := by
  apply BitVec.eq_of_toNat_eq
  simp [highWord, Nat.shiftRight_eq_div_pow]

theorem flags_eq (c : AdapterConfig) : c.flags = BitVec.ofNat 5 (flagNumber c) := by
  obtain ⟨_, _, _, _, a, b, c, d, e⟩ := c
  simp only [AdapterConfig.flags, flagNumber]
  cases a <;> cases b <;> cases c <;> cases d <;> cases e <;> decide

theorem countWord_small {n : Nat} (h : n < 2 ^ 32) : (countWord n).toNat = n := by
  rw [countWord, if_pos h, BitVec.toNat_ofNat, Nat.mod_eq_of_lt h]

/-- The identifier of 10_state.md R22 as a number. -/
theorem id_toNat (fr : Frame) : fr.id.toNat = idNumber fr := by
  have hx : ∀ w : Word, (w &&& 0x1FFFFFFF).toNat = w.toNat % 2 ^ 29 := fun w => by
    rw [BitVec.toNat_and]
    exact Nat.and_two_pow_sub_one_eq_mod _ 29
  have hs : ∀ w : Word, (w &&& 0x7FF).toNat = w.toNat % 2 ^ 11 := fun w => by
    rw [BitVec.toNat_and]
    exact Nat.and_two_pow_sub_one_eq_mod _ 11
  unfold Frame.id Frame.isExtended idNumber
  cases fr.rawId.getLsbD 31
  · exact hs _
  · exact hx _

/-! ### Catalog lookups -/

theorem entryWords_eq (e : TimingEntry) : entryWords e = entryImage e := by
  simp only [entryWords, entryImage, packHalves, List.cons.injEq, and_true, true_and]
  refine ⟨?_, ?_, ?_⟩ <;> apply BitVec.eq_of_toNat_eq
  · rw [toNat_append_lt, BitVec.toNat_ofNat]
    omega
  · rw [toNat_append_lt, BitVec.toNat_ofNat]
    omega
  · simp

theorem matchesKey_iff (e : TimingEntry) (clk rate sp : Word) :
    matchesKey e clk rate sp = true ↔ KeyMatches e clk rate sp := by
  have hs : e.samplePointPermille.setWidth 32 = sp ↔ e.samplePointPermille.toNat = sp.toNat := by
    rw [BitVec.toNat_eq, BitVec.toNat_setWidth, Nat.mod_eq_of_lt (by omega)]
  simp only [matchesKey, KeyMatches, Bool.and_eq_true, beq_iff_eq, and_assoc, hs]

theorem find_of_noMatch {l : List TimingEntry} {clk rate sp : Word} (h : NoMatch l clk rate sp) :
    l.find? (fun e => matchesKey e clk rate sp) = none := by
  rw [List.find?_eq_none]
  exact fun x hx hm => h x hx ((matchesKey_iff ..).1 hm)

theorem find_of_firstMatch {l : List TimingEntry} {clk rate sp : Word} {e : TimingEntry}
    (h : FirstMatch l clk rate sp e) : l.find? (fun e => matchesKey e clk rate sp) = some e := by
  obtain ⟨pre, post, rfl, hk, hn⟩ := h
  rw [List.find?_append, find_of_noMatch hn]
  simp [(matchesKey_iff ..).2 hk]

end Sys2Proof.Machine
end

