-- ==== Sys2Proof/Laws/Buffers.lean ====
section
/-! SUPPORT. The ring and the line buffer as lists of bytes, and everything the poll loop can do. -/

namespace Sys2Proof.Machine

variable {s : State} {f : FrameReg} {c : Byte}

/-! ### The ring -/

/-- Both indices of the ring are in range (10_state.md R40). -/
structure RingOk (s : State) : Prop where
  head_lt : s.ringHead < s.params.ringCap
  tail_lt : s.ringTail < s.params.ringCap

theorem Inv.ringOk (h : Inv s) : RingOk s := ⟨h.head_lt, h.tail_lt⟩

theorem ringNext_lt (h : RingOk s) (i : Nat) : ringNext s i < s.params.ringCap :=
  Nat.mod_lt _ (Nat.lt_of_le_of_lt (Nat.zero_le _) h.head_lt)

theorem ringNext_eq (i : Nat) (h : i < s.params.ringCap) :
    ringNext s i = if i + 1 = s.params.ringCap then 0 else i + 1 := by
  unfold ringNext
  split
  · next e => rw [e, Nat.mod_self]
  · exact Nat.mod_eq_of_lt (by omega)

theorem ringCount_eq (h : RingOk s) :
    ringCount s = if s.ringTail ≤ s.ringHead then s.ringHead - s.ringTail
      else s.ringHead + s.params.ringCap - s.ringTail := by
  have h1 := h.head_lt
  have h2 := h.tail_lt
  unfold ringCount
  split
  · rw [show s.ringHead + s.params.ringCap - s.ringTail = s.ringHead - s.ringTail + s.params.ringCap by omega,
      Nat.add_mod_right, Nat.mod_eq_of_lt (by omega)]
  · exact Nat.mod_eq_of_lt (by omega)

theorem ringCount_lt (h : RingOk s) : ringCount s < s.params.ringCap :=
  Nat.mod_lt _ (Nat.lt_of_le_of_lt (Nat.zero_le _) h.head_lt)

theorem ringCount_eq_zero (h : RingOk s) : ringCount s = 0 ↔ s.ringHead = s.ringTail := by
  have h1 := h.head_lt
  have h2 := h.tail_lt
  rw [ringCount_eq h]
  split <;> omega

theorem ringDrop_ok (h : RingOk s) : RingOk (ringDrop s) := ⟨h.head_lt, ringNext_lt h _⟩

theorem ringCount_drop (h : RingOk s) (hne : s.ringHead ≠ s.ringTail) : ringCount (ringDrop s) + 1 = ringCount s := by
  have h1 := h.head_lt
  have h2 := h.tail_lt
  rw [ringCount_eq h, ringCount_eq (ringDrop_ok h)]
  simp only [ringDrop_ringTail, ringDrop_ringHead, ringDrop_params, ringNext_eq _ h2]
  split <;> split <;> split <;> omega

@[simp] theorem ringBytes_length (s : State) : (ringBytes s).length = ringCount s := by simp [ringBytes]

theorem ringBytes_empty (h : RingOk s) (he : s.ringHead = s.ringTail) : ringBytes s = [] := by
  rw [← List.length_eq_zero_iff, ringBytes_length, ringCount_eq_zero h]
  exact he

theorem ringBytes_drop (h : RingOk s) (hne : s.ringHead ≠ s.ringTail) :
    ringBytes s = s.ring.read s.ringTail :: ringBytes (ringDrop s) := by
  have hc : ∀ k, (ringNext s s.ringTail + k) % s.params.ringCap = (s.ringTail + (k + 1)) % s.params.ringCap := fun k => by
    rw [ringNext, Nat.mod_add_mod]
    congr 1
    omega
  rw [ringBytes, ← ringCount_drop h hne, List.range_succ_eq_map, List.map_cons, List.map_map, Nat.add_zero,
    Nat.mod_eq_of_lt h.tail_lt]
  congr 1
  exact List.map_congr_left fun k _ => congrArg s.ring.read (hc k).symm

/-- A push that does not make head catch tail adds its byte at the end. -/
theorem ringBytes_push (h : RingOk s) (hw : s.ring.wf = true) (hne : ringNext s s.ringHead ≠ s.ringTail) (d : Byte) :
    ringBytes { s with ring := s.ring.write s.ringHead d, ringHead := ringNext s s.ringHead } = ringBytes s ++ [d] := by
  have h1 := h.head_lt
  have h2 := h.tail_lt
  have hn := ringNext_eq s.ringHead h1
  have hcnt : ringCount { s with ring := s.ring.write s.ringHead d, ringHead := ringNext s s.ringHead } = ringCount s + 1 := by
    have h3 : RingOk { s with ring := s.ring.write s.ringHead d, ringHead := ringNext s s.ringHead } :=
      ⟨ringNext_lt h _, h2⟩
    have e1 := ringCount_eq h
    have e2 := ringCount_eq h3
    simp only at e2
    split at e1 <;> split at e2 <;> split at hn <;> omega
  rw [ringBytes, hcnt, List.range_succ, List.map_append, List.map_singleton]
  have hpos : (s.ringTail + ringCount s) % s.params.ringCap = s.ringHead := by
    rw [ringCount_eq h]
    split
    · rw [show s.ringTail + (s.ringHead - s.ringTail) = s.ringHead by omega, Nat.mod_eq_of_lt h1]
    · rw [show s.ringTail + (s.ringHead + s.params.ringCap - s.ringTail) = s.ringHead + s.params.ringCap by omega,
        Nat.add_mod_right, Nat.mod_eq_of_lt h1]
  congr 1
  · refine List.map_congr_left fun k hk => ?_
    have hk := List.mem_range.1 hk
    refine read_write_other hw fun e => ?_
    have hlt := ringCount_lt h
    have hk1 : (s.ringTail + k) % s.params.ringCap = if s.ringTail + k < s.params.ringCap then s.ringTail + k
        else s.ringTail + k - s.params.ringCap := by
      split
      · exact Nat.mod_eq_of_lt ‹_›
      · rw [Nat.mod_eq_sub_mod (by omega), Nat.mod_eq_of_lt (by omega)]
    have hk2 : (s.ringTail + ringCount s) % s.params.ringCap =
        if s.ringTail + ringCount s < s.params.ringCap then s.ringTail + ringCount s
        else s.ringTail + ringCount s - s.params.ringCap := by
      split
      · exact Nat.mod_eq_of_lt ‹_›
      · rw [Nat.mod_eq_sub_mod (by omega), Nat.mod_eq_of_lt (by omega)]
    simp only [hk1] at e
    rw [hk2] at hpos
    split at e <;> split at hpos <;> omega
  · simp only [hpos]
    rw [read_write_same hw]

/-- The ring is full exactly when a push would make head catch tail. -/
theorem ringNext_eq_tail (h : RingOk s) : ringNext s s.ringHead = s.ringTail ↔ ringCount s + 1 = s.params.ringCap := by
  have h1 := h.head_lt
  have h2 := h.tail_lt
  rw [ringNext_eq _ h1, ringCount_eq h]
  split <;> split <;> omega

/-! ### The line buffer -/

theorem lineBytes_length (s : State) : (lineBytes s).length = s.lineLen := by simp [lineBytes]

theorem lineBytes_write {m : Memory} (hw : m.wf = true) (n : Nat) (c : Byte) :
    (List.range n).map (m.write n c).read = (List.range n).map m.read :=
  List.map_congr_left fun k hk => read_write_other hw (by have := List.mem_range.1 hk; omega)

/-- A byte that fills the line buffer empties it (46_deserializer.md R243). -/
theorem lineBytes_store_full (hf : s.lineLen + 1 = s.params.lineCap) : lineBytes (storeLineByte c s) = [] := by
  rw [storeLineByte, if_pos hf]
  rfl

/-- Any other byte joins the line at its end. -/
theorem lineBytes_store_room (hw : s.line.wf = true) (hf : s.lineLen + 1 ≠ s.params.lineCap) :
    lineBytes (storeLineByte c s) = lineBytes s ++ [c] := by
  rw [storeLineByte, if_neg hf]
  simp only [lineBytes]
  rw [List.range_succ, List.map_append, List.map_singleton, read_write_same hw, lineBytes_write hw]

/-! ### The poll loop -/

/-- Take bytes one after the other from the ring to the line buffer. -/
def drain : List Byte → State → State
  | [], s => s
  | c :: cs, s => drain cs (storeLineByte c (ringDrop s))

/-- What moving bytes can change. -/
theorem drain_rest (cs : List Byte) (s : State) :
    drain cs s = { s with
      ringTail := (drain cs s).ringTail
      line := (drain cs s).line
      lineLen := (drain cs s).lineLen
      counters := { s.counters with rxOverruns := (drain cs s).counters.rxOverruns } } := by
  induction cs generalizing s with
  | nil => rfl
  | cons c cs ih =>
    rw [drain, ih]
    unfold storeLineByte
    split <;> rfl

/-- Everything a poll can do, in any state: move some bytes, then answer `ERR_EMPTY`, or drop one more byte and end the
line. -/
theorem pollLoop_cases (f : FrameReg) (n : Nat) (s : State) :
    ∃ cs, pollLoop f n s = raise .desPoll .errEmpty (drain cs s) ∨ pollLoop f n s = endLine f (ringDrop (drain cs s)) := by
  induction n generalizing s with
  | zero => exact ⟨[], .inl rfl⟩
  | succ n ih =>
    unfold pollLoop
    split
    · exact ⟨[], .inl rfl⟩
    · split
      · exact ⟨[], .inr rfl⟩
      · obtain ⟨cs, h⟩ := ih (storeLineByte (s.ring.read s.ringTail) (ringDrop s))
        exact ⟨s.ring.read s.ringTail :: cs, h⟩

theorem storeLineByte_ringOk (h : RingOk s) : RingOk (storeLineByte c s) := by
  unfold storeLineByte
  split <;> exact ⟨h.head_lt, h.tail_lt⟩

theorem storeLineByte_ringBytes (c : Byte) (s : State) : ringBytes (storeLineByte c s) = ringBytes s := by
  unfold storeLineByte
  split <;> rfl

theorem storeLineByte_ringCount (c : Byte) (s : State) : ringCount (storeLineByte c s) = ringCount s := by
  unfold storeLineByte
  split <;> rfl

/-- No CR in the ring: the poll moves every byte. -/
theorem pollLoop_no_cr (h : RingOk s) {n : Nat} (hn : ringCount s ≤ n) (hcr : charCR ∉ ringBytes s) :
    pollLoop f n s = raise .desPoll .errEmpty (drain (ringBytes s) s) := by
  induction n generalizing s with
  | zero =>
    rw [ringBytes_empty h ((ringCount_eq_zero h).1 (Nat.le_zero.1 hn))]
    rfl
  | succ n ih =>
    unfold pollLoop
    split
    · next he =>
      rw [ringBytes_empty h he]
      rfl
    · next he =>
      have hb := ringBytes_drop h he
      have hc := ringCount_drop h he
      rw [hb, List.mem_cons, not_or] at hcr
      rw [if_neg (Ne.symm hcr.1), hb, drain,
        ih (storeLineByte_ringOk (ringDrop_ok h)) (by rw [storeLineByte_ringCount]; omega)
          (by rw [storeLineByte_ringBytes]; exact hcr.2), storeLineByte_ringBytes]

/-- A CR in the ring: the poll moves the bytes before it, drops it, and ends the line. -/
theorem pollLoop_cr (h : RingOk s) {n : Nat} (hn : ringCount s ≤ n) {pre post : List Byte}
    (hb : ringBytes s = pre ++ charCR :: post) (hcr : charCR ∉ pre) :
    pollLoop f n s = endLine f (ringDrop (drain pre s)) ∧ ringBytes (ringDrop (drain pre s)) = post ∧
      RingOk (drain pre s) ∧ (drain pre s).ringHead ≠ (drain pre s).ringTail := by
  induction n generalizing s pre with
  | zero =>
    rw [ringBytes_empty h ((ringCount_eq_zero h).1 (Nat.le_zero.1 hn))] at hb
    simp at hb
  | succ n ih =>
    have he : s.ringHead ≠ s.ringTail := fun he => by
      rw [ringBytes_empty h he] at hb
      simp at hb
    have hd := ringBytes_drop h he
    have hc := ringCount_drop h he
    rw [hd] at hb
    unfold pollLoop
    rw [if_neg he]
    cases pre with
    | nil =>
      obtain ⟨h1, h2⟩ := List.cons.inj hb
      rw [if_pos h1]
      exact ⟨rfl, h2, h, he⟩
    | cons c pre =>
      obtain ⟨h1, h2⟩ := List.cons.inj hb
      rw [List.mem_cons, not_or] at hcr
      rw [if_neg (by rw [h1]; exact Ne.symm hcr.1), h1, drain]
      exact ih (storeLineByte_ringOk (ringDrop_ok h)) (by rw [storeLineByte_ringCount]; omega)
        (by rw [storeLineByte_ringBytes]; exact h2) hcr.2

/-- Moving every byte empties the ring. -/
theorem drain_all {n : Nat} (h : RingOk s) (hn : ringCount s ≤ n) : (drain (ringBytes s) s).ringTail = s.ringHead := by
  induction n generalizing s with
  | zero =>
    have he := (ringCount_eq_zero h).1 (Nat.le_zero.1 hn)
    rw [ringBytes_empty h he]
    exact he.symm
  | succ n ih =>
    by_cases he : s.ringHead = s.ringTail
    · rw [ringBytes_empty h he]
      exact he.symm
    · have hc := ringCount_drop h he
      have hs : (storeLineByte (s.ring.read s.ringTail) (ringDrop s)).ringHead = s.ringHead := by
        unfold storeLineByte
        split <;> rfl
      rw [ringBytes_drop h he, drain]
      have := ih (s := storeLineByte (s.ring.read s.ringTail) (ringDrop s)) (storeLineByte_ringOk (ringDrop_ok h))
        (by rw [storeLineByte_ringCount]; omega)
      rwa [storeLineByte_ringBytes, hs] at this

/-! ### What the moved bytes leave in the line buffer -/

/-- The line buffer within its bounds and in canonical form. -/
structure LineOk (s : State) : Prop where
  len_lt : s.lineLen < s.params.lineCap
  wf : s.line.wf = true

theorem Inv.lineOk (h : Inv s) : LineOk s := ⟨h.len_lt, h.line_wf⟩

theorem storeLineByte_lineOk (h : LineOk s) : LineOk (storeLineByte c s) := by
  have := h.len_lt
  unfold storeLineByte
  split
  · exact ⟨by simp; omega, write_wf h.wf⟩
  · exact ⟨by simp; omega, write_wf h.wf⟩

theorem ringDrop_lineOk (h : LineOk s) : LineOk (ringDrop s) := ⟨h.len_lt, h.wf⟩

theorem drain_lineOk (cs : List Byte) (h : LineOk s) : LineOk (drain cs s) := by
  induction cs generalizing s with
  | nil => exact h
  | cons c cs ih => exact ih (storeLineByte_lineOk (ringDrop_lineOk h))

theorem drain_ringOk (cs : List Byte) (h : RingOk s) : RingOk (drain cs s) := by
  induction cs generalizing s with
  | nil => exact h
  | cons c cs ih => exact ih (storeLineByte_ringOk (ringDrop_ok h))

theorem storeLineByte_params (c : Byte) (s : State) : (storeLineByte c s).params = s.params := by
  unfold storeLineByte
  split <;> rfl

/-- Moved bytes: what the line buffer holds, how often it overflowed, and which slots they can have been stored to. -/
theorem drain_line (cs : List Byte) (h : LineOk s) :
    lineBytes (drain cs s) = lineLeft s cs ∧
    (drain cs s).counters.rxOverruns = s.counters.rxOverruns + BitVec.ofNat 32 (lineOverflows s cs) ∧
    ∀ k, (∀ j, j < cs.length → k ≠ (s.lineLen + j) % s.params.lineCap) → (drain cs s).line.read k = s.line.read k := by
  induction cs generalizing s with
  | nil =>
    have hz : lineOverflows s [] = 0 := by
      rw [lineOverflows, List.append_nil, lineBytes_length]
      exact Nat.div_eq_of_lt h.len_lt
    refine ⟨?_, ?_, fun k _ => rfl⟩
    · rw [lineLeft, hz, Nat.mul_zero, List.append_nil]
      rfl
    · rw [hz]
      simp [drain]
  | cons c cs ih =>
    have h' : LineOk (ringDrop s) := ringDrop_lineOk h
    obtain ⟨ih1, ih2, ih3⟩ := ih (s := storeLineByte c (ringDrop s)) (storeLineByte_lineOk h')
    have hlt := h.len_lt
    have hp : (storeLineByte c (ringDrop s)).params = s.params := storeLineByte_params ..
    rw [drain, ih1, ih2]
    by_cases hfull : s.lineLen + 1 = s.params.lineCap
    · have hb : lineBytes (storeLineByte c (ringDrop s)) = [] := lineBytes_store_full hfull
      have hl : (lineBytes s ++ c :: cs).length = cs.length + s.params.lineCap := by
        simp only [List.length_append, List.length_cons, lineBytes_length]
        omega
      have hl' : (lineBytes (storeLineByte c (ringDrop s)) ++ cs).length = cs.length := by rw [hb]; rfl
      have ho : lineOverflows s (c :: cs) = lineOverflows (storeLineByte c (ringDrop s)) cs + 1 := by
        rw [lineOverflows, lineOverflows, hl, hl', hp, Nat.add_div_right _ (by omega)]
      have hst : storeLineByte c (ringDrop s) =
          State.bump { ringDrop s with line := s.line.write s.lineLen c, lineLen := 0 } .rxOverruns := by
        unfold storeLineByte
        exact if_pos hfull
      refine ⟨?_, ?_, fun k hk => ?_⟩
      · rw [lineLeft, lineLeft, ho, hb, hp, Nat.mul_add, Nat.mul_one, Nat.add_comm, List.nil_append,
          ← List.drop_drop]
        congr 1
        rw [List.append_cons, List.drop_left' (by simp [lineBytes_length]; omega)]
      · rw [ho, hst]
        simp only [bump_counters, Counters.bump]
        rw [← hst, BitVec.add_assoc, BitVec.ofNat_add]
        congr 1
        rw [BitVec.add_comm]
        rfl
      · rw [ih3 k fun j hj => ?_]
        · rw [hst]
          refine read_write_other h.wf fun e => hk 0 (by simp) ?_
          rw [Nat.add_zero, Nat.mod_eq_of_lt hlt]
          exact e.symm
        · have := hk (j + 1) (by simpa using hj)
          rw [show s.lineLen + (j + 1) = j + s.params.lineCap by omega, Nat.add_mod_right] at this
          rw [hp, hst]
          simpa using this
    · have hb : lineBytes (storeLineByte c (ringDrop s)) = lineBytes s ++ [c] := lineBytes_store_room h'.wf hfull
      have hst : storeLineByte c (ringDrop s) =
          { ringDrop s with line := s.line.write s.lineLen c, lineLen := s.lineLen + 1 } := by
        unfold storeLineByte
        exact if_neg hfull
      have ho : lineOverflows s (c :: cs) = lineOverflows (storeLineByte c (ringDrop s)) cs := by
        rw [lineOverflows, lineOverflows, hb, hp, List.append_assoc]
        rfl
      refine ⟨?_, ?_, fun k hk => ?_⟩
      · rw [lineLeft, lineLeft, ho, hb, hp, List.append_assoc]
        rfl
      · rw [ho]
        congr 1
        rw [hst]
        rfl
      · rw [ih3 k fun j hj => ?_]
        · rw [hst]
          refine read_write_other h.wf fun e => hk 0 (by simp) ?_
          rw [Nat.add_zero, Nat.mod_eq_of_lt hlt]
          exact e.symm
        · have := hk (j + 1) (by simpa using hj)
          rw [hp, hst]
          rwa [show s.lineLen + (j + 1) = s.lineLen + 1 + j by omega] at this

/-! ### Everything the operations over the buffers can do -/

/-- `Append(L)` with its `ok()`: the line enters whole, or `txDropped` counts it (45_serializer.md R219). -/
theorem appendLine_cases (op : Opcode) (l : List Byte) (s : State) :
    (s.txq.length + l.length ≤ s.params.txqCap ∧
      appendLine op l s = .next ((enqueue l s).answer (statusWord .ok op.code) [])) ∨
    (s.params.txqCap < s.txq.length + l.length ∧
      appendLine op l s = .next ((s.bump .txDropped).answer (statusWord .errTxFull op.code) [])) := by
  unfold appendLine
  by_cases h : lineFits l s = true
  · rw [if_pos h]
    exact .inl ⟨by simpa [lineFits] using h, rfl⟩
  · rw [if_neg h]
    exact .inr ⟨by simpa [lineFits] using h, rfl⟩

/-- A frame is refused only with `ERR_FRAME` or `ERR_LENGTH` (45_serializer.md R212). -/
theorem encodeLine_error {fr : Frame} {e : Status} (h : encodeLine fr = .error e) : e = .errFrame ∨ e = .errLength := by
  unfold encodeLine at h
  split at h
  · cases h
    exact .inl rfl
  · split at h
    · cases h
      exact .inl rfl
    · split at h
      · cases h
        exact .inr rfl
      · cases h

theorem serFrame_cases (f : FrameReg) (s : State) :
    (∃ e, (e = .errFrame ∨ e = .errLength) ∧ encodeLine (s.frame f) = .error e ∧
      execSerFrame f s = .next ((s.bump .txErrors).answer (statusWord e Opcode.serFrame.code) [])) ∨
    (∃ l, encodeLine (s.frame f) = .ok l ∧ s.txq.length + l.length ≤ s.params.txqCap ∧
      execSerFrame f s = .next ((stampSent f (enqueue l s)).answer (statusWord .ok Opcode.serFrame.code) [])) ∨
    ∃ l, encodeLine (s.frame f) = .ok l ∧ s.params.txqCap < s.txq.length + l.length ∧
      execSerFrame f s = .next ((s.bump .txDropped).answer (statusWord .errTxFull Opcode.serFrame.code) []) := by
  unfold execSerFrame
  cases h : encodeLine (s.frame f) with
  | error e => exact .inl ⟨e, encodeLine_error h, rfl, rfl⟩
  | ok l =>
    right
    simp only
    by_cases hf : lineFits l s = true
    · rw [if_pos hf]
      exact .inl ⟨l, rfl, by simpa [lineFits] using hf, rfl⟩
    · rw [if_neg hf]
      exact .inr ⟨l, rfl, by simpa [lineFits] using hf, rfl⟩

theorem endLine_cases (f : FrameReg) (s : State) :
    (parseLine (lineBytes s) = none ∧ endLine f s =
      .next (({ s with lineLen := 0 }.bump .rxErrors).answer (statusWord .errParse Opcode.desPoll.code) [])) ∨
    ∃ p, parseLine (lineBytes s) = some p ∧ endLine f s =
      .next (((writeFrame f p { s with lineLen := 0 }).bump .rxCount).answer (statusWord .ok Opcode.desPoll.code) []) := by
  unfold endLine
  cases h : parseLine (lineBytes s) with
  | none => exact .inl ⟨rfl, rfl⟩
  | some p => exact .inr ⟨p, rfl, rfl⟩

theorem desPoll_cases (f : FrameReg) (s : State) :
    ∃ cs, execDesPoll f s = .next ((drain cs s).answer (statusWord .errEmpty Opcode.desPoll.code) []) ∨
      execDesPoll f s = .next (({ ringDrop (drain cs s) with lineLen := 0 }.bump .rxErrors).answer
        (statusWord .errParse Opcode.desPoll.code) []) ∨
      ∃ p, parseLine (lineBytes (drain cs s)) = some p ∧
        execDesPoll f s = .next (((writeFrame f p { ringDrop (drain cs s) with lineLen := 0 }).bump .rxCount).answer
          (statusWord .ok Opcode.desPoll.code) []) := by
  obtain ⟨cs, h | h⟩ := pollLoop_cases f (ringCount s) s
  · exact ⟨cs, .inl h⟩
  · refine ⟨cs, .inr ?_⟩
    unfold execDesPoll
    rw [h]
    rcases endLine_cases f (ringDrop (drain cs s)) with ⟨_, h⟩ | ⟨p, hp, h⟩
    · exact .inl h
    · exact .inr ⟨p, hp, h⟩

end Sys2Proof.Machine
end

