-- ==== Sys2Proof/Laws/Encoding.lean ====
section
/-! SUPPORT. Header words: what each field of one reads as, and how the row's mask splits over its argument bytes. -/

namespace Sys2Proof

open Machine

variable {op : Opcode} {a b c : Byte}

/-! ### The opcode map -/

theorem ofCode_code (op : Opcode) : Opcode.ofCode op.code = some op := by cases op <;> decide

theorem code_of_ofCode {x : Byte} (h : Opcode.ofCode x = some op) : op.code = x := by
  have := List.find?_some h
  simpa using this

/-- The bits of argument byte `a` a row reserves (30_encoding.md R99). -/
def maskA (op : Opcode) : Byte := op.mask.extractLsb' 16 8

/-- The same of argument byte `b`. -/
def maskB (op : Opcode) : Byte := op.mask.extractLsb' 8 8

/-- The same of argument byte `c`. -/
def maskC (op : Opcode) : Byte := op.mask.extractLsb' 0 8

theorem mask_split (op : Opcode) : op.mask = (0xFF : Byte) ++ maskA op ++ maskB op ++ maskC op := by cases op <;> decide

theorem pattern_split (op : Opcode) : op.pattern = op.code ++ (0 : Byte) ++ (0 : Byte) ++ (0 : Byte) := by
  cases op <;> decide

theorem and_FF (a : Byte) : a &&& 0xFF = a := BitVec.and_allOnes

/-! ### The fields of a header -/

theorem headerOpc_header (op : Opcode) (a b c : Byte) : headerOpc (header op a b c) = op.code := by
  simp only [headerOpc, header]
  ext k hk
  simp
  grind

theorem headerB_header (op : Opcode) (a b c : Byte) : headerB (header op a b c) = b := by
  simp only [headerB, header]
  ext k hk
  simp
  grind

theorem headerC_header (op : Opcode) (a b c : Byte) : headerC (header op a b c) = c := by
  simp only [headerC, header]
  ext k hk
  simp
  grind

theorem headerBC_header (op : Opcode) (a b c : Byte) : headerBC (header op a b c) = b ++ c := by
  simp only [headerBC, header]
  ext k hk
  simp
  grind

theorem header_fieldA (op : Opcode) (a b c : Byte) {w : Nat} (h : w ≤ 8) :
    (header op a b c).extractLsb' 16 w = a.setWidth w := by
  simp only [header]
  ext k hk
  simp
  grind

theorem header_fieldB (op : Opcode) (a b c : Byte) {w : Nat} (h : w ≤ 8) :
    (header op a b c).extractLsb' 8 w = b.setWidth w := by
  simp only [header]
  ext k hk
  simp
  grind

theorem header_bitA (op : Opcode) (a b c : Byte) {k : Nat} (h : k < 8) :
    (header op a b c).getLsbD (16 + k) = a.getLsbD k := by
  simp only [header]
  simp
  grind

theorem headerFrame_header (op : Opcode) (a b c : Byte) :
    headerFrame (header op a b c) = if a.getLsbD 0 then .f1 else .f0 := by
  rw [headerFrame, show (16 : Nat) = 16 + 0 from rfl, header_bitA op a b c (by omega)]

theorem headerTable_header (op : Opcode) (a b c : Byte) :
    headerTable (header op a b c) = if a.getLsbD 0 then .data else .arb := by
  rw [headerTable, show (16 : Nat) = 16 + 0 from rfl, header_bitA op a b c (by omega)]

theorem half_split (v : Half) : halfHigh v ++ halfLow v = v := by
  simp only [halfHigh, halfLow]
  ext k hk
  simp
  grind

theorem halfHigh_append (b c : Byte) : halfHigh (b ++ c) = b := by
  simp only [halfHigh]
  ext k hk
  simp
  grind

theorem halfLow_append (b c : Byte) : halfLow (b ++ c) = c := by
  simp only [halfLow]
  ext k hk
  simp
  grind

/-! ### Headers the decoder accepts -/

/-- A header whose argument bytes keep clear of the reserved bits matches its row. -/
theorem header_mask (ha : a &&& maskA op = 0) (hb : b &&& maskB op = 0) (hc : c &&& maskC op = 0) :
    header op a b c &&& op.mask = op.pattern := by
  rw [mask_split, pattern_split, header, BitVec.and_append, BitVec.and_append, BitVec.and_append, ha, hb, hc, and_FF]

theorem decode_header {ws : List Word} (hl : ws.length = op.nops) (ha : a &&& maskA op = 0) (hb : b &&& maskB op = 0)
    (hc : c &&& maskC op = 0) :
    decode (.command (header op a b c) ws) = .instr (instrOf op (header op a b c) ws) := by
  simp only [decode, decodeCommand, headerOpc_header, ofCode_code, hl, header_mask ha hb hc, ne_eq, not_true, if_false]

/-- A word that matches a row is a header of that row. -/
theorem header_of_match {h : Word} (hm : h &&& op.mask = op.pattern) :
    ∃ a b c : Byte, h = header op a b c ∧ a &&& maskA op = 0 ∧ b &&& maskB op = 0 ∧ c &&& maskC op = 0 := by
  have hs : h = h.extractLsb' 24 8 ++ h.extractLsb' 16 8 ++ h.extractLsb' 8 8 ++ h.extractLsb' 0 8 := by
    ext k hk
    simp
    grind
  generalize h.extractLsb' 24 8 = o, h.extractLsb' 16 8 = a, h.extractLsb' 8 8 = b, h.extractLsb' 0 8 = c at hs
  subst hs
  rw [mask_split, pattern_split, BitVec.and_append, BitVec.and_append, BitVec.and_append, and_FF] at hm
  have p1 : ∀ x a b c : Byte, (x ++ a ++ b ++ c).extractLsb' 24 8 = x := by
    intros
    ext k hk
    simp
    grind
  have p2 : ∀ x a b c : Byte, (x ++ a ++ b ++ c).extractLsb' 16 8 = a := by
    intros
    ext k hk
    simp
    grind
  have p3 : ∀ x a b c : Byte, (x ++ a ++ b ++ c).extractLsb' 8 8 = b := by
    intros
    ext k hk
    simp
    grind
  have p4 : ∀ x a b c : Byte, (x ++ a ++ b ++ c).extractLsb' 0 8 = c := by
    intros
    ext k hk
    simp
    grind
  have h1 := congrArg (·.extractLsb' 24 8) hm
  have h2 := congrArg (·.extractLsb' 16 8) hm
  have h3 := congrArg (·.extractLsb' 8 8) hm
  have h4 := congrArg (·.extractLsb' 0 8) hm
  simp only [p1, p2, p3, p4] at h1 h2 h3 h4
  exact ⟨a, b, c, by rw [h1, header], h2, h3, h4⟩

/-! ### Headers as the rules write them -/

theorem header_or (op : Opcode) (a b c : Byte) :
    header op a b c = (op.code ++ (0 : BitVec 24)) ||| fieldAt 16 a ||| fieldAt 8 b ||| fieldAt 0 c := by
  simp only [header, fieldAt]
  ext k hk
  simp
  grind

theorem fieldAt_zero (w k : Nat) : fieldAt k (0 : BitVec w) = 0 := by simp [fieldAt]

theorem fieldAt_frame (f : FrameReg) : fieldAt 16 (frameArg f) = fieldF f := by cases f <;> decide

theorem fieldAt_table (t : Table) : fieldAt 16 (tableArg t) = fieldT t := by cases t <;> decide

theorem fieldAt_bool (x : Bool) : fieldAt 16 (boolArg x) = fieldBit 16 x := by cases x <;> decide

theorem fieldAt_frameBool (f : FrameReg) (x : Bool) : fieldAt 16 (frameBoolArg f x) = fieldF f ||| fieldBit 17 x := by
  cases f <;> cases x <;> decide

theorem fieldAt_setWidth {w : Nat} (k : Nat) (v : BitVec w) (h : w ≤ 8) : fieldAt k (v.setWidth 8) = fieldAt k v := by
  simp only [fieldAt]
  congr 1
  ext j hj
  simp
  grind

theorem fieldAt_half (v : Half) : fieldAt 8 (halfHigh v) ||| fieldAt 0 (halfLow v) = fieldAt 0 v := by
  simp only [fieldAt, halfHigh, halfLow]
  ext k hk
  simp
  grind

end Sys2Proof
end

