-- ==== Sys2Proof/Laws/Lines.lean ====
section
/-! SUPPORT. Lines: the DLC table, hexadecimal digits, what the serializer writes and the pieces of the parser. -/

namespace Sys2Proof.Machine

/-! ### Time of day -/

theorem splitMicros_spec (t : DWord) : (splitMicros t).seconds.toNat = t.toNat / 1000000 ∧
    (splitMicros t).microseconds.toNat = t.toNat % 1000000 := by
  have := t.isLt
  simp [splitMicros, microsPerSecond]
  omega

/-! ### The DLC table (43_dlc_mapper.md R190) -/

theorem dlcToLen_bounds {fd : Bool} {d n : Nat} (h : dlcToLen fd d = some n) : n ≤ 64 ∧ d ≤ 15 := by
  unfold dlcToLen at h
  split at h
  · cases h
  · refine ⟨?_, by omega⟩
    split at h
    · cases h
    · split at h
      · cases h
        omega
      · have := List.mem_of_getElem? h
        simp [fdLengths] at this
        omega

theorem lenToDlc_bounds {fd : Bool} {n d : Nat} (h : lenToDlc fd n = some d) : n ≤ 64 ∧ d ≤ 15 := by
  unfold lenToDlc at h
  repeat' split at h
  all_goals (cases h; try omega)

theorem dlcToLen_small : ∀ fd : Bool, ∀ d < 16, ∀ n < 65,
    (dlcToLen fd d = some n ↔ (n, d) ∈ dlcTable ∧ n ∈ legalLengths fd) := by
  intro fd
  cases fd <;> decide

/-- The decoder of R192 against the table. -/
theorem dlcToLen_iff (fd : Bool) (d n : Nat) : dlcToLen fd d = some n ↔ (n, d) ∈ dlcTable ∧ n ∈ legalLengths fd := by
  have hb : ∀ p ∈ dlcTable, p.1 < 65 ∧ p.2 < 16 := by decide
  constructor
  · intro h
    have := dlcToLen_bounds h
    exact (dlcToLen_small fd d (by omega) n (by omega)).1 h
  · intro h
    have := hb _ h.1
    exact (dlcToLen_small fd d this.2 n this.1).2 h

/-- The encoder of R191 on a legal length. -/
theorem lenToDlc_legal {fd : Bool} {n : Nat} (h : n ∈ legalLengths fd) :
    ∃ d, lenToDlc fd n = some d ∧ (n, d) ∈ dlcTable ∧ d < 16 ∧ n ≤ 64 := by
  have : ∀ fd : Bool, ∀ n ∈ legalLengths fd,
      ∃ d, d < 16 ∧ lenToDlc fd n = some d ∧ (n, d) ∈ dlcTable ∧ d < 16 ∧ n ≤ 64 := by decide
  obtain ⟨d, _, h⟩ := this fd n h
  exact ⟨d, h⟩

/-! ### Digits -/

theorem hexChar_upper {n : Nat} (h : n < 16) : hexChar n = upperDigits.getD n 0 := by
  have : ∀ n < 16, hexChar n = upperDigits.getD n 0 := by decide
  exact this n h

theorem hexVal_upper {n : Nat} (h : n < 16) : hexVal (upperDigits.getD n 0) = some n ∧ upperDigits.getD n 0 ≠ 0x0D := by
  have : ∀ n < 16, hexVal (upperDigits.getD n 0) = some n ∧ upperDigits.getD n 0 ≠ 0x0D := by decide
  exact this n h

/-- A list of upper-case digits reads back as the digits, and holds no carriage return. -/
theorem mapM_upper (l : List Byte) (g : Nat → Nat) (hg : ∀ j, j < l.length → g j < 16)
    (h : ∀ j, j < l.length → l[j]? = some (upperDigits.getD (g j) 0)) :
    l.mapM hexVal = some ((List.range l.length).map g) ∧ 0x0D ∉ l := by
  induction l generalizing g with
  | nil => simp
  | cons c l ih =>
    have h0 := h 0 (by simp)
    simp only [List.getElem?_cons_zero, Option.some.injEq] at h0
    have := ih (fun j => g (j + 1)) (fun j hj => hg _ (by simpa using hj)) fun j hj => by
      have := h (j + 1) (by simpa using hj)
      rwa [List.getElem?_cons_succ] at this
    obtain ⟨u1, u2⟩ := hexVal_upper (hg 0 (by simp))
    refine ⟨?_, ?_⟩
    · rw [List.mapM_cons, this.1, h0, u1, List.length_cons, List.range_succ_eq_map]
      simp [Function.comp_def]
    · rw [List.mem_cons, not_or]
      exact ⟨by rw [h0]; exact Ne.symm u2, this.2⟩

/-- The digits of a number, most significant first, spell it. -/
theorem fold_digits (n v acc : Nat) :
    ((List.range n).map fun j => v / 16 ^ (n - 1 - j) % 16).foldl (fun a x => a * 16 + x) acc =
      acc * 16 ^ n + v % 16 ^ n := by
  induction n generalizing acc v with
  | zero => simp [Nat.mod_one]
  | succ n ih =>
    rw [List.range_succ, List.map_append, List.foldl_append]
    have : ((List.range n).map fun j => v / 16 ^ (n + 1 - 1 - j) % 16) =
        (List.range n).map fun j => (v / 16) / 16 ^ (n - 1 - j) % 16 := by
      apply List.map_congr_left
      intro j hj
      have := List.mem_range.1 hj
      rw [Nat.div_div_eq_div_mul, ← Nat.pow_succ', show n + 1 - 1 - j = (n - 1 - j) + 1 by omega]
    rw [this, ih]
    simp only [List.map_cons, List.map_nil, List.foldl_cons, List.foldl_nil, Nat.add_sub_cancel, Nat.sub_self,
      Nat.pow_zero, Nat.div_one]
    rw [Nat.pow_succ', Nat.mod_mul, Nat.add_mul]
    ring

/-! ### The serializer's line (45_serializer.md R210 to R212) -/

theorem frameLetter_table {fr : Frame} (h : ¬ (fr.isFD = true ∧ fr.rawId.getLsbD 30 = true)) :
    (frameLetter fr, lineClassOf fr) ∈ letterTable := by
  unfold frameLetter baseLetter lineClassOf Frame.isExtended Frame.isRTR
  generalize fr.rawId.getLsbD 31 = a, fr.rawId.getLsbD 30 = b, fr.isFD = c, fr.isBRS = d at *
  revert a b c d
  decide

theorem payloadDigits_length (fr : Frame) (n : Nat) : (payloadDigits fr n).length = 2 * n := by
  unfold payloadDigits
  induction n with
  | zero => rfl
  | succ n ih =>
    rw [List.range_succ, List.flatMap_append, List.length_append, ih]
    simp
    omega

theorem payloadDigits_get (fr : Frame) (n i : Nat) (h : i < n) :
    (payloadDigits fr n)[2 * i]? = some (hexChar ((fr.readByte i).toNat / 16)) ∧
      (payloadDigits fr n)[2 * i + 1]? = some (hexChar ((fr.readByte i).toNat % 16)) := by
  induction n with
  | zero => omega
  | succ n ih =>
    have hl := payloadDigits_length fr n
    have hs : payloadDigits fr (n + 1) =
        payloadDigits fr n ++ [hexChar ((fr.readByte n).toNat / 16), hexChar ((fr.readByte n).toNat % 16)] := by
      unfold payloadDigits
      rw [List.range_succ, List.flatMap_append]
      simp
    rw [hs]
    by_cases hi : i < n
    · rw [List.getElem?_append_left (by omega), List.getElem?_append_left (by omega)]
      exact ih hi
    · obtain rfl : i = n := by omega
      rw [List.getElem?_append_right (by omega), List.getElem?_append_right (by omega), hl]
      simp

/-- The line the serializer builds is the line R210 describes. -/
theorem frameLine_lineOf {fr : Frame} {d : Nat} (h : ¬ (fr.isFD = true ∧ fr.rawId.getLsbD 30 = true))
    (hd : (fr.length.toNat, d) ∈ dlcTable) (hd' : d < 16) (hn : fr.length.toNat ≤ 64) : LineOf fr (frameLine fr d) := by
  refine ⟨frameLetter fr, hexDigits (idDigits fr.isExtended) fr.id.toNat, d,
    if fr.isRTR then [] else payloadDigits fr fr.length.toNat, ?_, frameLetter_table h, ?_, ?_, hd, ?_, ?_⟩
  · simp [frameLine, hexChar_upper hd', charCR]
  · simp [hexDigits, idDigits, Frame.isExtended]
  · intro j hj
    have hl : (hexDigits (idDigits fr.isExtended) fr.id.toNat).length = idDigits fr.isExtended := by simp [hexDigits]
    rw [hl] at hj ⊢
    rw [hexDigits, List.getElem?_map, List.getElem?_range hj, Option.map_some, id_toNat,
      hexChar_upper (Nat.mod_lt _ (by decide)), Nat.shiftRight_eq_div_pow, Nat.pow_mul]
  · unfold Frame.isRTR
    split <;> simp [payloadDigits_length]
  · intro i hi
    unfold Frame.isRTR at hi ⊢
    split at hi
    · simp at hi
    · next hr =>
      rw [payloadDigits_length] at hi
      have := (fr.data.read i).isLt
      rw [if_neg hr, (payloadDigits_get fr _ i (by omega)).1, (payloadDigits_get fr _ i (by omega)).2,
        readByte_lt (by omega), hexChar_upper (by omega), hexChar_upper (by omega)]
      exact ⟨rfl, rfl⟩

/-! ### The pieces of the parser (46_deserializer.md R231 to R235) -/

theorem lineClass_iff (c : Byte) (k : LineClass) : lineClass c = some k ↔ (c, k) ∈ letterTable := by
  have h1 : ∀ p ∈ letterTable, lineClass p.1 = some p.2 := by decide
  refine ⟨fun h => ?_, fun h => h1 _ h⟩
  unfold lineClass at h
  repeat' split at h
  all_goals (cases h; try (subst_vars; decide))

theorem hexNumber_iff (l : List Byte) (acc v : Nat) :
    hexNumber acc l = some v ↔ ∃ hs, l.mapM hexVal = some hs ∧ v = hs.foldl (fun a x => a * 16 + x) acc := by
  induction l generalizing acc with
  | nil => simp [hexNumber, eq_comm]
  | cons c l ih =>
    rw [hexNumber, List.mapM_cons]
    cases h : hexVal c with
    | none => simp
    | some x =>
      simp only [ih, Option.bind_eq_bind, Option.bind_some]
      cases List.mapM hexVal l with
      | none => simp
      | some hs => simp

theorem hexPairs_length {l bs : List Byte} (h : hexPairs l = some bs) : bs.length = l.length / 2 := by
  induction l using hexPairs.induct generalizing bs with
  | case1 hi lo rest a b' bs h1 h2 h3 ih =>
    simp only [hexPairs, h1, h2, h3] at h
    cases h
    simp [ih h1]
    omega
  | case2 hi lo rest hn ih =>
    simp only [hexPairs] at h
    cases h
  | case3 l hn =>
    rw [hexPairs] at h
    · cases h
      match l, hn with
      | [], _ => rfl
      | [_], _ => simp
      | a :: b :: c, hn => exact absurd rfl (hn a b c)
    · exact hn

/-- What a parsed line can hold. -/
theorem parseLine_bounds {L : List Byte} {p : ParsedFrame} (h : parseLine L = some p) :
    p.n ≤ 64 ∧ p.bytes.length = if p.cls.rtr then 0 else p.n := by
  cases L with
  | nil => cases h
  | cons c rest =>
    simp only [parseLine] at h
    split at h
    · cases h
    · next k _ =>
      generalize (if k.ext = true then 8 else 3) = nId at h
      simp only [parseBody] at h
      split at h
      · cases h
      · simp only [Option.bind_eq_bind, Option.bind_eq_some_iff] at h
        obtain ⟨id, hid, h⟩ := h
        split at h
        · cases h
        · rw [Option.bind_eq_some_iff] at h
          obtain ⟨d, hd, h⟩ := h
          rw [Option.bind_eq_some_iff] at h
          obtain ⟨n, hn, h⟩ := h
          rw [Option.bind_eq_some_iff] at h
          obtain ⟨bs, hb, h⟩ := h
          cases h
          refine ⟨(dlcToLen_bounds hn).1, ?_⟩
          simp only [parsePayload] at hb
          split at hb
          · next hr =>
            cases hb
            simp [hr]
          · next hr =>
            split at hb
            · cases hb
            · rw [hexPairs_length hb]
              simp only [List.length_drop] at *
              simp [hr]
              omega

end Sys2Proof.Machine
end

