-- ==== Sys2Proof/Laws/Invariant.lean ====
section
/-! SUPPORT. Every shared operation keeps the invariant. -/

namespace Sys2Proof.Machine

variable {s : State} {f : FrameReg} {fr : Frame}

theorem inv_answer {w : Word} {ws : List Word} (h : Inv s) : Inv (s.answer w ws) :=
  ⟨h.1, h.2, h.3, h.4, h.5, h.6, h.7, h.8, h.9, h.10, h.11, h.12, h.13⟩

theorem inv_emit {o : Output} (h : Inv s) : Inv (s.emit o) :=
  ⟨h.1, h.2, h.3, h.4, h.5, h.6, h.7, h.8, h.9, h.10, h.11, h.12, h.13⟩

theorem inv_bump {c : CounterId} (h : Inv s) : Inv (s.bump c) :=
  ⟨h.1, h.2, h.3, h.4, h.5, h.6, h.7, h.8, h.9, h.10, h.11, h.12, h.13⟩

theorem inv_takeInput {now : DWord} {rest : List Input} (h : Inv s) : Inv (takeInput s now rest) :=
  ⟨h.1, h.2, h.3, h.4, h.5, h.6, h.7, h.8, h.9, h.10, h.11, h.12, h.13⟩

theorem inv_frame (h : Inv s) (f : FrameReg) : FrameInv (s.frame f) := by
  cases f
  · exact h.frame0
  · exact h.frame1

theorem inv_setFrame (h : Inv s) (hf : FrameInv fr) : Inv (s.setFrame f fr) := by
  cases f
  · exact ⟨h.1, hf, h.3, h.4, h.5, h.6, h.7, h.8, h.9, h.10, h.11, h.12, h.13⟩
  · exact ⟨h.1, h.2, hf, h.4, h.5, h.6, h.7, h.8, h.9, h.10, h.11, h.12, h.13⟩

theorem inv_enqueue {l : List Byte} (h : Inv s) (hl : s.txq.length + l.length ≤ s.params.txqCap) : Inv (enqueue l s) :=
  ⟨h.1, h.2, h.3, h.4, h.5, h.6, h.7, h.8, h.9, h.10, h.11, h.12, by simpa using hl⟩

theorem inv_ringDrop (h : Inv s) : Inv (ringDrop s) :=
  ⟨h.1, h.2, h.3, h.4, h.5, h.6, ringNext_lt h.ringOk _, h.8, h.9, h.10, h.11, h.12, h.13⟩

theorem inv_clearLine (h : Inv s) : Inv { s with lineLen := 0 } := by
  have := h.len_lt
  exact ⟨h.1, h.2, h.3, h.4, h.5, h.6, h.7, h.8, h.9, Nat.lt_of_le_of_lt (Nat.zero_le _) this, h.11, h.12, h.13⟩

theorem inv_storeLineByte {c : Byte} (h : Inv s) : Inv (storeLineByte c s) := by
  have := h.len_lt
  unfold storeLineByte
  split
  · exact inv_bump ⟨h.1, h.2, h.3, h.4, h.5, h.6, h.7, h.8, h.9, Nat.lt_of_le_of_lt (Nat.zero_le _) this, write_wf h.11,
      write_below h.12 this, h.13⟩
  · exact ⟨h.1, h.2, h.3, h.4, h.5, h.6, h.7, h.8, h.9, by simp only; omega, write_wf h.11, write_below h.12 this, h.13⟩

theorem inv_drain (cs : List Byte) (h : Inv s) : Inv (drain cs s) := by
  induction cs generalizing s with
  | nil => exact h
  | cons c cs ih => exact ih (inv_storeLineByte (inv_ringDrop h))

theorem frameInv_setFlags {g : BitVec 6} (h : FrameInv fr) : FrameInv (fr.setFlags g) := ⟨h.1, h.2, h.3, h.4⟩

/-- A received frame, whatever line parsed. -/
theorem frameInv_received {p : ParsedFrame} {now : DWord} {id : Half} {L : List Byte} (hf : FrameInv fr)
    (h : parseLine L = some p) : FrameInv (receivedFrame p now id fr) := by
  obtain ⟨h1, h2⟩ := parseLine_bounds h
  refine ⟨?_, ?_, writeBytes_wf hf.data_wf, writeBytes_below hf.data_below ?_⟩
  · simp [receivedFrame]
    omega
  · rw [receivedFrame, (splitMicros_spec now).2]
    exact Nat.mod_lt _ (by decide)
  · rw [h2]
    split <;> omega

end Sys2Proof.Machine
end

