-- ==== Sys2Proof/Laws/Payload.lean ====
section
/-! SUPPORT. The payload word and `bswap64` bit by bit, and the words of a 64-bit value. -/

namespace Sys2Proof.Machine

/-- The payload word of 20_memory.md R67 as one bit vector, byte 0 lowest. -/
def payloadBits (fr : Frame) : DWord :=
  fr.data.read 7 ++ fr.data.read 6 ++ fr.data.read 5 ++ fr.data.read 4 ++ fr.data.read 3 ++ fr.data.read 2 ++
    fr.data.read 1 ++ fr.data.read 0

theorem payloadWord_eq (fr : Frame) : payloadWord fr = (payloadBits fr).toNat := by
  unfold payloadWord payloadBits
  simp only [readByte_lt (show 0 < 64 by omega), readByte_lt (show 1 < 64 by omega), readByte_lt (show 2 < 64 by omega),
    readByte_lt (show 3 < 64 by omega), readByte_lt (show 4 < 64 by omega), readByte_lt (show 5 < 64 by omega),
    readByte_lt (show 6 < 64 by omega), readByte_lt (show 7 < 64 by omega)]
  rw [toNat_append_lt, toNat_append_lt, toNat_append_lt, toNat_append_lt, toNat_append_lt, toNat_append_lt,
    toNat_append_lt]
  omega

/-- Bit `k` of eight bytes laid side by side is bit `k % 8` of byte `k / 8`. -/
theorem bytes_bit (g : Nat → Byte) (k : Nat) (h : k < 64) :
    (g 7 ++ g 6 ++ g 5 ++ g 4 ++ g 3 ++ g 2 ++ g 1 ++ g 0 : DWord).getLsbD k = (g (k / 8)).getLsbD (k % 8) := by
  simp only [BitVec.getLsbD_append]
  by_cases h0 : k < 8
  · rw [if_pos h0, show k / 8 = 0 by omega, show k % 8 = k by omega]
  rw [if_neg h0]
  by_cases h1 : k - 8 < 8
  · rw [if_pos h1, show k / 8 = 1 by omega, show k % 8 = k - 8 by omega]
  rw [if_neg h1]
  by_cases h2 : k - 8 - 8 < 8
  · rw [if_pos h2, show k / 8 = 2 by omega, show k % 8 = k - 8 - 8 by omega]
  rw [if_neg h2]
  by_cases h3 : k - 8 - 8 - 8 < 8
  · rw [if_pos h3, show k / 8 = 3 by omega, show k % 8 = k - 8 - 8 - 8 by omega]
  rw [if_neg h3]
  by_cases h4 : k - 8 - 8 - 8 - 8 < 8
  · rw [if_pos h4, show k / 8 = 4 by omega, show k % 8 = k - 8 - 8 - 8 - 8 by omega]
  rw [if_neg h4]
  by_cases h5 : k - 8 - 8 - 8 - 8 - 8 < 8
  · rw [if_pos h5, show k / 8 = 5 by omega, show k % 8 = k - 8 - 8 - 8 - 8 - 8 by omega]
  rw [if_neg h5]
  by_cases h6 : k - 8 - 8 - 8 - 8 - 8 - 8 < 8
  · rw [if_pos h6, show k / 8 = 6 by omega, show k % 8 = k - 8 - 8 - 8 - 8 - 8 - 8 by omega]
  rw [if_neg h6, show k / 8 = 7 by omega, show k % 8 = k - 8 - 8 - 8 - 8 - 8 - 8 - 8 by omega]

theorem payloadBits_bit (fr : Frame) (k : Nat) : (payloadBits fr).getLsbD k = payloadBit fr k := by
  unfold payloadBit
  by_cases h : k < 64
  · rw [payloadBits, bytes_bit fr.data.read k h]
    simp only [h, decide_true, Bool.true_and]
  · rw [BitVec.getLsbD_of_ge _ _ (by omega)]
    simp only [h, decide_false, Bool.false_and]

/-- `bswap64` moves byte `i` to byte `7 - i`. -/
theorem bswap64_bit (v : DWord) (k : Nat) (h : k < 64) :
    (bswap64 v).getLsbD k = v.getLsbD (8 * (7 - k / 8) + k % 8) := by
  have := bytes_bit (fun i => v.extractLsb' (8 * (7 - i)) 8) k h
  simp only [BitVec.getLsbD_extractLsb', show k % 8 < 8 by omega, decide_true, Bool.true_and] at this
  exact this

/-- The field of 40_frame_model.md R133 before any byte swap. -/
theorem field_bit (fr : Frame) (st n k : Nat) :
    (BitVec.ofNat 64 ((payloadWord fr >>> st) % 2 ^ (min n 64))).getLsbD k = signalBit fr st n k := by
  unfold signalBit
  rw [BitVec.getLsbD_ofNat, Nat.testBit_mod_two_pow, Nat.testBit_shiftRight, payloadWord_eq, BitVec.testBit_toNat,
    payloadBits_bit]
  by_cases h : k < min n 64
  · simp [h]
    omega
  · simp [h]

theorem words_toNat (x : DWord) : (lowWord x).toNat + (highWord x).toNat * 2 ^ 32 = x.toNat := by
  rw [lowWord_eq, highWord_eq]
  simp
  omega

end Sys2Proof.Machine
end

