-- ==== Sys2Proof/Laws/PerInstr.lean ====
section
/-! SUPPORT. The family `HeaderForm`: the transfer of every operation has the form its row of the opcode table gives it. -/

namespace Sys2Proof.Laws.HeaderForm

open Sys2Proof Sys2Proof.Machine

/-- A command's packet matches mask and pattern of its row and has the operand count of its row; a port operation is no packet
(30_encoding.md R97, R99, R100, R103). -/
def Statement (i : Instr) : Prop :=
  match opcodeOf i with
  | some op => ∃ h ws, encode i = .command h ws ∧ h &&& op.mask = op.pattern ∧ ws.length = op.nops
  | none => ∀ h ws, encode i ≠ .command h ws

/-- A packet of argument bytes that keep clear of the row's reserved bits has the form. -/
theorem of_header {i : Instr} {op : Opcode} {a b c : Byte} {ws : List Word} (ho : opcodeOf i = some op)
    (he : encode i = .command (header op a b c) ws) (hl : ws.length = op.nops) (ha : a &&& maskA op = 0)
    (hb : b &&& maskB op = 0) (hc : c &&& maskC op = 0) : Statement i := by
  unfold Statement
  rw [ho]
  exact ⟨_, _, he, header_mask ha hb hc, hl⟩

theorem and_zero_byte (b : Byte) : b &&& 0 = 0 := BitVec.and_zero

theorem nop : Statement .nop :=
  of_header rfl rfl rfl rfl rfl rfl

theorem cfgApply (flags : BitVec 5) (r : Word) (sp : Word) (fr : Word) (fsp : Word) : Statement (.cfgApply flags r sp fr fsp) :=
  of_header rfl rfl rfl (by revert flags; decide) rfl rfl

theorem ifOpen (caps : BitVec 4) (clk : Word) (dev : Word) : Statement (.ifOpen caps clk dev) :=
  of_header rfl rfl rfl (by revert caps; decide) rfl rfl

theorem ifClose : Statement .ifClose :=
  of_header rfl rfl rfl rfl rfl rfl

theorem ifState : Statement .ifState :=
  of_header rfl rfl rfl rfl rfl rfl

theorem ifSetId (id : Half) : Statement (.ifSetId id) :=
  of_header rfl rfl rfl rfl (and_zero_byte _) (and_zero_byte _)

theorem statGet (n : BitVec 3) : Statement (.statGet n) :=
  of_header rfl rfl rfl (by revert n; decide) rfl rfl

theorem statBump (n : BitVec 3) : Statement (.statBump n) :=
  of_header rfl rfl rfl (by revert n; decide) rfl rfl

theorem cfgGet : Statement .cfgGet :=
  of_header rfl rfl rfl rfl rfl rfl

theorem frmClear (f : FrameReg) : Statement (.frmClear f) :=
  of_header rfl rfl rfl (by cases f <;> rfl) rfl rfl

theorem frmSetRaw (f : FrameReg) (w : Word) : Statement (.frmSetRaw f w) :=
  of_header rfl rfl rfl (by cases f <;> rfl) rfl rfl

theorem frmGetRaw (f : FrameReg) : Statement (.frmGetRaw f) :=
  of_header rfl rfl rfl (by cases f <;> rfl) rfl rfl

theorem frmSetId (f : FrameReg) (id : Word) : Statement (.frmSetId f id) :=
  of_header rfl rfl rfl (by cases f <;> rfl) rfl rfl

theorem frmGetId (f : FrameReg) : Statement (.frmGetId f) :=
  of_header rfl rfl rfl (by cases f <;> rfl) rfl rfl

theorem frmSetFlags (f : FrameReg) (flags : BitVec 6) : Statement (.frmSetFlags f flags) :=
  of_header rfl rfl rfl (by cases f <;> rfl) (by revert flags; decide) rfl

theorem frmGetFlags (f : FrameReg) : Statement (.frmGetFlags f) :=
  of_header rfl rfl rfl (by cases f <;> rfl) rfl rfl

theorem frmSetLen (f : FrameReg) (n : Byte) : Statement (.frmSetLen f n) :=
  of_header rfl rfl rfl (by cases f <;> rfl) (and_zero_byte _) rfl

theorem frmGetLen (f : FrameReg) : Statement (.frmGetLen f) :=
  of_header rfl rfl rfl (by cases f <;> rfl) rfl rfl

theorem frmSetByte (f : FrameReg) (i : Byte) (v : Byte) : Statement (.frmSetByte f i v) :=
  of_header rfl rfl rfl (by cases f <;> rfl) (and_zero_byte _) (and_zero_byte _)

theorem frmGetByte (f : FrameReg) (i : Byte) : Statement (.frmGetByte f i) :=
  of_header rfl rfl rfl (by cases f <;> rfl) (and_zero_byte _) rfl

theorem frmExtract (f : FrameReg) (be : Bool) (st : Byte) (n : Byte) : Statement (.frmExtract f be st n) :=
  of_header rfl rfl rfl (by cases f <;> cases be <;> rfl) (and_zero_byte _) (and_zero_byte _)

theorem frmSetTs (f : FrameReg) (lo : Word) (hi : Word) (us : Word) : Statement (.frmSetTs f lo hi us) :=
  of_header rfl rfl rfl (by cases f <;> rfl) rfl rfl

theorem frmGetTs (f : FrameReg) : Statement (.frmGetTs f) :=
  of_header rfl rfl rfl (by cases f <;> rfl) rfl rfl

theorem frmSetIf (f : FrameReg) (id : Half) : Statement (.frmSetIf f id) :=
  of_header rfl rfl rfl (by cases f <;> rfl) (and_zero_byte _) (and_zero_byte _)

theorem frmGetIf (f : FrameReg) : Statement (.frmGetIf f) :=
  of_header rfl rfl rfl (by cases f <;> rfl) rfl rfl

theorem btLookup (t : Table) (clk : Word) (rate : Word) (sp : Word) : Statement (.btLookup t clk rate sp) :=
  of_header rfl rfl rfl (by cases t <;> rfl) rfl rfl

theorem btCount (t : Table) (clk : Word) : Statement (.btCount t clk) :=
  of_header rfl rfl rfl (by cases t <;> rfl) rfl rfl

theorem btItem (t : Table) (clk : Word) (k : Word) : Statement (.btItem t clk k) :=
  of_header rfl rfl rfl (by cases t <;> rfl) rfl rfl

theorem btTq (clk : Word) (w3 : Word) (w4 : Word) : Statement (.btTq clk w3 w4) :=
  of_header rfl rfl rfl rfl rfl rfl

theorem dlcEnc (fd : Bool) (n : Byte) : Statement (.dlcEnc fd n) :=
  of_header rfl rfl rfl (by cases fd <;> rfl) (and_zero_byte _) rfl

theorem dlcDec (fd : Bool) (d : Byte) : Statement (.dlcDec fd d) :=
  of_header rfl rfl rfl (by cases fd <;> rfl) (and_zero_byte _) rfl

theorem tsConv (f : FrameReg) (v : Bool) (dts : Word) (lo : Word) (hi : Word) : Statement (.tsConv f v dts lo hi) :=
  of_header rfl rfl rfl (by cases f <;> cases v <;> rfl) rfl rfl

theorem tsGet : Statement .tsGet :=
  of_header rfl rfl rfl rfl rfl rfl

theorem serFrame (f : FrameReg) : Statement (.serFrame f) :=
  of_header rfl rfl rfl (by cases f <;> rfl) rfl rfl

theorem serBitrate (n : BitVec 4) : Statement (.serBitrate n) :=
  of_header rfl rfl rfl rfl (by revert n; decide) rfl

theorem serFdRate (n : BitVec 4) : Statement (.serFdRate n) :=
  of_header rfl rfl rfl rfl (by revert n; decide) rfl

theorem serOpenCh : Statement .serOpenCh :=
  of_header rfl rfl rfl rfl rfl rfl

theorem serCloseCh : Statement .serCloseCh :=
  of_header rfl rfl rfl rfl rfl rfl

theorem desPoll (f : FrameReg) : Statement (.desPoll f) :=
  of_header rfl rfl rfl (by cases f <;> rfl) rfl rfl

theorem desLevel : Statement .desLevel :=
  of_header rfl rfl rfl rfl rfl rfl

theorem rxPush (d : Byte) : Statement (.rxPush d) := nofun

theorem txPop : Statement .txPop := nofun

end Sys2Proof.Laws.HeaderForm
end

