-- ==== Sys2Proof/Tests/Slice0.lean ====
section
/-! SUPPORT. Tests: what `WellFormed` refuses, each constructor's word, one step per operation, and for every statement with
hypotheses a witness. Expected values are from 95_test_vectors.md (its section is named as V 2, V 3.1 and so on) or written out
from the rule named. -/

namespace Sys2Proof.Tests

open Sys2Proof Sys2Proof.Machine

/-! ### `WellFormed` refuses (30_encoding.md R101) -/

theorem test_wf_refuses_cfgApply_samplePoint : (Instr.cfgApply 0 0 0x10000 0 0).WellFormed = false := by decide

theorem test_wf_refuses_cfgApply_fdSamplePoint : (Instr.cfgApply 0 0 0 0 0x10000).WellFormed = false := by decide

theorem test_wf_refuses_statGet : (Instr.statGet 6).WellFormed = false := by decide

theorem test_wf_refuses_statBump : (Instr.statBump 7).WellFormed = false := by decide

theorem test_wf_refuses_frmSetTs : (Instr.frmSetTs .f0 0 0 1000000).WellFormed = false := by decide

theorem test_wf_refuses_serBitrate : (Instr.serBitrate 10).WellFormed = false := by decide

theorem test_wf_refuses_serFdRate : (Instr.serFdRate 3).WellFormed = false := by decide

theorem test_wf_admits_limits :
    (Instr.cfgApply 31 0xFFFFFFFF 0xFFFF 0xFFFFFFFF 0xFFFF).WellFormed = true ∧ (Instr.statGet 5).WellFormed = true ∧
      (Instr.frmSetTs .f1 0 0 999999).WellFormed = true ∧ (Instr.serBitrate 9).WellFormed = true ∧
      (Instr.serFdRate 8).WellFormed = true := by decide

/-! ### Words written out from the "Encoding" lines: `opc` in 31:24, `a` in 23:16, `b` in 15:8, `c` in 7:0 (R91) -/

theorem test_words_interface :
    decode (.command 0x00000000 []) = .instr .nop ∧
    decode (.command 0x01150000 [1, 2, 3, 4]) = .instr (.cfgApply 0b10101 1 2 3 4) ∧
    decode (.command 0x02090000 [80000000, 5]) = .instr (.ifOpen 0b1001 80000000 5) ∧
    decode (.command 0x03000000 []) = .instr .ifClose ∧
    decode (.command 0x04000000 []) = .instr .ifState ∧
    decode (.command 0x0500ABCD []) = .instr (.ifSetId 0xABCD) ∧
    decode (.command 0x06050000 []) = .instr (.statGet 5) ∧
    decode (.command 0x07040000 []) = .instr (.statBump 4) ∧
    decode (.command 0x08000000 []) = .instr .cfgGet := by decide

theorem test_words_frame :
    decode (.command 0x10010000 []) = .instr (.frmClear .f1) ∧
    decode (.command 0x11000000 [0x80000123]) = .instr (.frmSetRaw .f0 0x80000123) ∧
    decode (.command 0x12010000 []) = .instr (.frmGetRaw .f1) ∧
    decode (.command 0x13000000 [0x18DAF110]) = .instr (.frmSetId .f0 0x18DAF110) ∧
    decode (.command 0x14010000 []) = .instr (.frmGetId .f1) ∧
    decode (.command 0x15002A00 []) = .instr (.frmSetFlags .f0 0b101010) ∧
    decode (.command 0x16010000 []) = .instr (.frmGetFlags .f1) ∧
    decode (.command 0x17004100 []) = .instr (.frmSetLen .f0 65) ∧
    decode (.command 0x18010000 []) = .instr (.frmGetLen .f1) ∧
    decode (.command 0x19013FA5 []) = .instr (.frmSetByte .f1 63 0xA5) ∧
    decode (.command 0x1A003F00 []) = .instr (.frmGetByte .f0 63) := by decide

theorem test_words_frame_fields :
    decode (.command 0x1B03100C []) = .instr (.frmExtract .f1 true 16 12) ∧
    decode (.command 0x1C010000 [1, 2, 3]) = .instr (.frmSetTs .f1 1 2 3) ∧
    decode (.command 0x1D000000 []) = .instr (.frmGetTs .f0) ∧
    decode (.command 0x1E010102 []) = .instr (.frmSetIf .f1 0x0102) ∧
    decode (.command 0x1F000000 []) = .instr (.frmGetIf .f0) := by decide

theorem test_words_timing :
    decode (.command 0x20010000 [1, 2, 3]) = .instr (.btLookup .data 1 2 3) ∧
    decode (.command 0x21000000 [1]) = .instr (.btCount .arb 1) ∧
    decode (.command 0x22010000 [1, 2]) = .instr (.btItem .data 1 2) ∧
    decode (.command 0x23000000 [1, 2, 3]) = .instr (.btTq 1 2 3) ∧
    decode (.command 0x30010C00 []) = .instr (.dlcEnc true 12) ∧
    decode (.command 0x31000900 []) = .instr (.dlcDec false 9) ∧
    decode (.command 0x40020000 [1, 2, 3]) = .instr (.tsConv .f0 true 1 2 3) ∧
    decode (.command 0x41000000 []) = .instr .tsGet := by decide

theorem test_words_serial :
    decode (.command 0x50010000 []) = .instr (.serFrame .f1) ∧
    decode (.command 0x51000600 []) = .instr (.serBitrate 6) ∧
    decode (.command 0x52000500 []) = .instr (.serFdRate 5) ∧
    decode (.command 0x53000000 []) = .instr .serOpenCh ∧
    decode (.command 0x54000000 []) = .instr .serCloseCh ∧
    decode (.command 0x60010000 []) = .instr (.desPoll .f1) ∧
    decode (.command 0x61000000 []) = .instr .desLevel ∧
    decode (.rxByte 0x0D) = .instr (.rxPush 0x0D) ∧
    decode .txRequest = .instr .txPop := by decide

/-- V 3.1. -/
theorem test_packets_rejected :
    decode (.command 0x24000000 [0, 0]) = .rejected .unknownOpcode ∧
    decode (.command 0x11020000 []) = .rejected .wrongLength ∧
    decode (.command 0x15004000 []) = .rejected .reservedBit ∧
    decode (.command 0x02100000 [0, 0]) = .rejected .reservedBit := by decide

/-! ### Rows of the opcode table as transfers -/

theorem test_table_rows :
    decodeTableWord 0 0 = some .txPop ∧ decodeTableWord 8 0x41 = some (.rxPush 0x41) ∧
    decodeTableWord 32 0x60010000 = some (.desPoll .f1) ∧
    decodeTableWord 32 0x01020000 = some (.cfgApply 2 0 0 0 0) ∧ decodeTableWord 32 0x09000000 = none := by decide

theorem test_table_row_runs :
    step (State.reset.withFetchWord 8 0x41) = exec (.rxPush 0x41) State.reset := rfl

/-! ### Small states -/

/-- What one command answers, and what else has left the block. -/
def answers (h : Word) (ws : List Word) (s : State) : List Output :=
  match step (presentOp (.command h ws) s) with
  | .next t => t.outputs
  | .fault _ => []
  | .refused _ => []

/-- One field of the state after one operation. -/
def after {α : Type} (i : Instr) (s : State) (field : State → α) (none : α) : α :=
  match exec i s with
  | .next t => field t
  | .fault _ => none
  | .refused _ => none

/-- The frame of V 2, E4: standard identifier 0x123 with two bytes. -/
def frameE4 : Frame := { Frame.zero with rawId := 0x123, length := 2, data := [(0, 1), (1, 2)] }

/-- The line of V 2, E4: `t12320102` and a carriage return. -/
def lineE4 : List Byte := [0x74, 0x31, 0x32, 0x33, 0x32, 0x30, 0x31, 0x30, 0x32, 0x0D]

/-- Eight payload bytes, V 3.2. -/
def frameBytes : Frame :=
  { Frame.zero with
    data := [(0, 0x01), (1, 0x23), (2, 0x45), (3, 0x67), (4, 0x89), (5, 0xAB), (6, 0xCD), (7, 0xEF), (8, 0xFF)] }

/-- A given content of `F0`. -/
def withF0 (fr : Frame) : State := { State.reset with f0 := fr }

/-- Given bytes in the ring. -/
def withRing (l : List Byte) : State := { State.reset with ring := Memory.writeBytes [] 0 l, ringHead := l.length }

/-- `CFG` of V 3.4: listen-only, 500000 bit/s, sample point 875. -/
def configured : State := { State.reset with cfg := ⟨500000, 875, 0, 0, false, true, false, false, false⟩, ifId := 7 }

/-- The same after a successful open at host time 1000000, device time 0 (V 2, E5). -/
def opened : State := { configured with ifState := .opened, mode := 0b00010, hostOff := 1000000, hostNow := 99999999 }

/-- The FD configuration of V 3.4. -/
def configuredFd : State :=
  { State.reset with cfg := ⟨500000, 875, 2000000, 750, true, false, false, false, false⟩, hostNow := 5000000 }

/-- A transmit queue with no room for a line. -/
def fullQueue : State := { withF0 frameE4 with txq := List.replicate 139 0 }

/-- Decidable clauses are enough for the invariant. -/
theorem inv_of {s : State} (h : s.params.WithinBounds ∧ s.f0.length.toNat ≤ 64 ∧ s.f0.timestamp.microseconds.toNat < 1000000 ∧
    s.f0.data.wf = true ∧ s.f0.data.below 64 = true ∧ s.f1.length.toNat ≤ 64 ∧
    s.f1.timestamp.microseconds.toNat < 1000000 ∧ s.f1.data.wf = true ∧ s.f1.data.below 64 = true ∧
    s.ifState ≠ .opening ∧ (s.ifState = .closed → s.mode = 0) ∧ s.ringHead < s.params.ringCap ∧
    s.ringTail < s.params.ringCap ∧ s.ring.wf = true ∧ s.ring.below s.params.ringCap = true ∧
    s.lineLen < s.params.lineCap ∧ s.line.wf = true ∧ s.line.below s.params.lineCap = true ∧
    s.txq.length ≤ s.params.txqCap) : Inv s := by
  obtain ⟨h1, a1, a2, a3, a4, b1, b2, b3, b4, h2, h3, h4, h5, h6, h7, h8, h9, h10, h11⟩ := h
  exact ⟨h1, ⟨a1, a2, a3, a4⟩, ⟨b1, b2, b3, b4⟩, h2, h3, h4, h5, h6, h7, h8, h9, h10, h11⟩

/-! ### One step per operation -/

/-- V 3.1. -/
theorem test_nop : answers 0x00000000 [] State.reset = [.response 0x00000000 []] := by decide

/-- V 3.1. -/
theorem test_nop_reserved_bit : answers 0x00000001 [] State.reset = [.response 0x00000001 []] := by decide

/-- V 3.1: the opcode as received is echoed. -/
theorem test_unknown_opcode : answers 0xFF000000 [1, 2] State.reset = [.response 0x0000FF01 []] := by decide

/-- V 3.4. -/
theorem test_cfgApply : after (.cfgApply 0x02 500000 875 0 0) State.reset State.cfg configured.cfg = configured.cfg ∧
    after (.cfgApply 0x02 500000 875 0 0) State.reset State.outputs [] = [.response 0x0100 []] := by decide

/-- V 3.1: a sample point above 0xFFFF. -/
theorem test_cfgApply_refused :
    answers 0x01000000 [0x0007A120, 0x00010000, 0, 0] State.reset = [.response 0x0101 []] := by decide

/-- V 3.4. -/
theorem test_cfgGet : answers 0x08000000 [] configured = [.response 0x0800 [2, 500000, 875, 0, 0]] := by decide

/-- V 3.4: no `capFD`, data words zero. -/
theorem test_ifOpen : answers 0x02070000 [0x04C4B400, 0] configured =
    [.response 0x0200 [0x04C4B400, 0x0007A120, 0, 0x000A036B, 0x0002000D, 2, 0, 0, 0, 0, 0, 0]] := by decide

/-- V 3.4: both phases found. -/
theorem test_ifOpen_fd : answers 0x02080000 [0x04C4B400, 123456] configuredFd =
    [.response 0x0200 [0x04C4B400, 0x0007A120, 0, 0x000A036B, 0x0002000D, 2,
      0x04C4B400, 0x001E8480, 0x001E8480, 0x000202EE, 0x0005000E, 4]] := by decide

/-- V 3.4: Closed, `MODE` cleared. -/
theorem test_ifClose : after .ifClose opened State.ifState .opening = .closed ∧
    after .ifClose opened State.mode 1 = 0 := by decide

/-- V 3.4: Open, `MODE` 0b00010, `IFID` 7. -/
theorem test_ifState : answers 0x04000000 [] opened = [.response 0x0400 [0x00070202]] := by decide

/-- V 3.4. -/
theorem test_ifSetId : after (.ifSetId 7) State.reset State.ifId 0 = 7 := by decide

/-- 10_state.md R34: index 3 is `rxErrors`. -/
theorem test_statGet : answers 0x06030000 [] { State.reset with counters := ⟨1, 2, 3, 4, 5, 6⟩ } =
    [.response 0x0600 [4]] := by decide

/-- V 3.4: wraps. -/
theorem test_statBump : after (.statBump 0) { State.reset with counters := ⟨0xFFFFFFFF, 2, 3, 4, 5, 6⟩ } State.counters
    ⟨9, 9, 9, 9, 9, 9⟩ = ⟨0, 2, 3, 4, 5, 6⟩ := by decide

/-- V 3.2: the whole register, stale bytes included. -/
theorem test_frmClear : after (.frmClear .f0) (withF0 frameE4) State.f0 frameE4 = Frame.zero := by decide

/-- V 3.2: the other register is untouched. -/
theorem test_frmSetRaw : after (.frmSetRaw .f1 0x80000123) (withF0 frameE4) (fun t => (t.f0.rawId, t.f1.rawId)) (0, 0) =
    (0x123, 0x80000123) := by decide

/-- V 2, E4. -/
theorem test_frmGetRaw : answers 0x12000000 [] (withF0 frameE4) = [.response 0x1200 [0x123]] := by decide

/-- V 3.2: bits 31:29 of the operand dropped, flags kept. -/
theorem test_frmSetId : after (.frmSetId .f0 0xFFFFFFFF) (withF0 { Frame.zero with rawId := 0xC0000000 })
    (fun t => t.f0.rawId) 0 = 0xDFFFFFFF := by decide

/-- V 3.2: 11 bits of a standard frame. -/
theorem test_frmGetId : answers 0x14000000 [] (withF0 { Frame.zero with rawId := 0x00000FFF }) =
    [.response 0x1400 [0x7FF]] := by decide

/-- V 3.2: `EXT`, `FD`, `BRS`; `RTR` and `ERR` cleared, identifier kept. -/
theorem test_frmSetFlags : after (.frmSetFlags .f0 0b011001) (withF0 { Frame.zero with rawId := 0xE0000FFF, direction := .tx })
    (fun t => (t.f0.rawId, t.f0.isFD, t.f0.isBRS, t.f0.direction)) (0, false, false, .tx) =
      (0x80000FFF, true, true, .rx) := by decide

/-- V 3.2: all six. -/
theorem test_frmGetFlags : answers 0x16000000 []
    (withF0 { Frame.zero with rawId := 0xE0000FFF, isFD := true, isBRS := true, direction := .tx }) =
      [.response 0x1600 [0x3F]] := by decide

/-- V 2, E3: 65 becomes 8. -/
theorem test_frmSetLen : after (.frmSetLen .f0 65) State.reset (fun t => t.f0.length) 0 = 8 := by decide

/-- V 3.2. -/
theorem test_frmSetLen_limit : after (.frmSetLen .f0 64) State.reset (fun t => t.f0.length) 0 = 64 := by decide

/-- V 2, E4. -/
theorem test_frmGetLen : answers 0x18000000 [] (withF0 frameE4) = [.response 0x1800 [2]] := by decide

/-- V 3.2: no effect at index 64. -/
theorem test_frmSetByte_outside : after (.frmSetByte .f0 64 0xFF) (withF0 frameE4) State.f0 Frame.zero = frameE4 := by decide

/-- V 3.2: beyond `length`, still stored. -/
theorem test_frmSetByte : after (.frmSetByte .f0 63 0xA5) (withF0 frameE4) (fun t => t.f0.data) [] =
    [(0, 1), (1, 2), (63, 0xA5)] := by decide

/-- V 3.2. -/
theorem test_frmGetByte : answers 0x1A000300 [] (withF0 frameBytes) = [.response 0x1A00 [0x67]] := by decide

/-- V 3.2: crosses a byte boundary. -/
theorem test_frmExtract : answers 0x1B000408 [] (withF0 frameBytes) = [.response 0x1B00 [0x30, 0]] := by decide

/-- V 3.2: bytes 01 23 read big-endian, and the whole word swapped. -/
theorem test_frmExtract_be : answers 0x1B020010 [] (withF0 frameBytes) = [.response 0x1B00 [0x0123, 0]] ∧
    answers 0x1B020040 [] (withF0 frameBytes) = [.response 0x1B00 [0x89ABCDEF, 0x01234567]] := by decide

/-- V 3.2. -/
theorem test_frmSetTs : after (.frmSetTs .f0 0xFFFFFFFF 1 999999) State.reset (fun t => t.f0.timestamp) ⟨0, 0⟩ =
    ⟨0x1FFFFFFFF, 999999⟩ := by decide

/-- V 3.1: a million is refused. -/
theorem test_frmSetTs_refused : answers 0x1C000000 [0, 0, 1000000] State.reset = [.response 0x1C01 []] := by decide

/-- 20_memory.md R69: the low word first. -/
theorem test_frmGetTs : answers 0x1D000000 [] (withF0 { Frame.zero with timestamp := ⟨0x1FFFFFFFF, 5⟩ }) =
    [.response 0x1D00 [0xFFFFFFFF, 1, 5]] := by decide

/-- V 3.2. -/
theorem test_frmSetIf : after (.frmSetIf .f0 0x0102) State.reset (fun t => t.f0.interfaceId) 0 = 0x0102 := by decide

/-- V 3.2. -/
theorem test_frmGetIf : answers 0x1F000000 [] (withF0 { Frame.zero with interfaceId := 0x0102 }) =
    [.response 0x1F00 [0x0102]] := by decide

/-- V 3.3. -/
theorem test_btLookup : answers 0x20000000 [0x04C4B400, 0x0007A120, 0x00000320] State.reset =
    [.response 0x2000 [0x04C4B400, 0x0007A120, 0, 0x00080320, 0x0004000F, 2]] := by decide

/-- V 3.3: the low half alone never matches. -/
theorem test_btLookup_wide : answers 0x20000000 [0x04C4B400, 0x0007A120, 0x0001036B] State.reset =
    [.response 0x2002 []] := by decide

/-- V 3.3: a bitrate that two entries share counts once. -/
theorem test_btCount : answers 0x21000000 [0x04C4B400] State.reset = [.response 0x2100 [2]] := by decide

/-- V 3.3. -/
theorem test_btItem : answers 0x22000000 [0x04C4B400, 1] State.reset = [.response 0x2200 [1000000]] ∧
    answers 0x22000000 [0x04C4B400, 2] State.reset = [.response 0x220B []] := by decide

/-- V 3.3. -/
theorem test_btTq : answers 0x23000000 [0x04C4B400, 0x00030000, 0x0002000D] State.reset =
    [.response 0x2300 [16, 1666666, 32, 875]] := by decide

/-- V 3.3: nothing is cut to 32 bits on the way. -/
theorem test_btTq_wide : answers 0x23000000 [0xFFFFFFFF, 0xFFFFFFFF, 0xFFFFFFFF] State.reset =
    [.response 0x2300 [131071, 0, 4294967295, 500]] := by decide

/-- V 2, E7 and V 3.5. -/
theorem test_dlcEnc : answers 0x30013000 [] State.reset = [.response 0x3000 [0xE]] ∧
    answers 0x30000C00 [] State.reset = [.response 0x3005 []] := by decide

/-- V 2, E7 and V 3.5. -/
theorem test_dlcDec : answers 0x31010F00 [] State.reset = [.response 0x3100 [64]] ∧
    answers 0x31000900 [] State.reset = [.response 0x3106 []] := by decide

/-- V 2, E5. -/
theorem test_tsConv : answers 0x40030000 [500000, 0, 0] opened = [.response 0x4000 [1, 0, 500000]] := by decide

/-- V 3.6: the correction past one and a half wraps, and not at it. -/
theorem test_tsConv_wrap :
    answers 0x40030000 [0x10, 0x80000000, 1] { opened with devT0 := 0xFFFFFF00 } = [.response 0x4000 [1, 0, 272]] ∧
    answers 0x40030000 [0x10, 0x80000001, 1] { opened with devT0 := 0xFFFFFF00 } =
      [.response 0x4000 [4295, 0, 967568]] := by decide

/-- V 2, E5. -/
theorem test_tsGet : answers 0x41000000 [] opened = [.response 0x4100 [1000000, 0, 0]] := by decide

/-- V 2, E4, and the bookkeeping of V 3.7. -/
theorem test_serFrame : after (.serFrame .f0) { withF0 frameE4 with hostNow := 2500000 }
    (fun t => (t.txq, t.f0.timestamp, t.f0.direction)) ([], ⟨0, 0⟩, .rx) = (lineE4, ⟨2, 500000⟩, .tx) := by decide

/-- V 3.7: `ERR_FRAME` is tested before the length. -/
theorem test_serFrame_error : answers 0x50000000 []
    (withF0 { Frame.zero with rawId := 0x20000000, length := 9 }) = [.response 0x5007 []] := by decide

/-- V 3.7. -/
theorem test_serBitrate : after (.serBitrate 6) State.reset State.txq [] = [0x53, 0x36, 0x0D] := by decide

/-- V 3.7. -/
theorem test_serFdRate : after (.serFdRate 8) State.reset State.txq [] = [0x59, 0x38, 0x0D] := by decide

/-- V 3.7. -/
theorem test_serOpenCh : after .serOpenCh State.reset State.txq [] = [0x4F, 0x0D] := by decide

set_option maxRecDepth 4000 in
/-- V 3.7: no room. -/
theorem test_serCloseCh : after .serCloseCh State.reset State.txq [] = [0x43, 0x0D] ∧
    answers 0x54000000 [] fullQueue = [.response 0x5408 []] := by decide

/-- 46_deserializer.md R238 on the line of V 2, E4. -/
theorem test_desPoll : after (.desPoll .f1) (withRing lineE4) (fun t => (t.f1.rawId, t.f1.length, t.f1.data)) (0, 0, []) =
    (0x123, 2, [(0, 1), (1, 2)]) := by decide

/-- V 3.8: the empty line, and no carriage return. -/
theorem test_desPoll_errors : answers 0x60000000 [] (withRing [0x0D]) = [.response 0x600A []] ∧
    answers 0x60000000 [] (withRing [0x74, 0x31]) = [.response 0x6009 []] := by decide

/-- V 3.8. -/
theorem test_desLevel : answers 0x61000000 [] { withRing [0x74, 0x31] with lineLen := 1, txq := [5, 6, 7] } =
    [.response 0x6100 [2, 1, 3]] := by decide

/-- V 2, E6: the byte that would make head catch tail goes too. -/
theorem test_rxPush_overflow : after (.rxPush 0x33) { withRing [0x74, 0x31, 0x32] with params := ⟨4, 139, 139, [], []⟩ }
    (fun t => (t.ringHead, t.ringTail, t.counters.rxOverruns)) (9, 9, 9) = (0, 0, 1) := by decide

/-- 20_memory.md R62. -/
theorem test_rxPush : after (.rxPush 0x74) State.reset (fun t => (t.ring, t.ringHead)) ([], 0) = ([(0, 0x74)], 1) := by decide

/-- R106: the loops end at the answer "empty" and leave the buffers empty; the lone CR fails. -/
theorem test_idioms :
    (match idiomDrain .f0 [1, 2, 3, 4] (withRing (lineE4 ++ [0x0D])) with
      | .next t => ((t.counters.rxCount, t.counters.rxErrors), t.ringTail == t.ringHead, t.f0.timestamp, t.outputs.length)
      | _ => ((0, 0), false, ⟨0, 0⟩, 0)) = ((1, 1), true, ⟨0, 1⟩, 3) ∧
    (match idiomFlush 9 { State.reset with txq := [0x4F, 0x0D] } with
      | .next t => (t.txq, t.outputs)
      | _ => ([0], [])) = ([], [.txByte 0x4F, .txByte 0x0D, .txEmpty]) := by decide

/-- The spellings R105 gives. -/
theorem test_assembly : assemblyText (.frmSetByte .f0 3 66) = "FRM.SETBYTE F0, 3, 66" ∧
    assemblyText (.btLookup .arb 80000000 500000 875) = "BT.LOOKUP ARB; 80000000, 500000, 875" ∧
    assemblyText (.tsConv .f1 true 500000 0 0) = "TS.CONV F1, v=1; 500000, 0, 0" := ⟨rfl, rfl, rfl⟩

/-- V 2, E4: the byte at the front, then "empty". -/
theorem test_txPop : after .txPop { State.reset with txq := [0x74, 0x0D] } (fun t => (t.txq, t.outputs)) ([], []) =
    ([0x0D], [.txByte 0x74]) ∧ after .txPop State.reset State.outputs [] = [.txEmpty] := by decide

/-! ### Witnesses: the hypotheses of each statement, met together -/

theorem witness_ResetGivesEveryStateItsValue :
    ∃ (s : State) (rest : List Input), s.inputs = .reset :: rest ∧ s.ifState = .opened :=
  ⟨{ opened with inputs := [.reset] }, [], rfl, rfl⟩

theorem witness_InvariantHoldsAfterReset :
    (⟨2, 139, 139, [], []⟩ : Params).WithinBounds ∧ Params.example.WithinBounds := by decide

theorem witness_InvariantKeptByEveryStep : ∃ s t : State, Inv s ∧ step s = .next t ∧ t.ringTail ≠ s.ringTail :=
  ⟨presentOp (.command 0x60000000 []) (withRing lineE4), _, inv_of (by decide), rfl, by decide⟩

theorem witness_StepRunsTheDecodedOperation : ∃ (s : State) (now : DWord) (op : PortOp) (rest : List Input) (i : Instr),
    s.inputs = .operation now op :: rest ∧ decode op = .instr i :=
  ⟨{ State.reset with inputs := [.operation 5 (.command 0x60010000 [])] }, 5, _, [], .desPoll .f1, rfl, rfl⟩

theorem witness_NothingPendingChangesNothing : ∃ s : State, s.inputs = [] := ⟨State.reset, rfl⟩

theorem witness_EncodeOfDecode : ∃ (op : PortOp) (i : Instr), decode op = .instr i :=
  ⟨.command 0x1B03100C [], .frmExtract .f1 true 16 12, rfl⟩

theorem witness_TableRowsNeverOverlap :
    ((0x01020000 : Word) &&& Opcode.cfgApply.mask = Opcode.cfgApply.pattern ∧ [1, 2, 3, 4].length = Opcode.cfgApply.nops) ∧
    ∀ op : Opcode, (0x09000000 : Word) &&& op.mask ≠ op.pattern := by
  refine ⟨by decide, fun op => ?_⟩
  cases op <;> decide

theorem witness_IllegalPacketsAnswerErrIllegal :
    (∃ (s : State) (now : DWord) (h : Word) (ws : List Word) (rest : List Input),
      s.inputs = .operation now (.command h ws) :: rest) ∧
    UnknownOpcode 0x09 ∧ UnknownOpcode 0x0F ∧ UnknownOpcode 0x24 ∧ UnknownOpcode 0x32 ∧ UnknownOpcode 0x42 ∧
    UnknownOpcode 0x55 ∧ UnknownOpcode 0xFF ∧
    (Opcode.frmSetRaw.code.toNat = (0x11000000 : Word).toNat / 2 ^ 24 ∧ ([] : List Word).length ≠ Opcode.frmSetRaw.nops) ∧
    (Opcode.frmSetFlags.code.toNat = (0x15004000 : Word).toNat / 2 ^ 24 ∧
      (0x15004000 : Word) &&& Opcode.frmSetFlags.mask &&& 0x00FFFFFF ≠ 0) := by
  unfold UnknownOpcode
  exact ⟨⟨presentOp (.command 0x09000000 []) State.reset, _, _, _, _, rfl⟩, by decide, by decide, by decide, by decide,
    by decide, by decide, by decide, by decide, by decide⟩

theorem witness_IllegalValuesAnswerErrIllegal :
    0xFFFF < (0x10000 : Word).toNat ∧ ((6 : BitVec 3) = 6 ∨ (6 : BitVec 3) = 7) ∧ 1000000 ≤ (1000000 : Word).toNat ∧
    10 ≤ (10 : BitVec 4).toNat ∧ ((3 : BitVec 4) ≠ 2 ∧ (3 : BitVec 4) ≠ 4 ∧ (3 : BitVec 4) ≠ 5 ∧ (3 : BitVec 4) ≠ 8) := by
  decide

set_option maxRecDepth 4000 in
theorem witness_EveryCommandGetsOneResponse :
    (∃ t, opcodeOf (.serFrame .f0) = some .serFrame ∧ exec (.serFrame .f0) fullQueue = .next t) ∧
    decode (.command 0x09000000 []) = .rejected .unknownOpcode ∧ (∃ t, exec (.rxPush 0x0D) State.reset = .next t) ∧
    (∃ t, exec .txPop fullQueue = .next t) ∧ ∃ t, exec .txPop State.reset = .next t :=
  ⟨⟨_, rfl, rfl⟩, rfl, ⟨_, rfl⟩, ⟨_, rfl⟩, ⟨_, rfl⟩⟩

set_option maxRecDepth 4000 in
/-- One error of each of the five forms. -/
theorem witness_ErrorsChangeOnlyWhatRulesList :
    (Inv (withF0 { Frame.zero with length := 9 }) ∧ answers 0x50000000 [] (withF0 { Frame.zero with length := 9 }) =
      [.response (statusNumber Opcode.serFrame.code.toNat Status.errLength.code.toNat) []]) ∧
    (Inv fullQueue ∧ answers 0x53000000 [] fullQueue =
      [.response (statusNumber Opcode.serOpenCh.code.toNat Status.errTxFull.code.toNat) []]) ∧
    (Inv (withRing [0x78, 0x0D]) ∧ answers 0x60000000 [] (withRing [0x78, 0x0D]) =
      [.response (statusNumber Opcode.desPoll.code.toNat Status.errParse.code.toNat) []]) ∧
    (Inv (withRing [0x78]) ∧ answers 0x60000000 [] (withRing [0x78]) =
      [.response (statusNumber Opcode.desPoll.code.toNat Status.errEmpty.code.toNat) []]) ∧
    (Inv State.reset ∧ answers 0x40000000 [0, 0, 0] State.reset =
      [.response (statusNumber Opcode.tsConv.code.toNat Status.errState.code.toNat) []]) :=
  ⟨⟨inv_of (by decide), by decide⟩, ⟨inv_of (by decide), by decide⟩, ⟨inv_of (by decide), by decide⟩,
    ⟨inv_of (by decide), by decide⟩, ⟨inv_of (by decide), by decide⟩⟩

/-- Every clause's premise: each named piece of state does change in some step. -/
theorem witness_OnlyNamedOperationsWriteEachState :
    after (.frmSetId .f0 1) State.reset (fun t => t.f0.rawId) 0 ≠ 0 ∧
    after (.frmSetLen .f0 1) State.reset (fun t => t.f0.length) 0 ≠ 0 ∧
    after (.frmSetByte .f0 0 1) State.reset (fun t => t.f0.data) [] ≠ [] ∧
    after (.frmSetFlags .f0 0b011000) State.reset (fun t => (t.f0.isFD, t.f0.isBRS)) (false, false) ≠ (false, false) ∧
    after (.serFrame .f0) opened (fun t => t.f0.timestamp) ⟨0, 0⟩ ≠ ⟨0, 0⟩ ∧
    after (.frmSetIf .f0 1) State.reset (fun t => t.f0.interfaceId) 0 ≠ 0 ∧
    after (.serFrame .f0) State.reset (fun t => t.f0.direction) .rx ≠ .rx ∧
    after (.cfgApply 0 1 0 0 0) State.reset State.cfg State.reset.cfg ≠ State.reset.cfg ∧
    after .ifClose opened (fun t => (t.ifState, t.mode)) (opened.ifState, opened.mode) ≠ (opened.ifState, opened.mode) ∧
    after (.ifSetId 1) State.reset State.ifId 0 ≠ 0 ∧
    after (.statBump 0) State.reset State.counters Counters.zero ≠ Counters.zero ∧
    after (.ifOpen 0 80000000 5) { configured with hostNow := 3 } (fun t => (t.hostOff, t.devT0)) (0, 0) ≠ (0, 0) ∧
    after (.rxPush 1) State.reset (fun t => (t.ring, t.ringHead)) ([], 0) ≠ ([], 0) ∧
    after (.desPoll .f0) (withRing [1]) (fun t => t.ringTail) 0 ≠ 0 ∧
    after (.desPoll .f0) (withRing [1]) (fun t => (t.line, t.lineLen)) ([], 0) ≠ ([], 0) ∧
    after .serOpenCh State.reset State.txq [] ≠ [] := by decide

theorem witness_HostTimeReadByFourOperations :
    opcodeOf .nop ∉ [some Opcode.ifOpen, some .tsConv, some .serFrame, some .desPoll] ∧
    opcodeOf (.rxPush 0) ∉ [some Opcode.ifOpen, some .tsConv, some .serFrame, some .desPoll] := by decide

theorem witness_OperationsIgnoreTheOtherFrame : frameOf (.frmClear .f0) ≠ some .f1 ∧ frameOf .nop ≠ some .f0 := by decide

/-- Slot 3 of the ring and slot 5 of the line buffer hold no stored byte. -/
theorem witness_SlotContentsCannotBeObserved : ∃ s s' : State, Inv s ∧ Inv s' ∧ SlotsAgree s s' ∧ s ≠ s' :=
  ⟨withRing [0x74], { withRing [0x74] with ring := [(0, 0x74), (3, 0xAA)], line := [(5, 0xBB)] }, inv_of (by decide),
    inv_of (by decide), ⟨rfl, by decide, by decide⟩, by decide⟩

theorem witness_QueriesChangeNothing : opcodeOf (.btTq 1 2 3) = some .btTq ∧
    Opcode.btTq ∈ [Opcode.statGet, .desLevel, .ifState, .cfgGet, .tsGet, .frmGetRaw, .frmGetId, .frmGetFlags, .frmGetLen,
      .frmGetByte, .frmGetTs, .frmGetIf, .frmExtract, .dlcEnc, .dlcDec, .btLookup, .btCount, .btItem, .btTq] := by decide

theorem witness_InterfaceStateMachine :
    (configured.ifState = .closed ∧ after (.ifOpen 0 80000000 0) configured State.ifState .closed = .opened) ∧
    (opened.ifState = .opened ∧ after .ifClose opened State.ifState .opened = .closed) ∧
    after (.ifOpen 0 1 0) configured State.outputs [] = [.response 0x0202 []] ∧
    after (.ifOpen 0 80000000 0) configuredFd State.outputs [] = [.response 0x0203 []] ∧
    (configured.ifState = .closed ∧ configured.mode = 0) ∧
    opcodeOf (.serFrame .f0) ∉ [some Opcode.tsConv, some .ifOpen, some .ifClose, some .ifState] := by decide

theorem witness_IfStateWord : State.reset.ifState ≠ .opening ∧ opened.ifState ≠ .opening := by decide

theorem witness_ConfigApply : (0xFFFF : Word).toNat ≤ 0xFFFF ∧ 0xFFFF < (0x10000 : Word).toNat := by decide

/-- Each clause, on the example catalog image. -/
theorem witness_InterfaceOpen :
    opened.ifState = .opened ∧ (configuredFd.ifState ≠ .opened ∧ configuredFd.cfg.isCanFD = true) ∧
    NoMatch configured.params.catArb 1 500000 875 ∧
    FirstMatch configured.params.catArb 80000000 500000 875 ⟨80000000, 500000, 0, 875, 10, 13, 2, 2⟩ ∧
    ((8 : BitVec 4).getLsbD 3 = true ∧ NoMatch configured.params.catData 80000000 0 0) ∧
    FirstMatch configuredFd.params.catData 80000000 2000000 750 ⟨80000000, 2000000, 2000000, 750, 2, 14, 5, 4⟩ ∧
    (7 : BitVec 4).getLsbD 3 = false := by
  refine ⟨by decide, by decide, ?_, ⟨exampleArb.take 2, exampleArb.drop 3, by decide, ?_, ?_⟩, ?_,
    ⟨[], exampleData.drop 1, by decide, ?_, ?_⟩, by decide⟩ <;> simp only [NoMatch, KeyMatches] <;> decide

theorem witness_StatGetAndBump : 5 < (6 : BitVec 3).toNat ∧
    (counterList Counters.zero)[(5 : BitVec 3).toNat]? = some 0 ∧ (counterList Counters.zero)[(0 : BitVec 3).toNat]? = some 0 := by
  decide

theorem witness_FrameSetLenClamps : (64 : Byte).toNat ≤ 64 ∧ 64 < (65 : Byte).toNat := by decide

theorem witness_FrameSetByte : ((withF0 frameE4).frame .f0).data.wf = true ∧ (63 : Byte).toNat < 64 ∧ 64 ≤ (64 : Byte).toNat := by
  decide

theorem witness_FrameExtractBigEndianBytes : (2 ≤ 2 ∧ 6 + 2 ≤ 8) ∧ 2 ≤ 8 ∧ 0 + 8 ≤ 8 := by decide

theorem witness_FrameTimestamps : 1000000 ≤ (1000000 : Word).toNat ∧ (999999 : Word).toNat < 1000000 := by decide

theorem witness_TimingLookup :
    NoMatch (State.reset.catalog .arb) 80000000 500000 850 ∧
    FirstMatch (State.reset.catalog .arb) 80000000 500000 800 ⟨80000000, 500000, 0, 800, 8, 15, 4, 2⟩ ∧
    catalogKeysDistinct (State.reset.catalog .arb) := by
  refine ⟨?_, ⟨exampleArb.take 3, exampleArb.drop 4, by decide, ?_, ?_⟩, by decide⟩ <;>
    simp only [NoMatch, KeyMatches] <;> decide

/-- V 3.3: two bitrates for 80 MHz; items 0 and 1 exist, item 2 does not. -/
theorem witness_TimingCountAndItem : available State.reset .arb 80000000 = [500000, 1000000] ∧
    available State.reset .arb 24000000 = [] := by decide

theorem witness_TimeQuantumCalculator : (0x0000FFFF : Word).toNat / 2 ^ 16 = 0 ∧ (0x00010000 : Word).toNat / 2 ^ 16 ≠ 0 := by
  decide

theorem witness_DlcEncodeDecode :
    ((64, 0xF) ∈ dlcTable ∧ 64 ∈ legalLengths true) ∧ ((8, 8) ∈ dlcTable ∧ 8 ∈ legalLengths false) ∧
    9 ∉ legalLengths true ∧ 12 ∉ legalLengths false ∧ (∀ p ∈ dlcTable, p.2 = 0x10 → p.1 ∉ legalLengths true) ∧
    ∀ p ∈ dlcTable, p.2 = 9 → p.1 ∉ legalLengths false := by decide

theorem witness_TimestampConversion : configured.ifState ≠ .opened ∧ opened.ifState = .opened := by decide

/-- Elapsed times on both sides of each boundary, with device time 0 at the open (V 3.6). -/
theorem witness_TimestampConversionAccuracy : opened.ifState = .opened ∧ ∀ E ∈ [2 ^ 32 - 1, 2 ^ 32 + 1, 6442450944, 6442450945],
    (BitVec.ofNat 32 E : Word).toNat + (BitVec.ofNat 32 (E / 2 ^ 32) : Word).toNat * 2 ^ 32 = E ∧
    opened.hostOff.toNat + E < 2 ^ 64 ∧ (BitVec.ofNat 32 E : Word).toNat = (opened.devT0.toNat + E) % 2 ^ 32 ∧
    (BitVec.ofNat 32 E : Word) ≠ 0 := by decide

set_option maxRecDepth 4000 in
theorem witness_SerializeFrame :
    (0x20000000 : Word).getLsbD 29 = true ∧ (0x40000000 : Word).getLsbD 30 = true ∧
    ¬ (frameE4.rawId.getLsbD 29 = true ∨ (frameE4.isFD = true ∧ frameE4.rawId.getLsbD 30 = true)) ∧
    (9 : Byte).toNat ∉ legalLengths true ∧ (9 : Byte).toNat ∉ legalLengths false ∧
    frameE4.length.toNat ∈ legalLengths frameE4.isFD ∧
    (withF0 frameE4).txq.length + lineE4.length ≤ (withF0 frameE4).params.txqCap ∧
    fullQueue.params.txqCap < fullQueue.txq.length + lineE4.length := by decide

set_option maxRecDepth 4000 in
theorem witness_SerializeConfiguration :
    (9 : BitVec 4).toNat ≤ 9 ∧ 9 < (10 : BitVec 4).toNat ∧ ((8 : BitVec 4) = 2 ∨ (8 : BitVec 4) = 4 ∨ (8 : BitVec 4) = 5 ∨ (8 : BitVec 4) = 8) ∧
    ¬ ((9 : BitVec 4) = 2 ∨ (9 : BitVec 4) = 4 ∨ (9 : BitVec 4) = 5 ∨ (9 : BitVec 4) = 8) ∧
    State.reset.txq.length + 3 ≤ State.reset.params.txqCap ∧ fullQueue.params.txqCap < fullQueue.txq.length + 2 := by decide

theorem witness_TransmitQueueIsFirstInFirstOut : State.reset.txq = [] ∧
    ({ State.reset with txq := lineE4 } : State).txq = 0x74 :: lineE4.tail ∧
    ({ State.reset with txq := lineE4 ++ [0x43] } : State).txq = lineE4 ++ [0x43] := by decide

/-- A ring with room, and a full one of 4 slots. -/
theorem witness_ReceivePush :
    (Inv State.reset ∧ (State.reset.ringHead + 1) % State.reset.params.ringCap ≠ State.reset.ringTail) ∧
    ∃ s : State, Inv s ∧ (s.ringHead + 1) % s.params.ringCap = s.ringTail :=
  ⟨⟨inv_of (by decide), by decide⟩,
    ⟨{ withRing [0x74, 0x31, 0x32] with params := ⟨4, 139, 139, [], []⟩ }, inv_of (by decide), by decide⟩⟩

/-- The line of V 2, E4 with the meaning the document gives it. -/
theorem lineMeans_E4 : LineMeans lineE4.dropLast ⟨⟨false, false, false, false⟩, 0x123, 2, [1, 2]⟩ := by
  refine ⟨0x74, [0x31, 0x32, 0x33], 0x32, [0x30, 0x31, 0x30, 0x32], [1, 2, 3], 2, by decide, by decide, by decide, by decide,
    by decide, by decide, by decide, by decide, by decide, nofun, fun _ => ?_⟩
  refine ⟨[0x30, 0x31, 0x30, 0x32], [], [0, 1, 0, 2], by decide, by decide, by decide, by decide, fun i hi => ?_⟩
  have : i = 0 ∨ i = 1 := by
    simp only at hi
    omega
  rcases this with rfl | rfl <;> decide

theorem witness_ParserAcceptsExactlyTheLines : ∃ L p, LineMeans L p := ⟨_, _, lineMeans_E4⟩

/-- No line begins with the letter x. -/
theorem not_lineMeans_x (p : ParsedFrame) : ¬ LineMeans [0x78] p := by
  rintro ⟨c, ids, dl, rest, hs, h, he, _⟩
  have := congrArg List.length he
  have hc : (ids ++ dl :: rest).length = 0 := by
    simp only [List.cons_append, List.length_cons, List.length_nil] at this
    omega
  simp at hc

/-- No CR; a CR behind no line; a CR behind a line. -/
theorem witness_DeserializePoll :
    (Inv (withRing [0x78]) ∧ 0x0D ∉ ringBytes (withRing [0x78])) ∧
    (Inv (withRing [0x78, 0x0D]) ∧ ringBytes (withRing [0x78, 0x0D]) = [0x78] ++ 0x0D :: [] ∧ (0x0D : Byte) ∉ [(0x78 : Byte)] ∧
      ∀ p, ¬ LineMeans (lineLeft (withRing [0x78, 0x0D]) [0x78]) p) ∧
    (Inv (withRing lineE4) ∧ ringBytes (withRing lineE4) = lineE4.dropLast ++ 0x0D :: [] ∧ 0x0D ∉ lineE4.dropLast ∧
      ∃ p, LineMeans (lineLeft (withRing lineE4) lineE4.dropLast) p) := by
  refine ⟨⟨inv_of (by decide), by decide⟩, ⟨inv_of (by decide), by decide, by decide, fun p => ?_⟩, inv_of (by decide),
    by decide, by decide, ⟨⟨false, false, false, false⟩, 0x123, 2, [1, 2]⟩, ?_⟩
  · rw [show lineLeft (withRing [0x78, 0x0D]) [0x78] = [0x78] by decide]
    exact not_lineMeans_x p
  · rw [show lineLeft (withRing lineE4) lineE4.dropLast = lineE4.dropLast by decide]
    exact lineMeans_E4

set_option maxRecDepth 8000 in
/-- The same three clauses where the line buffer holds one byte less than it can: the first byte moved overflows it (R243). -/
theorem witness_DeserializePoll_overflow :
    let full (l : List Byte) : State := { withRing l with lineLen := 138 }
    (Inv (full [0x78]) ∧ 0x0D ∉ ringBytes (full [0x78]) ∧ lineOverflows (full [0x78]) [0x78] = 1) ∧
    (Inv (full [0x78, 0x78, 0x0D]) ∧ ringBytes (full [0x78, 0x78, 0x0D]) = [0x78, 0x78] ++ 0x0D :: [] ∧
      (0x0D : Byte) ∉ [(0x78 : Byte), 0x78] ∧ lineOverflows (full [0x78, 0x78, 0x0D]) [0x78, 0x78] = 1 ∧
      ∀ p, ¬ LineMeans (lineLeft (full [0x78, 0x78, 0x0D]) [0x78, 0x78]) p) ∧
    (Inv (full (0x78 :: lineE4)) ∧ ringBytes (full (0x78 :: lineE4)) = (0x78 :: lineE4.dropLast) ++ 0x0D :: [] ∧
      0x0D ∉ 0x78 :: lineE4.dropLast ∧ lineOverflows (full (0x78 :: lineE4)) (0x78 :: lineE4.dropLast) = 1 ∧
      ∃ p, LineMeans (lineLeft (full (0x78 :: lineE4)) (0x78 :: lineE4.dropLast)) p) := by
  refine ⟨⟨inv_of (by decide), by decide, by decide⟩,
    ⟨inv_of (by decide), by decide, by decide, by decide, fun p => ?_⟩, inv_of (by decide), by decide, by decide, by decide,
    ⟨⟨false, false, false, false⟩, 0x123, 2, [1, 2]⟩, ?_⟩
  · rw [show lineLeft { withRing [0x78, 0x78, 0x0D] with lineLen := 138 } [0x78, 0x78] = [0x78] by decide]
    exact not_lineMeans_x p
  · rw [show lineLeft { withRing (0x78 :: lineE4) with lineLen := 138 } (0x78 :: lineE4.dropLast) = lineE4.dropLast by decide]
    exact lineMeans_E4

/-- R243: the byte that fills the line buffer goes with it, and the poll goes on to the line behind. -/
theorem test_desPoll_overflow : after (.desPoll .f0) { withRing (0x78 :: lineE4) with lineLen := 138 }
    (fun t => (t.counters.rxOverruns, t.counters.rxCount, t.lineLen, t.ringTail, t.f0.length)) (9, 9, 9, 9, 9) =
      (1, 1, 0, 11, 2) := by decide

theorem witness_DeserializerLevel : Inv (withRing lineE4) ∧ (ringBytes (withRing lineE4)).length < 2 ^ 32 ∧
    (withRing lineE4).lineLen < 2 ^ 32 ∧ (withRing lineE4).txq.length < 2 ^ 32 := ⟨inv_of (by decide), by decide⟩

theorem witness_SerializedLineParsesBack : encodeLine frameE4 = .ok lineE4 := rfl

theorem lineOf_E4 : LineOf frameE4 lineE4 := by
  refine ⟨0x74, [0x31, 0x32, 0x33], 2, [0x30, 0x31, 0x30, 0x32], by decide, by decide, by decide, fun j hj => ?_, by decide,
    by decide, fun i hi => ?_⟩
  · have : j = 0 ∨ j = 1 ∨ j = 2 := by
      simp only [List.length_cons, List.length_nil] at hj
      omega
    rcases this with rfl | rfl | rfl <;> decide
  · have : i = 0 ∨ i = 1 := by
      simp only [List.length_cons, List.length_nil] at hi
      omega
    rcases this with rfl | rfl <;> decide

theorem witness_FrameSurvivesTheLoop : ∃ (s : State) (L : List Byte), Inv s ∧ LineOf (s.frame .f0) L ∧
    (s.frame .f0).rawId.getLsbD 29 = false ∧ ¬ ((s.frame .f0).isFD = true ∧ (s.frame .f0).rawId.getLsbD 30 = true) ∧
    (s.frame .f0).length.toNat ∈ legalLengths (s.frame .f0).isFD ∧ s.txq = [] ∧ ringBytes s = [] ∧ s.lineLen = 0 ∧
    L.length < s.params.ringCap :=
  ⟨withF0 frameE4, lineE4, inv_of (by decide), lineOf_E4, by decide⟩

theorem witness_PseudoInstructionsExpand : ([7, 8, 9] : List Byte)[2]? = some 9 := by decide

theorem witness_SetDataWritesTheBytes : (List.replicate 64 (5 : Byte)).length ≤ 64 ∧
    ((withF0 frameE4).frame .f0).data.wf = true := by decide

theorem witness_HelperFunctions : hexVal 0x39 = some 9 ∧ hexVal 0x46 = some 15 ∧ hexVal 0x66 = some 15 ∧ 15 ≤ 15 := by decide

end Sys2Proof.Tests
end

section
/-! PROOFS. The helper functions of 00_scope.md R10. -/

namespace Sys2Proof.Machine

/-- `hexval` of R10, one disjunct per range of digits; the ranges exclude each other, so the order of the tests is
irrelevant. -/
theorem hexVal_eq_some_iff (c : Byte) (h : Nat) : hexVal c = some h ↔
    (0x30 ≤ c.toNat ∧ c.toNat ≤ 0x39 ∧ h = c.toNat - 0x30) ∨
      (0x41 ≤ c.toNat ∧ c.toNat ≤ 0x46 ∧ h = c.toNat - 0x41 + 10) ∨
      (0x61 ≤ c.toNat ∧ c.toNat ≤ 0x66 ∧ h = c.toNat - 0x61 + 10) := by
  unfold hexVal
  -- One goal for each range of digits, and one for a byte in none of them.
  split_ifs with decimal upper lower
  all_goals simp only [Option.some.injEq, false_iff]
  all_goals omega

/-- `hexval` undoes `hexchar` on the sixteen digits. -/
theorem hexVal_hexChar {n : Nat} (h : n < 16) : hexVal (hexChar n) = some n := by
  rw [hexChar_upper h]
  exact (hexVal_upper h).1

/-- Settles O56: R10's three helpers, each by the lemma about it. -/
theorem helperFunctions : Obligations.HelperFunctions :=
  ⟨hexVal_eq_some_iff,
    fun _ hn => ⟨hexChar_upper (Nat.lt_succ_of_le hn), hexVal_hexChar (Nat.lt_succ_of_le hn)⟩,
    splitMicros_spec⟩

end Sys2Proof.Machine
end

section
/-! PROOFS. Packets that are no operation (30_encoding.md R98, R99, R100): when the decoder rejects one, and the answer. -/

namespace Sys2Proof.Machine

variable {h : Word} {ws : List Word} {op : Opcode} {e : DecodeError}

/-! ### When the decoder rejects a packet -/

/-- Field `opc` of a header as a number (30_encoding.md R91). -/
theorem headerOpc_toNat (h : Word) : (headerOpc h).toNat = h.toNat / 2 ^ 24 := by
  have := h.isLt
  rw [headerOpc, BitVec.extractLsb'_toNat, Nat.shiftRight_eq_div_pow]
  omega

theorem headerOpc_eq_code (hc : op.code.toNat = h.toNat / 2 ^ 24) : headerOpc h = op.code :=
  BitVec.eq_of_toNat_eq ((headerOpc_toNat h).trans hc.symm)

/-- The unassigned ranges of R98 hold no row's opcode. -/
theorem not_unknownOpcode_code (op : Opcode) : ¬ UnknownOpcode op.code.toNat := by
  unfold UnknownOpcode
  cases op <;> decide

theorem pattern_and_argumentBits (op : Opcode) : op.pattern &&& 0x00FFFFFF = 0 := by
  cases op <;> decide

theorem decode_of_unknownOpcode (hu : UnknownOpcode (h.toNat / 2 ^ 24)) :
    decode (.command h ws) = .rejected .unknownOpcode := by
  have hnone : Opcode.ofCode (headerOpc h) = none := by
    refine Option.eq_none_iff_forall_ne_some.2 fun op hop => not_unknownOpcode_code op ?_
    rwa [code_of_ofCode hop, headerOpc_toNat]
  simp only [decode, decodeCommand, hnone]

theorem decode_of_length_ne (hc : op.code.toNat = h.toNat / 2 ^ 24) (hl : ws.length ≠ op.nops) :
    decode (.command h ws) = .rejected .wrongLength := by
  simp only [decode, decodeCommand, headerOpc_eq_code hc, ofCode_code, if_pos hl]

/-- A row's pattern is 0 in the argument bytes, so a packet with a reserved bit set does not match its row (R99). -/
theorem decode_of_reserved (hc : op.code.toNat = h.toNat / 2 ^ 24) (hl : ws.length = op.nops)
    (hr : h &&& op.mask &&& 0x00FFFFFF ≠ 0) : decode (.command h ws) = .rejected .reservedBit := by
  have hm : h &&& op.mask ≠ op.pattern := fun hm => hr (by rw [hm, pattern_and_argumentBits])
  simp only [decode, decodeCommand, headerOpc_eq_code hc, ofCode_code, if_neg (not_not_intro hl), if_pos hm]

/-- Any of the three causes makes the packet no operation; a wrong length hides a reserved bit (60_exceptions.md R263). -/
theorem decode_illegal (hi : UnknownOpcode (h.toNat / 2 ^ 24) ∨ ∃ op : Opcode, op.code.toNat = h.toNat / 2 ^ 24 ∧
    (ws.length ≠ op.nops ∨ h &&& op.mask &&& 0x00FFFFFF ≠ 0)) : ∃ e, decode (.command h ws) = .rejected e := by
  obtain hu | ⟨op, hc, hbad⟩ := hi
  · exact ⟨_, decode_of_unknownOpcode hu⟩
  · by_cases hl : ws.length = op.nops
    · exact ⟨_, decode_of_reserved hc hl (hbad.resolve_left (not_not_intro hl))⟩
    · exact ⟨_, decode_of_length_ne hc hl⟩

/-! ### The answer to a rejected packet -/

theorem illegalPacket_eq (h : Word) (s : State) :
    illegalPacket h s = .next (s.answer (statusNumber (h.toNat / 2 ^ 24) 0x01) []) := by
  rw [illegalPacket, emit_eq_answer, statusWord_eq, headerOpc_toNat]
  rfl

theorem runOp_of_rejected (s : State) (hd : decode (.command h ws) = .rejected e) :
    runOp (.command h ws) s = .next (s.answer (statusNumber (h.toNat / 2 ^ 24) 0x01) []) := by
  simp only [runOp, hd, rejectOp, illegalPacket_eq]

theorem step_of_operation {s : State} {now : DWord} {op : PortOp} {rest : List Input}
    (hs : s.inputs = .operation now op :: rest) : step s = runOp op (takeInput s now rest) := by
  simp only [step, hs]

/-- Settles O11: the decoder rejects the packet, whichever of the causes it has, and every rejection has the one answer. -/
theorem illegalPacketsAnswerErrIllegal : Obligations.IllegalPacketsAnswerErrIllegal := by
  intro s now h ws rest hs hi
  obtain ⟨e, hd⟩ := decode_illegal hi
  rw [step_of_operation hs, runOp_of_rejected _ hd, takeInput]

end Sys2Proof.Machine
end

section
/-! PROOFS. The packets of the frame model operations (40_frame_model.md R120 to R136): the header words their rules write. -/

namespace Sys2Proof.Machine

variable {op : Opcode} {i : Instr} {h : Word} {a b c : Byte} {ws : List Word}

/-- A packet is the operation when its word is the operation's header and the arguments read back as the operands: that the row
accepts the packet is the family `HeaderForm`. -/
theorem carries_of_header (hform : Laws.HeaderForm.Statement i) (ho : opcodeOf i = some op)
    (he : encode i = .command (header op a b c) ws) (hw : h = header op a b c)
    (hi : instrOf op (header op a b c) ws = i) : Carries h ws i := by
  simp only [Laws.HeaderForm.Statement, ho] at hform
  obtain ⟨h', ws', he', hmask, hlen⟩ := hform
  obtain ⟨rfl, rfl⟩ : header op a b c = h' ∧ ws = ws' := by simpa using he.symm.trans he'
  simp only [Carries, decode, decodeCommand, hw, headerOpc_header, ofCode_code, hlen, hmask, ne_eq, not_true, if_false, hi]

/-! ### Fields read back -/

@[simp] theorem headerFrame_frameArg (op : Opcode) (f : FrameReg) (b c : Byte) :
    headerFrame (header op (frameArg f) b c) = f := by
  rw [headerFrame_header]
  cases f <;> rfl

@[simp] theorem headerFrame_frameBoolArg (op : Opcode) (f : FrameReg) (x : Bool) (b c : Byte) :
    headerFrame (header op (frameBoolArg f x) b c) = f := by
  rw [headerFrame_header]
  cases f <;> cases x <;> rfl

theorem header_bit17_frameBoolArg (op : Opcode) (f : FrameReg) (x : Bool) (b c : Byte) :
    (header op (frameBoolArg f x) b c).getLsbD 17 = x := by
  rw [header_bitA op _ b c (k := 1) (by omega)]
  cases f <;> cases x <;> rfl

/-! ### Headers with `f` in argument byte `a`, as the rules write them -/

theorem header_frame_bytes (op : Opcode) (f : FrameReg) (b c : Byte) :
    op.pattern ||| fieldF f ||| fieldAt 8 b ||| fieldAt 0 c = header op (frameArg f) b c := by
  rw [header_or, fieldAt_frame, Opcode.pattern]

theorem header_frame_byte (op : Opcode) (f : FrameReg) (b : Byte) :
    op.pattern ||| fieldF f ||| fieldAt 8 b = header op (frameArg f) b 0 := by
  rw [← header_frame_bytes, fieldAt_zero]
  exact BitVec.or_zero.symm

theorem header_frame (op : Opcode) (f : FrameReg) : op.pattern ||| fieldF f = header op (frameArg f) 0 0 := by
  rw [← header_frame_byte, fieldAt_zero]
  exact BitVec.or_zero.symm

theorem header_frame_flags (op : Opcode) (f : FrameReg) (g : BitVec 6) :
    op.pattern ||| fieldF f ||| fieldAt 8 g = header op (frameArg f) (g.setWidth 8) 0 := by
  rw [← header_frame_byte, fieldAt_setWidth 8 g (by omega)]

theorem header_frame_half (op : Opcode) (f : FrameReg) (v : Half) :
    op.pattern ||| fieldF f ||| fieldAt 0 v = header op (frameArg f) (halfHigh v) (halfLow v) := by
  rw [← header_frame_bytes, BitVec.or_assoc _ (fieldAt 8 _), fieldAt_half]

theorem header_frameBool_bytes (op : Opcode) (f : FrameReg) (x : Bool) (b c : Byte) :
    op.pattern ||| fieldF f ||| fieldBit 17 x ||| fieldAt 8 b ||| fieldAt 0 c = header op (frameBoolArg f x) b c := by
  rw [header_or, fieldAt_frameBool, Opcode.pattern, ← BitVec.or_assoc _ (fieldF f)]

/-! ### The packet of each operation -/

theorem carries_frmClear (f : FrameReg) : Carries (0x10000000 ||| fieldF f) [] (.frmClear f) :=
  carries_of_header (Laws.HeaderForm.frmClear f) rfl rfl (header_frame .frmClear f) (by simp [instrOf])

theorem carries_frmSetRaw (f : FrameReg) (w : Word) : Carries (0x11000000 ||| fieldF f) [w] (.frmSetRaw f w) :=
  carries_of_header (Laws.HeaderForm.frmSetRaw f w) rfl rfl (header_frame .frmSetRaw f) (by simp [instrOf])

theorem carries_frmGetRaw (f : FrameReg) : Carries (0x12000000 ||| fieldF f) [] (.frmGetRaw f) :=
  carries_of_header (Laws.HeaderForm.frmGetRaw f) rfl rfl (header_frame .frmGetRaw f) (by simp [instrOf])

theorem carries_frmSetId (f : FrameReg) (id : Word) : Carries (0x13000000 ||| fieldF f) [id] (.frmSetId f id) :=
  carries_of_header (Laws.HeaderForm.frmSetId f id) rfl rfl (header_frame .frmSetId f) (by simp [instrOf])

theorem carries_frmGetId (f : FrameReg) : Carries (0x14000000 ||| fieldF f) [] (.frmGetId f) :=
  carries_of_header (Laws.HeaderForm.frmGetId f) rfl rfl (header_frame .frmGetId f) (by simp [instrOf])

theorem carries_frmSetFlags (f : FrameReg) (g : BitVec 6) :
    Carries (0x15000000 ||| fieldF f ||| fieldAt 8 g) [] (.frmSetFlags f g) :=
  carries_of_header (Laws.HeaderForm.frmSetFlags f g) rfl rfl (header_frame_flags .frmSetFlags f g) (by
    simp [instrOf, header_fieldB])

theorem carries_frmGetFlags (f : FrameReg) : Carries (0x16000000 ||| fieldF f) [] (.frmGetFlags f) :=
  carries_of_header (Laws.HeaderForm.frmGetFlags f) rfl rfl (header_frame .frmGetFlags f) (by simp [instrOf])

theorem carries_frmSetLen (f : FrameReg) (n : Byte) :
    Carries (0x17000000 ||| fieldF f ||| fieldAt 8 n) [] (.frmSetLen f n) :=
  carries_of_header (Laws.HeaderForm.frmSetLen f n) rfl rfl (header_frame_byte .frmSetLen f n) (by
    simp [instrOf, headerB_header])

theorem carries_frmGetLen (f : FrameReg) : Carries (0x18000000 ||| fieldF f) [] (.frmGetLen f) :=
  carries_of_header (Laws.HeaderForm.frmGetLen f) rfl rfl (header_frame .frmGetLen f) (by simp [instrOf])

theorem carries_frmSetByte (f : FrameReg) (i v : Byte) :
    Carries (0x19000000 ||| fieldF f ||| fieldAt 8 i ||| fieldAt 0 v) [] (.frmSetByte f i v) :=
  carries_of_header (Laws.HeaderForm.frmSetByte f i v) rfl rfl (header_frame_bytes .frmSetByte f i v) (by
    simp [instrOf, headerB_header, headerC_header])

theorem carries_frmGetByte (f : FrameReg) (i : Byte) :
    Carries (0x1A000000 ||| fieldF f ||| fieldAt 8 i) [] (.frmGetByte f i) :=
  carries_of_header (Laws.HeaderForm.frmGetByte f i) rfl rfl (header_frame_byte .frmGetByte f i) (by
    simp [instrOf, headerB_header])

theorem carries_frmExtract (f : FrameReg) (be : Bool) (st n : Byte) :
    Carries (0x1B000000 ||| fieldF f ||| fieldBit 17 be ||| fieldAt 8 st ||| fieldAt 0 n) [] (.frmExtract f be st n) :=
  carries_of_header (Laws.HeaderForm.frmExtract f be st n) rfl rfl (header_frameBool_bytes .frmExtract f be st n) (by
    simp only [instrOf, headerFrame_frameBoolArg, header_bit17_frameBoolArg, headerB_header, headerC_header])

theorem carries_frmSetTs (f : FrameReg) (lo hi us : Word) :
    Carries (0x1C000000 ||| fieldF f) [lo, hi, us] (.frmSetTs f lo hi us) :=
  carries_of_header (Laws.HeaderForm.frmSetTs f lo hi us) rfl rfl (header_frame .frmSetTs f) (by simp [instrOf])

theorem carries_frmGetTs (f : FrameReg) : Carries (0x1D000000 ||| fieldF f) [] (.frmGetTs f) :=
  carries_of_header (Laws.HeaderForm.frmGetTs f) rfl rfl (header_frame .frmGetTs f) (by simp [instrOf])

theorem carries_frmSetIf (f : FrameReg) (id : Half) :
    Carries (0x1E000000 ||| fieldF f ||| fieldAt 0 id) [] (.frmSetIf f id) :=
  carries_of_header (Laws.HeaderForm.frmSetIf f id) rfl rfl (header_frame_half .frmSetIf f id) (by
    simp [instrOf, headerBC_header, half_split])

theorem carries_frmGetIf (f : FrameReg) : Carries (0x1F000000 ||| fieldF f) [] (.frmGetIf f) :=
  carries_of_header (Laws.HeaderForm.frmGetIf f) rfl rfl (header_frame .frmGetIf f) (by simp [instrOf])

end Sys2Proof.Machine
end

section
/-! PROOFS. The frame model operations (40_frame_model.md): what each writes to its register and what it answers. -/

namespace Sys2Proof.Machine

variable {f : FrameReg} {s : State} {fr : Frame}

/-! ### The bits of `rawId` (10_state.md R21, R22) -/

theorem idMask_bit (k : Nat) : (0x1FFFFFFF : Word).getLsbD k = decide (k < 29) :=
  Nat.testBit_two_pow_sub_one 29 k

/-- R123: the identifier bits of one word under the three flag bits of another. -/
theorem setId_bit (raw id : Word) (k : Nat) :
    ((raw &&& 0xE0000000) ||| (id &&& 0x1FFFFFFF)).getLsbD k = if k < 29 then id.getLsbD k else raw.getLsbD k := by
  have hflags : (0xE0000000 : Word) = ~~~0x1FFFFFFF := rfl
  rw [hflags, BitVec.getLsbD_or, BitVec.getLsbD_and, BitVec.getLsbD_and, BitVec.getLsbD_not, idMask_bit]
  by_cases hk : k < 29
  · simp [hk]
  · by_cases h32 : k < 32
    · simp [hk, h32]
    · simp [hk, BitVec.getLsbD_of_ge raw k (by omega)]

theorem setFlags_isExtended (fr : Frame) (g : BitVec 6) : (fr.setFlags g).isExtended = g.getLsbD 0 := by
  simp only [Frame.isExtended, Frame.setFlags, BitVec.getLsbD_append]
  simp

theorem setFlags_isRTR (fr : Frame) (g : BitVec 6) : (fr.setFlags g).isRTR = g.getLsbD 1 := by
  simp only [Frame.isRTR, Frame.setFlags, BitVec.getLsbD_append]
  simp

theorem setFlags_isErrorFrame (fr : Frame) (g : BitVec 6) : (fr.setFlags g).isErrorFrame = g.getLsbD 2 := by
  simp only [Frame.isErrorFrame, Frame.setFlags, BitVec.getLsbD_append]
  simp

theorem setFlags_idBit (fr : Frame) (g : BitVec 6) {k : Nat} (h : k < 29) :
    (fr.setFlags g).rawId.getLsbD k = fr.rawId.getLsbD k := by
  rw [Frame.setFlags, BitVec.getLsbD_append, if_pos h]
  simp [h]

/-- R107: the frame flags as a number. -/
theorem frameFlags_toNat (fr : Frame) : fr.flags.toNat =
    (fr.rawId.getLsbD 31).toNat + 2 * (fr.rawId.getLsbD 30).toNat + 4 * (fr.rawId.getLsbD 29).toNat +
      8 * fr.isFD.toNat + 16 * fr.isBRS.toNat + (if fr.direction = .tx then 32 else 0) := by
  have hdir : (if fr.direction = .tx then 32 else 0) = 32 * fr.direction.bit.toNat := by cases fr.direction <;> rfl
  simp only [Frame.flags, Frame.isExtended, Frame.isRTR, Frame.isErrorFrame, toNat_append_lt, BitVec.toNat_ofBool, hdir]
  omega

/-! ### Writes -/

/-- Settles O28: the register each operation leaves is the one its rule writes out. -/
theorem frameClearSetRawSetIf : Obligations.FrameClearSetRawSetIf := fun f _ =>
  ⟨⟨carries_frmClear f, Frame.zero, rfl, rfl, rfl, fun _ _ => rfl, rfl, rfl, rfl, rfl, rfl⟩,
    fun w => ⟨carries_frmSetRaw f w, rfl⟩,
    fun id => ⟨carries_frmSetIf f id, rfl⟩⟩

/-- Settles O29, by `setId_bit`. -/
theorem frameSetId : Obligations.FrameSetId := fun f id _ =>
  ⟨carries_frmSetId f id, _, rfl,
    fun k hk => (setId_bit _ id k).trans (if_pos hk),
    fun k hk => (setId_bit _ id k).trans (if_neg (Nat.not_lt.2 hk))⟩

/-- Settles O30, by the views of the written `rawId`; the other three flags are fields of their own. -/
theorem frameSetFlags : Obligations.FrameSetFlags := fun f g _ =>
  ⟨carries_frmSetFlags f g, _, rfl, setFlags_isExtended .., setFlags_isRTR .., setFlags_isErrorFrame ..,
    fun _ hk => setFlags_idBit _ g hk⟩

theorem clampLength_le {n : Byte} (h : n.toNat ≤ 64) : clampLength n = n := if_pos h

theorem clampLength_gt {n : Byte} (h : 64 < n.toNat) : clampLength n = 8 := if_neg (Nat.not_le.2 h)

theorem exec_frmSetLen (f : FrameReg) (n : Byte) (s : State) : exec (.frmSetLen f n) s =
    .next ((s.setFrame f { s.frame f with length := clampLength n }).answer 0x1700 []) := rfl

/-- Settles O31, by the two cases of the clamp. -/
theorem frameSetLenClamps : Obligations.FrameSetLenClamps := fun f n s =>
  ⟨carries_frmSetLen f n,
    fun h => by rw [exec_frmSetLen, clampLength_le h],
    fun h => by rw [exec_frmSetLen, clampLength_gt h]⟩

theorem exec_frmSetByte (f : FrameReg) (i v : Byte) (s : State) : exec (.frmSetByte f i v) s =
    .next ((s.setFrame f ((s.frame f).writeByte i.toNat v)).answer 0x1900 []) := rfl

/-- Settles O32: below 64 by the laws of `Memory.write`, from 64 on because `FDATA` stays as it is. -/
theorem frameSetByte : Obligations.FrameSetByte := by
  intro f i v s hwf
  refine ⟨carries_frmSetByte f i v, ?_⟩
  rw [exec_frmSetByte]
  by_cases hi : i.toNat < 64
  · rw [writeByte_lt hi]
    exact ⟨_, rfl, write_wf hwf, fun hge => absurd hi (Nat.not_lt.2 hge), fun _ => read_write_same hwf,
      fun _ hj => read_write_other hwf hj.symm⟩
  · rw [writeByte_ge (Nat.not_lt.1 hi)]
    exact ⟨_, rfl, hwf, fun _ => rfl, fun hlt => absurd hlt hi, fun _ _ => rfl⟩

/-! ### Reads -/

/-- Settles O33: the answered words as numbers. -/
theorem frameGetters : Obligations.FrameGetters := by
  intro f s fr
  have hbyte : ∀ b : Byte, (b.setWidth 32).toNat = b.toNat := fun b => BitVec.toNat_setWidth_of_le (by omega)
  refine ⟨⟨carries_frmGetRaw f, rfl⟩, ⟨carries_frmGetId f, _, rfl, id_toNat fr⟩,
    ⟨carries_frmGetFlags f, _, rfl, ?_⟩, ⟨carries_frmGetLen f, _, rfl, hbyte _⟩,
    fun i => ⟨carries_frmGetByte f i, _, rfl, ?_⟩, ⟨carries_frmGetIf f, _, rfl, ?_⟩⟩
  · exact (BitVec.toNat_setWidth_of_le (by omega)).trans (frameFlags_toNat fr)
  · rw [hbyte]
    by_cases hi : i.toNat < 64
    · rw [readByte_lt hi, if_pos hi]
    · rw [readByte_ge (Nat.not_lt.1 hi), if_neg hi]
      rfl
  · exact BitVec.toNat_setWidth_of_le (by omega)

/-! ### Extraction -/

/-- The result words of a 64-bit value hold its bits, the low word first (20_memory.md R69). -/
theorem words_bit (x : DWord) {k : Nat} (h : k < 64) :
    (if k < 32 then (lowWord x).getLsbD k else (highWord x).getLsbD (k - 32)) = x.getLsbD k := by
  unfold lowWord highWord
  split
  · next hlow => simp [hlow]
  · next hlow =>
    have hhigh : k - 32 < 32 := by omega
    have hk : 32 + (k - 32) = k := by omega
    simp [hhigh, hk]

/-- R133 bit by bit: the field itself, or its byte swap shifted right by `64 - Lc`. -/
theorem extractRaw_bit (fr : Frame) (st n : Nat) (be : Bool) (k : Nat) : (extractRaw fr st n be).getLsbD k =
    if be = true ∧ 8 < min n 64 then
      decide (k + (64 - min n 64) < 64) && signalBit fr st n
        (8 * (7 - (k + (64 - min n 64)) / 8) + (k + (64 - min n 64)) % 8)
    else signalBit fr st n k := by
  unfold extractRaw
  by_cases hswap : be = true ∧ 8 < min n 64
  · rw [if_pos hswap, if_pos hswap, BitVec.getLsbD_ushiftRight, Nat.add_comm (64 - min n 64) k]
    by_cases hq : k + (64 - min n 64) < 64
    · rw [bswap64_bit _ _ hq, field_bit, decide_eq_true hq, Bool.true_and]
    · rw [BitVec.getLsbD_of_ge _ _ (Nat.not_lt.1 hq), decide_eq_false hq, Bool.false_and]
  · rw [if_neg hswap, if_neg hswap, field_bit]

/-- Settles O34: the two words hold the bits of `extractRaw`. -/
theorem frameExtract : Obligations.FrameExtract := fun f be st n _ =>
  ⟨carries_frmExtract f be st n, _, _, rfl, fun k hk => (words_bit _ hk).trans (extractRaw_bit _ _ _ be k)⟩

/-! ### Timestamps -/

theorem joinWords_eq (lo hi : Word) : joinWords lo hi = BitVec.ofNat 64 (lo.toNat + hi.toNat * 2 ^ 32) := by
  rw [← joinWords_toNat, BitVec.ofNat_toNat, BitVec.setWidth_eq]

theorem exec_frmSetTs_refused {lo hi us : Word} (h : 1000000 ≤ us.toNat) :
    exec (.frmSetTs f lo hi us) s = .next (s.answer 0x1C01 []) := if_pos h

theorem exec_frmSetTs {lo hi us : Word} (h : us.toNat < 1000000) : exec (.frmSetTs f lo hi us) s =
    .next ((s.setFrame f { s.frame f with timestamp := ⟨joinWords lo hi, us⟩ }).answer 0x1C00 []) :=
  if_neg (Nat.not_le.2 h)

theorem exec_frmGetTs (f : FrameReg) (s : State) : exec (.frmGetTs f) s = .next (s.answer 0x1D00
    [lowWord (s.frame f).timestamp.seconds, highWord (s.frame f).timestamp.seconds,
      (s.frame f).timestamp.microseconds]) := rfl

/-- Settles O36: R69 for the words of the seconds, and the bound of R26. -/
theorem frameTimestamps : Obligations.FrameTimestamps := fun f s =>
  ⟨fun lo hi us => ⟨carries_frmSetTs f lo hi us, exec_frmSetTs_refused,
      fun h => by rw [exec_frmSetTs h, joinWords_eq]⟩,
    carries_frmGetTs f, by rw [exec_frmGetTs, lowWord_eq, highWord_eq]⟩

end Sys2Proof.Machine
end

section
/-! PROOFS. The packets of the bit-timing operations (41_bit_timing.md R152, R155, R156): the header words their rules write. -/

namespace Sys2Proof.Machine

@[simp] theorem headerTable_tableArg (op : Opcode) (t : Table) (b c : Byte) :
    headerTable (header op (tableArg t) b c) = t := by
  rw [headerTable_header]
  cases t <;> rfl

/-- A header with `t` in argument byte `a`, as the rules write it. -/
theorem header_table (op : Opcode) (t : Table) : op.pattern ||| fieldT t = header op (tableArg t) 0 0 := by
  rw [header_or, fieldAt_table, fieldAt_zero, fieldAt_zero, Opcode.pattern]
  exact (BitVec.or_zero.trans BitVec.or_zero).symm

theorem carries_btLookup (t : Table) (clk rate sp : Word) :
    Carries (0x20000000 ||| fieldT t) [clk, rate, sp] (.btLookup t clk rate sp) :=
  carries_of_header (Laws.HeaderForm.btLookup t clk rate sp) rfl rfl (header_table .btLookup t) (by simp [instrOf])

theorem carries_btCount (t : Table) (clk : Word) : Carries (0x21000000 ||| fieldT t) [clk] (.btCount t clk) :=
  carries_of_header (Laws.HeaderForm.btCount t clk) rfl rfl (header_table .btCount t) (by simp [instrOf])

theorem carries_btItem (t : Table) (clk k : Word) : Carries (0x22000000 ||| fieldT t) [clk, k] (.btItem t clk k) :=
  carries_of_header (Laws.HeaderForm.btItem t clk k) rfl rfl (header_table .btItem t) (by simp [instrOf])

end Sys2Proof.Machine
end

section
/-! PROOFS. The bit-timing catalog (41_bit_timing.md R150 to R156): which entry a lookup answers, and the list that BT.COUNT
and BT.ITEM answer from. -/

namespace Sys2Proof.Machine

variable {t : Table} {clk rate sp k r : Word} {s : State} {e : TimingEntry}

/-! ### Lookup (R151 to R153) -/

theorem exec_btLookup_none (h : lookupEntry s t clk rate sp = none) :
    exec (.btLookup t clk rate sp) s = .next (s.answer 0x2002 []) := by
  simp only [exec, execBtLookup, h, raise_eq]
  rfl

theorem exec_btLookup_some (h : lookupEntry s t clk rate sp = some e) :
    exec (.btLookup t clk rate sp) s = .next (s.answer 0x2000 (entryImage e)) := by
  simp only [exec, execBtLookup, h, answerOk_eq, entryWords_eq]
  rfl

/-- Two entries that match one key agree in the fields R5 (b) compares. -/
theorem KeyMatches.same_key {x y : TimingEntry} (hx : KeyMatches x clk rate sp) (hy : KeyMatches y clk rate sp) :
    x.baseClock = y.baseClock ∧ x.bitrate = y.bitrate ∧ x.samplePointPermille = y.samplePointPermille := by
  obtain ⟨hxc, hxr, hxs⟩ := hx
  obtain ⟨hyc, hyr, hys⟩ := hy
  exact ⟨hxc.trans hyc.symm, hxr.trans hyr.symm, BitVec.eq_of_toNat_eq (hxs.trans hys.symm)⟩

/-- On distinct keys a match is the first one: an earlier match would have the same key. -/
theorem firstMatch_of_keysDistinct {l : List TimingEntry} (hd : catalogKeysDistinct l) (he : e ∈ l)
    (hm : KeyMatches e clk rate sp) : FirstMatch l clk rate sp e := by
  obtain ⟨pre, post, rfl⟩ := List.append_of_mem he
  obtain ⟨-, -, hcross⟩ := List.pairwise_append.1 hd
  exact ⟨pre, post, rfl, hm, fun x hx hxm => hcross x hx e List.mem_cons_self (hxm.same_key hm)⟩

/-- Settles O37: the loop of R151 finds the first match of the table, and on distinct keys every match is the first. -/
theorem timingLookup : Obligations.TimingLookup := by
  intro t clk rate sp s
  have hfirst : ∀ e, FirstMatch (s.catalog t) clk rate sp e →
      exec (.btLookup t clk rate sp) s = .next (s.answer 0x2000 (entryImage e)) :=
    fun _ hm => exec_btLookup_some (find_of_firstMatch hm)
  exact ⟨carries_btLookup t clk rate sp, fun hn => exec_btLookup_none (find_of_noMatch hn), hfirst,
    fun hd e he hm => hfirst e (firstMatch_of_keysDistinct hd he hm)⟩

/-! ### The list of R154 -/

/-- The bitrates the entries of clock `clk` offer, in index order and with repeats. -/
def offeredRates (clk : Word) (l : List TimingEntry) : List Word :=
  (l.filter fun e => e.baseClock = clk).map fun e => e.bitrate

theorem mem_offeredRates {l : List TimingEntry} :
    r ∈ offeredRates clk l ↔ ∃ e ∈ l, e.baseClock = clk ∧ e.bitrate = r := by
  simp [offeredRates, and_assoc]

theorem offeredRates_cons_same (h : e.baseClock = clk) (l : List TimingEntry) :
    offeredRates clk (e :: l) = e.bitrate :: offeredRates clk l := by
  simp [offeredRates, h]

theorem offeredRates_cons_other (h : e.baseClock ≠ clk) (l : List TimingEntry) :
    offeredRates clk (e :: l) = offeredRates clk l := by
  simp [offeredRates, h]

/-- `L` holds the values of `R`, each once, in the order of their first occurrence. -/
def FirstOccurrences (R L : List Word) : Prop :=
  (∀ r, r ∈ L ↔ r ∈ R) ∧ L.Pairwise fun a b => R.idxOf a < R.idxOf b

theorem availableList_iff {l : List TimingEntry} {L : List Word} :
    AvailableList l clk L ↔ FirstOccurrences (offeredRates clk l) L :=
  and_congr_left' (forall_congr' fun _ => iff_congr Iff.rfl mem_offeredRates.symm)

/-- Values read later do not move the first occurrence of a value already listed. -/
theorem FirstOccurrences.pairwise_append {R L : List Word} (h : FirstOccurrences R L) (R' : List Word) :
    L.Pairwise fun a b => (R ++ R').idxOf a < (R ++ R').idxOf b := by
  obtain ⟨hmem, hord⟩ := h
  refine hord.imp_of_mem fun ha hb hab => ?_
  rwa [List.idxOf_append_of_mem ((hmem _).1 ha), List.idxOf_append_of_mem ((hmem _).1 hb)]

theorem FirstOccurrences.snoc_listed {R L : List Word} (h : FirstOccurrences R L) (hr : r ∈ L) :
    FirstOccurrences (R ++ [r]) L := by
  refine ⟨fun x => ?_, h.pairwise_append [r]⟩
  obtain ⟨hmem, -⟩ := h
  rw [List.mem_append, List.mem_singleton, ← hmem]
  exact ⟨.inl, fun hx => hx.elim id fun hxr => hxr ▸ hr⟩

/-- A value not listed occurs first where it is read, behind every value listed before it. -/
theorem FirstOccurrences.snoc_new {R L : List Word} (h : FirstOccurrences R L) (hr : r ∉ L) :
    FirstOccurrences (R ++ [r]) (L ++ [r]) := by
  have hord := h.pairwise_append [r]
  obtain ⟨hmem, -⟩ := h
  refine ⟨fun x => by simp only [List.mem_append, hmem], List.pairwise_append.2 ⟨hord, List.pairwise_singleton _ _, ?_⟩⟩
  intro a ha b hb
  rw [List.mem_singleton.1 hb, List.idxOf_append_of_mem ((hmem a).1 ha),
    List.idxOf_append_of_notMem (mt (hmem r).2 hr)]
  exact Nat.lt_add_right _ (List.idxOf_lt_length_of_mem ((hmem a).1 ha))

/-- The loop of R154 continues the list of the rates read so far to the list of all rates. -/
theorem availableFrom_firstOccurrences (clk : Word) (l : List TimingEntry) : ∀ {R out : List Word},
    FirstOccurrences R out → FirstOccurrences (R ++ offeredRates clk l) (availableFrom clk out l) := by
  induction l with
  | nil =>
    intro R out h
    simpa [offeredRates, availableFrom] using h
  | cons e rest ih =>
    intro R out h
    rw [availableFrom]
    by_cases hclk : e.baseClock = clk
    · rw [offeredRates_cons_same hclk, List.append_cons]
      by_cases hlisted : e.bitrate ∈ out
      · rw [if_neg fun hnew => hnew.2 hlisted]
        exact ih (h.snoc_listed hlisted)
      · rw [if_pos ⟨hclk, hlisted⟩]
        exact ih (h.snoc_new hlisted)
    · rw [if_neg fun hnew => hclk hnew.1, offeredRates_cons_other hclk]
      exact ih h

theorem available_availableList (s : State) (t : Table) (clk : Word) :
    AvailableList (s.catalog t) clk (available s t clk) :=
  availableList_iff.2 (availableFrom_firstOccurrences clk (s.catalog t) ⟨fun _ => Iff.rfl, .nil⟩)

/-! ### BT.COUNT and BT.ITEM (R155, R156) -/

theorem exec_btCount (t : Table) (clk : Word) (s : State) :
    exec (.btCount t clk) s = .next (s.answer 0x2100 [countWord (available s t clk).length]) := rfl

theorem exec_btItem_some (h : (available s t clk)[k.toNat]? = some r) :
    exec (.btItem t clk k) s = .next (s.answer 0x2200 [r]) := by
  simp only [exec, execBtItem, h, answerOk_eq]
  rfl

theorem exec_btItem_none (h : (available s t clk)[k.toNat]? = none) :
    exec (.btItem t clk k) s = .next (s.answer 0x220B []) := by
  simp only [exec, execBtItem, h, raise_eq]
  rfl

/-- Settles O38: the list is the one the loop of R154 builds. -/
theorem timingCountAndItem : Obligations.TimingCountAndItem := fun t clk s =>
  ⟨available s t clk, available_availableList s t clk, carries_btCount t clk,
    ⟨_, exec_btCount t clk s, countWord_small⟩,
    fun k => ⟨carries_btItem t clk k, fun _ => exec_btItem_some,
      fun hk => exec_btItem_none (List.getElem?_eq_none hk)⟩⟩

end Sys2Proof.Machine
end

section
/-! PROOFS. The packets of the interface operations (42_interface.md R170 to R178): the header words their rules write. -/

namespace Sys2Proof.Machine

/-- A header with a narrow field in argument byte `a`, as the rules write it. -/
theorem header_argA (op : Opcode) {w : Nat} (v : BitVec w) (hw : w ≤ 8) :
    op.pattern ||| fieldAt 16 v = header op (v.setWidth 8) 0 0 := by
  rw [header_or, fieldAt_setWidth 16 v hw, fieldAt_zero, fieldAt_zero, Opcode.pattern]
  exact (BitVec.or_zero.trans BitVec.or_zero).symm

/-- The narrow field reads back. -/
theorem header_argA_read (op : Opcode) {w : Nat} (v : BitVec w) (hw : w ≤ 8) (b c : Byte) :
    (header op (v.setWidth 8) b c).extractLsb' 16 w = v := by
  rw [header_fieldA op _ b c hw, BitVec.setWidth_setWidth_of_le v hw, BitVec.setWidth_eq]

/-- A header with a 16-bit argument, as the rules write it. -/
theorem header_argBC (op : Opcode) (v : Half) :
    op.pattern ||| fieldAt 0 v = header op 0 (halfHigh v) (halfLow v) := by
  rw [header_or, fieldAt_zero, BitVec.or_assoc _ (fieldAt 8 _), fieldAt_half, Opcode.pattern]
  exact congrArg (· ||| fieldAt 0 v) BitVec.or_zero.symm

theorem carries_nop : Carries 0x00000000 [] .nop :=
  carries_of_header Laws.HeaderForm.nop rfl rfl rfl rfl

theorem carries_cfgApply (g : BitVec 5) (r sp fr fsp : Word) :
    Carries (0x01000000 ||| fieldAt 16 g) [r, sp, fr, fsp] (.cfgApply g r sp fr fsp) :=
  carries_of_header (Laws.HeaderForm.cfgApply g r sp fr fsp) rfl rfl (header_argA .cfgApply g (by omega)) (by
    simp [instrOf, header_argA_read])

theorem carries_ifOpen (caps : BitVec 4) (clk dev : Word) :
    Carries (0x02000000 ||| fieldAt 16 caps) [clk, dev] (.ifOpen caps clk dev) :=
  carries_of_header (Laws.HeaderForm.ifOpen caps clk dev) rfl rfl (header_argA .ifOpen caps (by omega)) (by
    simp [instrOf, header_argA_read])

theorem carries_ifClose : Carries 0x03000000 [] .ifClose :=
  carries_of_header Laws.HeaderForm.ifClose rfl rfl rfl rfl

theorem carries_ifState : Carries 0x04000000 [] .ifState :=
  carries_of_header Laws.HeaderForm.ifState rfl rfl rfl rfl

theorem carries_ifSetId (id : Half) : Carries (0x05000000 ||| fieldAt 0 id) [] (.ifSetId id) :=
  carries_of_header (Laws.HeaderForm.ifSetId id) rfl rfl (header_argBC .ifSetId id) (by
    simp [instrOf, headerBC_header, half_split])

theorem carries_statGet (n : BitVec 3) : Carries (0x06000000 ||| fieldAt 16 n) [] (.statGet n) :=
  carries_of_header (Laws.HeaderForm.statGet n) rfl rfl (header_argA .statGet n (by omega)) (by
    simp [instrOf, header_argA_read])

theorem carries_statBump (n : BitVec 3) : Carries (0x07000000 ||| fieldAt 16 n) [] (.statBump n) :=
  carries_of_header (Laws.HeaderForm.statBump n) rfl rfl (header_argA .statBump n (by omega)) (by
    simp [instrOf, header_argA_read])

theorem carries_cfgGet : Carries 0x08000000 [] .cfgGet :=
  carries_of_header Laws.HeaderForm.cfgGet rfl rfl rfl rfl

end Sys2Proof.Machine
end

section
/-! PROOFS. The interface operations (42_interface.md R170 to R178): what each changes and what it answers. -/

namespace Sys2Proof.Machine

variable {caps : BitVec 4} {clk dev : Word} {s : State} {ea : TimingEntry} {n : BitVec 3} {c : CounterId}

/-! ### NOP, IF.CLOSE and IF.SETID (R170, R174, R176) -/

theorem exec_ifClose (s : State) :
    exec .ifClose s = .next ({ s with ifState := .closed, mode := 0 }.answer 0x0300 []) := rfl

/-- Settles O22: each operation is one answer, on the state its rule writes out. -/
theorem nopCloseSetId : Obligations.NopCloseSetId := fun s =>
  ⟨carries_nop, rfl, carries_ifClose, exec_ifClose s, fun id => ⟨carries_ifSetId id, rfl⟩⟩

/-! ### IF.STATE (R175) -/

/-- The word of R175 is its fields side by side, the two gaps zero. -/
theorem ifStateWord_append (b : BitVec 2) (m : BitVec 5) (id : Half) :
    b.setWidth 32 ||| (m.setWidth 32 <<< 8) ||| (id.setWidth 32 <<< 16) =
      id ++ (0 : BitVec 3) ++ m ++ (0 : BitVec 6) ++ b := by
  ext k hk
  simp
  grind

/-- Fields side by side read back, each where the ones below it end. -/
theorem append_fields_read (b : BitVec 2) (z : BitVec 6) (m : BitVec 5) (y : BitVec 3) (id : Half) :
    (id ++ y ++ m ++ z ++ b).extractLsb' 0 2 = b ∧ (id ++ y ++ m ++ z ++ b).extractLsb' 2 6 = z ∧
    (id ++ y ++ m ++ z ++ b).extractLsb' 8 5 = m ∧ (id ++ y ++ m ++ z ++ b).extractLsb' 13 3 = y ∧
    (id ++ y ++ m ++ z ++ b).extractLsb' 16 16 = id := by
  have skip : ∀ {v w k n : Nat} (x : BitVec v) (y : BitVec w),
      (x ++ y).extractLsb' (w + k) n = x.extractLsb' k n := fun _ _ => by
    rw [BitVec.extractLsb'_append_eq_of_le (Nat.le_add_right ..), Nat.add_sub_cancel_left]
  have read : ∀ {v w : Nat} (x : BitVec v) (y : BitVec w), (x ++ y).extractLsb' 0 w = y :=
    fun _ _ => BitVec.extractLsb'_append_eq_right
  exact ⟨read _ b,
    (skip (k := 0) _ b).trans (read _ z),
    (skip (k := 6) _ b).trans ((skip (k := 0) _ z).trans (read _ m)),
    (skip (k := 11) _ b).trans ((skip (k := 5) _ z).trans ((skip (k := 0) _ m).trans (read _ y))),
    (skip (k := 14) _ b).trans ((skip (k := 8) _ z).trans ((skip (k := 3) _ m).trans
      (BitVec.extractLsb'_append_eq_left)))⟩

theorem ifState_bits (h : s.ifState ≠ .opening) : s.ifState.bits = if s.ifState = .opened then 2 else 0 := by
  cases hs : s.ifState with
  | closed => rfl
  | opening => exact absurd hs h
  | opened => rfl

theorem exec_ifState (s : State) : exec .ifState s =
    .next (s.answer 0x0400 [s.ifId ++ (0 : BitVec 3) ++ s.mode ++ (0 : BitVec 6) ++ s.ifState.bits]) := by
  rw [← ifStateWord_append]
  rfl

/-- Settles O23: the word is its five fields side by side, and each reads back. -/
theorem ifStateWord : Obligations.IfStateWord := by
  refine ⟨carries_ifState, fun s hs => ⟨_, exec_ifState s, ?_⟩⟩
  rw [← ifState_bits hs]
  exact append_fields_read ..

/-! ### CFG.APPLY and CFG.GET (R171, R172) -/

/-- R107: the configuration flags as a number. -/
theorem configFlags_toNat (c : AdapterConfig) : c.flags.toNat = flagNumber c := by
  simp only [AdapterConfig.flags, flagNumber, toNat_append_lt, BitVec.toNat_ofBool]
  omega

/-- What `CFG.APPLY` writes when it accepts its operands (R171). -/
def appliedConfig (g : BitVec 5) (r sp fr fsp : Word) : AdapterConfig :=
  ⟨r, halfOfWord sp, fr, halfOfWord fsp, g.getLsbD 0, g.getLsbD 1, g.getLsbD 2, g.getLsbD 3, g.getLsbD 4⟩

theorem exec_cfgApply {g : BitVec 5} {r sp fr fsp : Word} (hsp : sp.toNat ≤ 0xFFFF) (hfsp : fsp.toNat ≤ 0xFFFF) :
    exec (.cfgApply g r sp fr fsp) s = .next ({ s with cfg := appliedConfig g r sp fr fsp }.answer 0x0100 []) :=
  if_neg (not_or.2 ⟨Nat.not_lt.2 hsp, Nat.not_lt.2 hfsp⟩)

theorem exec_cfgApply_refused {g : BitVec 5} {r sp fr fsp : Word} (h : 0xFFFF < sp.toNat ∨ 0xFFFF < fsp.toNat) :
    exec (.cfgApply g r sp fr fsp) s = .next (s.answer 0x0101 []) := if_pos h

/-- The five flags are the flag operand bit by bit. -/
theorem appliedConfig_flags (g : BitVec 5) (r sp fr fsp : Word) : (appliedConfig g r sp fr fsp).flags = g := by
  simp only [AdapterConfig.flags, appliedConfig]
  revert g
  decide

theorem halfOfWord_toNat {w : Word} (h : w.toNat ≤ 0xFFFF) : (halfOfWord w).toNat = w.toNat := by
  rw [halfOfWord, BitVec.extractLsb'_toNat, Nat.shiftRight_zero, Nat.mod_eq_of_lt (by omega)]

/-- Settles O24: the written configuration has the operands as its fields. -/
theorem configApply : Obligations.ConfigApply := fun g r sp fr fsp s =>
  ⟨carries_cfgApply g r sp fr fsp,
    fun hsp hfsp => ⟨appliedConfig g r sp fr fsp, exec_cfgApply hsp hfsp, rfl, halfOfWord_toNat hsp, rfl,
      halfOfWord_toNat hfsp, by rw [← configFlags_toNat, appliedConfig_flags]⟩,
    exec_cfgApply_refused⟩

/-- Settles O25: the answered words as numbers. -/
theorem configGet : Obligations.ConfigGet :=
  ⟨carries_cfgGet, fun s => ⟨s.cfg.flags.setWidth 32, s.cfg.samplePoint.setWidth 32, s.cfg.fdSamplePoint.setWidth 32,
    rfl, (BitVec.toNat_setWidth_of_le (by omega)).trans (configFlags_toNat s.cfg),
    BitVec.toNat_setWidth_of_le (by omega), BitVec.toNat_setWidth_of_le (by omega)⟩⟩

/-! ### STAT.GET and STAT.BUMP (R177, R178) -/

/-- The index of a counter (10_state.md R34). -/
def CounterId.index : CounterId → Nat
  | .rxCount => 0
  | .txCount => 1
  | .txErrors => 2
  | .rxErrors => 3
  | .rxOverruns => 4
  | .txDropped => 5

theorem counterList_index (k : Counters) (c : CounterId) : (counterList k)[c.index]? = some (k.get c) := by
  cases c <;> rfl

/-- One counter moves up, the other five stay. -/
theorem counterList_bump (k : Counters) (c : CounterId) :
    counterList (k.bump c) = (counterList k).set c.index (k.get c + 1) := by
  cases c <;> rfl

/-- An index names the counter that has it, and 6 and 7 name none. -/
theorem counterOf_cases (n : BitVec 3) :
    (∃ c, counterOf n = some c ∧ n.toNat = c.index) ∨ (counterOf n = none ∧ 5 < n.toNat) := by
  revert n
  decide

theorem counterOf_none (h : 5 < n.toNat) : counterOf n = none := by
  obtain ⟨c, -, hc⟩ | ⟨hn, -⟩ := counterOf_cases n
  · have hlast : c.index ≤ 5 := by cases c <;> decide
    omega
  · exact hn

theorem exec_statGet_none (h : counterOf n = none) : exec (.statGet n) s = .next (s.answer 0x0601 []) := by
  simp only [exec, execStatGet, h, raise_eq]
  rfl

theorem exec_statGet_some (h : counterOf n = some c) :
    exec (.statGet n) s = .next (s.answer 0x0600 [s.counters.get c]) := by
  simp only [exec, execStatGet, h, answerOk_eq]
  rfl

theorem exec_statBump_none (h : counterOf n = none) : exec (.statBump n) s = .next (s.answer 0x0701 []) := by
  simp only [exec, execStatBump, h, raise_eq]
  rfl

theorem exec_statBump_some (h : counterOf n = some c) :
    exec (.statBump n) s = .next ((s.bump c).answer 0x0700 []) := by
  simp only [exec, execStatBump, h, answerOk_eq]
  rfl

/-- Settles O27: an index within the list of counters names the counter that stands there. -/
theorem statGetAndBump : Obligations.StatGetAndBump := by
  intro n s
  refine ⟨carries_statGet n, carries_statBump n,
    fun hn => ⟨exec_statGet_none (counterOf_none hn), exec_statBump_none (counterOf_none hn)⟩, fun w hw => ?_⟩
  obtain ⟨c, hc, hidx⟩ | ⟨-, hn⟩ := counterOf_cases n
  · obtain rfl : s.counters.get c = w := by
      rw [hidx, counterList_index] at hw
      exact Option.some.inj hw
    have hsucc : s.counters.get c + 1 = BitVec.ofNat 32 (((s.counters.get c).toNat + 1) % 2 ^ 32) :=
      BitVec.eq_of_toNat_eq (by simp)
    refine ⟨exec_statGet_some hc, s.counters.bump c, exec_statBump_some hc, ?_⟩
    rw [counterList_bump, hidx, hsucc]
  · -- Beyond the six counters the list has no word.
    rw [List.getElem?_eq_none hn] at hw
    cases hw

/-! ### IF.OPEN (R173) -/

theorem exec_ifOpen_opened (h : s.ifState = .opened) :
    exec (.ifOpen caps clk dev) s = .next (s.answer 0x0204 []) := if_pos h

section
variable (hs : s.ifState ≠ .opened)
include hs

theorem exec_ifOpen_config (hfd : s.cfg.isCanFD = true ∧ capFD caps = false) :
    exec (.ifOpen caps clk dev) s = .next (s.answer 0x0203 []) :=
  (if_neg hs).trans (if_pos hfd)

variable (hfd : ¬ (s.cfg.isCanFD = true ∧ capFD caps = false))
include hfd

theorem exec_ifOpen_noArb (ha : lookupEntry s .arb clk s.cfg.bitrate (s.cfg.samplePoint.setWidth 32) = none) :
    exec (.ifOpen caps clk dev) s = .next (s.answer 0x0202 []) := by
  simp only [exec, execIfOpen, if_neg hs, if_neg hfd, ha, raise_eq]
  rfl

variable (ha : lookupEntry s .arb clk s.cfg.bitrate (s.cfg.samplePoint.setWidth 32) = some ea)
include ha

theorem exec_ifOpen_noData (hd : dataPhaseWords caps clk s = none) :
    exec (.ifOpen caps clk dev) s = .next (s.answer 0x0202 []) := by
  simp only [exec, execIfOpen, if_neg hs, if_neg hfd, ha, hd, raise_eq]
  rfl

theorem exec_ifOpen_ok {wd : List Word} (hd : dataPhaseWords caps clk s = some wd) :
    exec (.ifOpen caps clk dev) s = .next ((openInterface dev s).answer 0x0200 (entryImage ea ++ wd)) := by
  simp only [exec, execIfOpen, if_neg hs, if_neg hfd, ha, hd, answerOk_eq, entryWords_eq]
  rfl

end

theorem dataPhaseWords_noCap (h : capFD caps = false) :
    dataPhaseWords caps clk s = some [0, 0, 0, 0, 0, 0] := by
  rw [dataPhaseWords, h]
  rfl

theorem dataPhaseWords_cap (h : capFD caps = true) : dataPhaseWords caps clk s =
    (lookupEntry s .data clk s.cfg.fdBitrate (s.cfg.fdSamplePoint.setWidth 32)).map entryImage := by
  rw [dataPhaseWords, if_pos h, funext entryWords_eq]

theorem openInterface_eq (dev : Word) (s : State) : openInterface dev s =
    { s with
      hostOff := s.hostNow
      devT0 := dev
      counters := ⟨0, 0, 0, 0, 0, 0⟩
      mode := BitVec.ofNat 5 (flagNumber s.cfg)
      ifState := .opened } := by
  rw [openInterface, flags_eq]
  rfl

/-- Settles O26: one lemma per outcome of the four checks, the lookups read as matches in the tables. -/
theorem interfaceOpen : Obligations.InterfaceOpen := by
  intro caps clk dev s i sp fsp opened
  have hopened : ∀ ws, opened ws = (openInterface dev s).answer 0x0200 ws := fun ws => by rw [openInterface_eq]
  refine ⟨carries_ifOpen caps clk dev, exec_ifOpen_opened, fun hs hc hcap => exec_ifOpen_config hs ⟨hc, hcap⟩,
    fun hs hfd => ⟨fun hn => exec_ifOpen_noArb hs hfd (find_of_noMatch hn), fun ea hm => ?_⟩⟩
  have ha : lookupEntry s .arb clk s.cfg.bitrate sp = some ea := find_of_firstMatch hm
  refine ⟨fun hcap hn => exec_ifOpen_noData hs hfd ha ?_, fun hcap ed hd => ?_, fun hcap => ?_⟩
  · have hnone : lookupEntry s .data clk s.cfg.fdBitrate fsp = none := find_of_noMatch hn
    rw [dataPhaseWords_cap hcap, hnone]
    rfl
  · have hsome : lookupEntry s .data clk s.cfg.fdBitrate fsp = some ed := find_of_firstMatch hd
    rw [hopened]
    exact exec_ifOpen_ok hs hfd ha (by rw [dataPhaseWords_cap hcap, hsome]; rfl)
  · rw [hopened]
    exact exec_ifOpen_ok hs hfd ha (dataPhaseWords_noCap hcap)

end Sys2Proof.Machine
end

section
/-! PROOFS. The interface state machine (42_interface.md R179): the operations work the same whatever `IFSTATE` is, but for the
one gated by it and the three that change or report it. -/

namespace Sys2Proof.Machine

variable {s : State} {x : IfState}

/-- `IFSTATE <- x`, nothing else. -/
def State.setIfState (x : IfState) (s : State) : State := { s with ifState := x }

/-- The two runs of a test that does not read `IFSTATE`. -/
theorem ite_setIfState {p : Prop} [Decidable p] {a b a' b' : Result} (ha : a' = mapNext (State.setIfState x) a)
    (hb : b' = mapNext (State.setIfState x) b) :
    (if p then a' else b') = mapNext (State.setIfState x) (if p then a else b) := by
  split
  · exact ha
  · exact hb

/-! ### Lookups -/

@[simp] theorem lookupEntry_setIfState (x : IfState) (s : State) (t : Table) (clk rate sp : Word) :
    lookupEntry (s.setIfState x) t clk rate sp = lookupEntry s t clk rate sp := rfl

@[simp] theorem available_setIfState (x : IfState) (s : State) (t : Table) (clk : Word) :
    available (s.setIfState x) t clk = available s t clk := rfl

@[simp] theorem frame_setIfState (x : IfState) (s : State) (f : FrameReg) : (s.setIfState x).frame f = s.frame f := rfl

@[simp] theorem lineBytes_setIfState (x : IfState) (s : State) : lineBytes (s.setIfState x) = lineBytes s := rfl

/-! ### Operations with more than one outcome -/

theorem execStatGet_setIfState (n : BitVec 3) (x : IfState) (s : State) :
    execStatGet n (s.setIfState x) = mapNext (State.setIfState x) (execStatGet n s) := by
  unfold execStatGet
  cases counterOf n <;> rfl

theorem execStatBump_setIfState (n : BitVec 3) (x : IfState) (s : State) :
    execStatBump n (s.setIfState x) = mapNext (State.setIfState x) (execStatBump n s) := by
  unfold execStatBump
  cases counterOf n <;> rfl

theorem execBtLookup_setIfState (t : Table) (clk rate sp : Word) (x : IfState) (s : State) :
    execBtLookup t clk rate sp (s.setIfState x) = mapNext (State.setIfState x) (execBtLookup t clk rate sp s) := by
  simp only [execBtLookup, lookupEntry_setIfState]
  cases lookupEntry s t clk rate sp <;> rfl

theorem execBtItem_setIfState (t : Table) (clk k : Word) (x : IfState) (s : State) :
    execBtItem t clk k (s.setIfState x) = mapNext (State.setIfState x) (execBtItem t clk k s) := by
  simp only [execBtItem, available_setIfState]
  cases (available s t clk)[k.toNat]? <;> rfl

theorem execDlcEnc_setIfState (fd : Bool) (n : Byte) (x : IfState) (s : State) :
    execDlcEnc fd n (s.setIfState x) = mapNext (State.setIfState x) (execDlcEnc fd n s) := by
  unfold execDlcEnc
  cases lenToDlc fd n.toNat <;> rfl

theorem execDlcDec_setIfState (fd : Bool) (d : Byte) (x : IfState) (s : State) :
    execDlcDec fd d (s.setIfState x) = mapNext (State.setIfState x) (execDlcDec fd d s) := by
  unfold execDlcDec
  cases dlcToLen fd d.toNat <;> rfl

theorem appendLine_setIfState (op : Opcode) (l : List Byte) (x : IfState) (s : State) :
    appendLine op l (s.setIfState x) = mapNext (State.setIfState x) (appendLine op l s) := ite_setIfState rfl rfl

theorem execSerFrame_setIfState (f : FrameReg) (x : IfState) (s : State) :
    execSerFrame f (s.setIfState x) = mapNext (State.setIfState x) (execSerFrame f s) := by
  simp only [execSerFrame, frame_setIfState]
  cases encodeLine (s.frame f) with
  | error e => rfl
  | ok l => exact ite_setIfState rfl rfl

theorem execTxPop_setIfState (x : IfState) (s : State) :
    execTxPop (s.setIfState x) = mapNext (State.setIfState x) (execTxPop s) := by
  have hq : (s.setIfState x).txq = s.txq := rfl
  unfold execTxPop
  rw [hq]
  cases s.txq <;> rfl

/-! ### The poll -/

theorem storeLineByte_setIfState (c : Byte) (x : IfState) (s : State) :
    storeLineByte c (s.setIfState x) = (storeLineByte c s).setIfState x := by
  unfold storeLineByte
  rw [apply_ite (State.setIfState x)]
  rfl

theorem endLine_setIfState (f : FrameReg) (x : IfState) (s : State) :
    endLine f (s.setIfState x) = mapNext (State.setIfState x) (endLine f s) := by
  simp only [endLine, lineBytes_setIfState]
  cases parseLine (lineBytes s) <;> rfl

theorem pollLoop_setIfState (f : FrameReg) (n : Nat) (x : IfState) (s : State) :
    pollLoop f n (s.setIfState x) = mapNext (State.setIfState x) (pollLoop f n s) := by
  induction n generalizing s with
  | zero => rfl
  | succ n ih =>
    have hmoved : pollLoop f n (storeLineByte (s.ring.read s.ringTail) ((ringDrop s).setIfState x)) =
        mapNext (State.setIfState x) (pollLoop f n (storeLineByte (s.ring.read s.ringTail) (ringDrop s))) := by
      rw [storeLineByte_setIfState, ih]
    exact ite_setIfState rfl (ite_setIfState (endLine_setIfState f x (ringDrop s)) hmoved)

/-! ### Every operation -/

theorem exec_setIfState {i : Instr} (hi : opcodeOf i ∉ [some .tsConv, some .ifOpen, some .ifClose, some .ifState])
    (x : IfState) (s : State) : exec i (s.setIfState x) = mapNext (State.setIfState x) (exec i s) := by
  cases i with
  | tsConv | ifOpen | ifClose | ifState => simp [opcodeOf] at hi
  | cfgApply | frmSetTs | btTq | rxPush => exact ite_setIfState rfl rfl
  | statGet n => exact execStatGet_setIfState n x s
  | statBump n => exact execStatBump_setIfState n x s
  | btLookup t clk rate sp => exact execBtLookup_setIfState t clk rate sp x s
  | btItem t clk k => exact execBtItem_setIfState t clk k x s
  | dlcEnc fd n => exact execDlcEnc_setIfState fd n x s
  | dlcDec fd d => exact execDlcDec_setIfState fd d x s
  | serFrame f => exact execSerFrame_setIfState f x s
  | serBitrate n => exact ite_setIfState rfl (appendLine_setIfState _ _ x s)
  | serFdRate n => exact ite_setIfState (appendLine_setIfState _ _ x s) rfl
  | serOpenCh | serCloseCh => exact appendLine_setIfState _ _ x s
  | desPoll f => exact pollLoop_setIfState f _ x s
  | txPop => exact execTxPop_setIfState x s
  | nop | ifSetId | cfgGet | frmClear | frmSetRaw | frmGetRaw | frmSetId | frmGetId | frmSetFlags | frmGetFlags | frmSetLen
  | frmGetLen | frmSetByte | frmGetByte | frmExtract | frmGetTs | frmSetIf | frmGetIf | btCount | tsGet | desLevel => rfl

/-! ### What each operation does to `IFSTATE` -/

/-- A result that does not depend on `IFSTATE` leaves it at the value it had. -/
theorem ifState_of_mapNext {r : Result} {t : State} (h : mapNext (State.setIfState x) r = .next t) : t.ifState = x := by
  cases r with
  | next u =>
    cases h
    rfl
  | fault | refused => cases h

theorem tsConv_cases (f : FrameReg) (v : Bool) (dts lo hi : Word) (s : State) :
    exec (.tsConv f v dts lo hi) s = .next (s.answer 0x4004 []) ∨
      ∃ fr ws, exec (.tsConv f v dts lo hi) s = .next ((s.setFrame f fr).answer 0x4000 ws) := by
  by_cases h : s.ifState = .opened
  · exact .inr ⟨_, _, if_neg (not_not_intro h)⟩
  · exact .inl (if_pos h)

theorem exec_keeps_ifState {i : Instr} {t : State} (hi : opcodeOf i ∉ [some .ifOpen, some .ifClose])
    (ht : exec i s = .next t) : t.ifState = s.ifState := by
  cases i with
  | ifOpen | ifClose => simp [opcodeOf] at hi
  | ifState =>
    cases ht
    rfl
  | tsConv f v dts elo ehi =>
    obtain h | ⟨fr, ws, h⟩ := tsConv_cases f v dts elo ehi s
    all_goals
      cases h.symm.trans ht
      rfl
  | _ => exact ifState_of_mapNext ((exec_setIfState (by simp [opcodeOf]) s.ifState s).symm.trans ht)

/-- Everything `IF.OPEN` can do when the interface is not Open yet. -/
theorem ifOpen_cases (caps : BitVec 4) (clk dev : Word) (hs : s.ifState ≠ .opened) :
    (∃ ws, exec (.ifOpen caps clk dev) s = .next ((openInterface dev s).answer 0x0200 ws)) ∨
      exec (.ifOpen caps clk dev) s = .next (s.answer 0x0202 []) ∨
      exec (.ifOpen caps clk dev) s = .next (s.answer 0x0203 []) := by
  by_cases hfd : s.cfg.isCanFD = true ∧ capFD caps = false
  · exact .inr (.inr (exec_ifOpen_config hs hfd))
  cases ha : lookupEntry s .arb clk s.cfg.bitrate (s.cfg.samplePoint.setWidth 32) with
  | none => exact .inr (.inl (exec_ifOpen_noArb hs hfd ha))
  | some ea =>
    cases hd : dataPhaseWords caps clk s with
    | none => exact .inr (.inl (exec_ifOpen_noData hs hfd ha hd))
    | some wd => exact .inl ⟨_, exec_ifOpen_ok hs hfd ha hd⟩

/-- The moves of the state machine: none, an `IF.OPEN` that answers `OK`, or `IF.CLOSE`. -/
theorem ifState_moves {i : Instr} {t : State} (ht : exec i s = .next t) :
    t.ifState = s.ifState ∨
    (t.ifState = .opened ∧ (∃ caps clk dev, i = .ifOpen caps clk dev) ∧
      ∃ ws, t.outputs = s.outputs ++ [.response 0x0200 ws]) ∨
    (t.ifState = .closed ∧ i = .ifClose) := by
  cases i with
  | ifClose =>
    cases ht
    exact .inr (.inr ⟨rfl, rfl⟩)
  | ifOpen caps clk dev =>
    by_cases hs : s.ifState = .opened
    · cases (exec_ifOpen_opened hs).symm.trans ht
      exact .inl rfl
    · obtain ⟨ws, h⟩ | h | h := ifOpen_cases caps clk dev hs
      · cases h.symm.trans ht
        exact .inr (.inl ⟨rfl, ⟨caps, clk, dev, rfl⟩, ws, rfl⟩)
      · cases h.symm.trans ht
        exact .inl rfl
      · cases h.symm.trans ht
        exact .inl rfl
  | _ => exact .inl (exec_keeps_ifState (by simp [opcodeOf]) ht)

/-- Settles O21: the rows of R179 from `ifState_moves` and `ifOpen_cases`, its last sentence from `exec_setIfState`. -/
theorem interfaceStateMachine : Obligations.InterfaceStateMachine := by
  refine ⟨?_, ?_, fun _ _ _ _ => exec_ifOpen_opened, fun s _ => exec_ifClose s, ?_, fun i s x hi => exec_setIfState hi x s⟩
  · intro i s t hs ht
    obtain hkept | ⟨hopened, hopen, hok⟩ | ⟨hclosed, hclose⟩ := ifState_moves ht
    · rw [hkept]
      exact ⟨hs, fun h h' => absurd (h.symm.trans h') (by decide), fun h h' => absurd (h.symm.trans h') (by decide)⟩
    · rw [hopened]
      exact ⟨by decide, fun _ _ => ⟨hopen, hok⟩, fun _ h => absurd h (by decide)⟩
    · rw [hclosed]
      exact ⟨by decide, fun _ h => absurd h (by decide), fun _ _ => hclose⟩
  · intro caps clk dev s t hs ht
    obtain ⟨ws, h⟩ | h | h := ifOpen_cases caps clk dev (s := s) (by rw [hs]; decide)
    · cases h.symm.trans ht
      exact .inl ⟨rfl, rfl, rfl, rfl, flags_eq s.cfg⟩
    · exact .inr (.inl (Host.Outcome.next.inj (ht.symm.trans h)))
    · exact .inr (.inr (Host.Outcome.next.inj (ht.symm.trans h)))
  · -- Closed with `MODE` 0 is what `IF.CLOSE` writes.
    intro s hs hm
    have hsame : { s with ifState := .closed, mode := 0 } = s := by rw [← hs, ← hm]
    rw [exec_ifClose, hsame]

end Sys2Proof.Machine
end

section
/-! PROOFS. The DLC mapper (43_dlc_mapper.md R190 to R192): the packets of its two operations, and their answers against the
table. -/

namespace Sys2Proof.Machine

variable {fd : Bool} {n d : Nat} {x : Byte} {s : State}

/-! ### The packets -/

/-- A header with a flag in argument byte `a` and a byte in argument byte `b`, as the rules write it. -/
theorem header_bool_byte (op : Opcode) (fd : Bool) (b : Byte) :
    op.pattern ||| fieldBit 16 fd ||| fieldAt 8 b = header op (boolArg fd) b 0 := by
  rw [header_or, fieldAt_bool, fieldAt_zero, Opcode.pattern]
  exact BitVec.or_zero.symm

/-- The flag reads back. -/
theorem header_bit16_boolArg (op : Opcode) (fd : Bool) (b c : Byte) : (header op (boolArg fd) b c).getLsbD 16 = fd := by
  rw [header_bitA op _ b c (k := 0) (by omega)]
  cases fd <;> rfl

theorem carries_dlcEnc (fd : Bool) (n : Byte) :
    Carries (0x30000000 ||| fieldBit 16 fd ||| fieldAt 8 n) [] (.dlcEnc fd n) :=
  carries_of_header (Laws.HeaderForm.dlcEnc fd n) rfl rfl (header_bool_byte .dlcEnc fd n) (by
    simp only [instrOf, header_bit16_boolArg, headerB_header])

theorem carries_dlcDec (fd : Bool) (d : Byte) :
    Carries (0x31000000 ||| fieldBit 16 fd ||| fieldAt 8 d) [] (.dlcDec fd d) :=
  carries_of_header (Laws.HeaderForm.dlcDec fd d) rfl rfl (header_bool_byte .dlcDec fd d) (by
    simp only [instrOf, header_bit16_boolArg, headerB_header])

/-! ### The two functions against the table -/

/-- The encoder of R191 against the table: an answered length lies within the bounds of the table, where the rows decide. -/
theorem lenToDlc_iff (fd : Bool) (n d : Nat) : lenToDlc fd n = some d ↔ (n, d) ∈ dlcTable ∧ n ∈ legalLengths fd := by
  have answered : ∀ fd : Bool, ∀ n < 65, ∀ d ∈ lenToDlc fd n, (n, d) ∈ dlcTable ∧ n ∈ legalLengths fd := by decide
  have row : ∀ fd : Bool, ∀ p ∈ dlcTable, p.1 ∈ legalLengths fd → lenToDlc fd p.1 = some p.2 := by decide
  constructor
  · intro h
    obtain ⟨hn, -⟩ := lenToDlc_bounds h
    exact answered fd n (Nat.lt_succ_of_le hn) d h
  · rintro ⟨hrow, hlegal⟩
    exact row fd (n, d) hrow hlegal

theorem lenToDlc_none (h : n ∉ legalLengths fd) : lenToDlc fd n = none :=
  Option.eq_none_iff_forall_ne_some.2 fun d hd => h ((lenToDlc_iff fd n d).1 hd).2

theorem dlcToLen_none (h : ∀ n, (n, d) ∈ dlcTable → n ∉ legalLengths fd) : dlcToLen fd d = none := by
  refine Option.eq_none_iff_forall_ne_some.2 fun n hn => ?_
  obtain ⟨hrow, hlegal⟩ := (dlcToLen_iff fd d n).1 hn
  exact h n hrow hlegal

/-! ### DLC.ENC and DLC.DEC (R191, R192) -/

theorem exec_dlcEnc_some (h : lenToDlc fd x.toNat = some d) :
    exec (.dlcEnc fd x) s = .next (s.answer 0x3000 [BitVec.ofNat 32 d]) := by
  simp only [exec, execDlcEnc, h, answerOk_eq]
  rfl

theorem exec_dlcEnc_none (h : lenToDlc fd x.toNat = none) :
    exec (.dlcEnc fd x) s = .next (s.answer 0x3005 []) := by
  simp only [exec, execDlcEnc, h, raise_eq]
  rfl

theorem exec_dlcDec_some (h : dlcToLen fd x.toNat = some n) :
    exec (.dlcDec fd x) s = .next (s.answer 0x3100 [BitVec.ofNat 32 n]) := by
  simp only [exec, execDlcDec, h, answerOk_eq]
  rfl

theorem exec_dlcDec_none (h : dlcToLen fd x.toNat = none) :
    exec (.dlcDec fd x) s = .next (s.answer 0x3106 []) := by
  simp only [exec, execDlcDec, h, raise_eq]
  rfl

/-- Settles O41: each function answers a row of the table exactly when the row's length is legal for the class. -/
theorem dlcEncodeDecode : Obligations.DlcEncodeDecode := fun fd x _ =>
  ⟨carries_dlcEnc fd x, carries_dlcDec fd x,
    fun d hrow hlegal => exec_dlcEnc_some ((lenToDlc_iff fd x.toNat d).2 ⟨hrow, hlegal⟩),
    fun hillegal => exec_dlcEnc_none (lenToDlc_none hillegal),
    fun n hrow hlegal => exec_dlcDec_some ((dlcToLen_iff fd x.toNat n).2 ⟨hrow, hlegal⟩),
    fun hillegal => exec_dlcDec_none (dlcToLen_none hillegal)⟩

end Sys2Proof.Machine
end

section
/-! PROOFS. The timestamp accumulator (44_timestamp.md R201, R203): the packets of its two operations, and the conversion in
natural numbers. -/

namespace Sys2Proof.Machine

variable {f : FrameReg} {v : Bool} {dts lo hi : Word} {s : State}

/-! ### The packets -/

/-- A header with `f` and a flag in argument byte `a` and nothing else, as the rules write it. -/
theorem header_frameBool (op : Opcode) (f : FrameReg) (x : Bool) :
    op.pattern ||| fieldF f ||| fieldBit 17 x = header op (frameBoolArg f x) 0 0 := by
  rw [← header_frameBool_bytes, fieldAt_zero, fieldAt_zero]
  exact (BitVec.or_zero.trans BitVec.or_zero).symm

theorem carries_tsConv (f : FrameReg) (v : Bool) (dts lo hi : Word) :
    Carries (0x40000000 ||| fieldF f ||| fieldBit 17 v) [dts, lo, hi] (.tsConv f v dts lo hi) :=
  carries_of_header (Laws.HeaderForm.tsConv f v dts lo hi) rfl rfl (header_frameBool .tsConv f v) (by
    simp only [instrOf, headerFrame_frameBoolArg, header_bit17_frameBoolArg, List.getD_cons_zero,
      List.getD_cons_succ])

theorem carries_tsGet : Carries 0x41000000 [] .tsGet :=
  carries_of_header Laws.HeaderForm.tsGet rfl rfl rfl rfl

/-! ### The converted time (R201) -/

/-- "The high 32 bits of elapsed, in place": masking the low half away leaves the multiple of `2^32` below. -/
theorem highHalf_toNat (x : DWord) : (x &&& 0xFFFFFFFF00000000).toNat = x.toNat / 2 ^ 32 * 2 ^ 32 := by
  have hmask : x &&& (0xFFFFFFFF00000000 : DWord) = x >>> 32 <<< 32 :=
    (BitVec.shiftLeft_ushiftRight (x := x) (n := 32)).symm
  have := x.isLt
  rw [hmask, BitVec.toNat_shiftLeft, BitVec.toNat_ushiftRight, Nat.shiftLeft_eq, Nat.shiftRight_eq_div_pow]
  omega

/-- The captured host time and the 32-bit wrapping difference of the device counter. -/
theorem hostOff_add_sub_toNat (hostOff : DWord) (dts devT0 : Word) : (hostOff + (dts - devT0).setWidth 64).toNat =
    (hostOff.toNat + (dts.toNat + 2 ^ 32 - devT0.toNat) % 2 ^ 32) % 2 ^ 64 := by
  have hdiff : 2 ^ 32 - devT0.toNat + dts.toNat = dts.toNat + 2 ^ 32 - devT0.toNat := by omega
  rw [BitVec.toNat_add, BitVec.toNat_setWidth_of_le (by omega), BitVec.toNat_sub, hdiff]

/-- The time `TS.CONV` computes is R201's in natural numbers, by its three cases. -/
theorem convertTime_toNat (s : State) (v : Bool) (dts : Word) (elapsed : DWord) :
    (convertTime s.hostNow s.hostOff s.devT0 v dts elapsed).toNat = conversionTime s v dts elapsed.toNat := by
  have hzero : dts = 0 ↔ dts.toNat = 0 := BitVec.toNat_inj.symm
  have hlt : rolloverThreshold < elapsed ↔ elapsed.toNat > 6442450944 := BitVec.lt_def
  simp only [convertTime, conversionTime, hzero, hlt]
  split_ifs with fallback wrapped
  · rfl
  · rw [BitVec.toNat_add, hostOff_add_sub_toNat, highHalf_toNat]
  · exact hostOff_add_sub_toNat ..

/-! ### TS.CONV and TS.GET (R201, R203) -/

theorem exec_tsConv_refused (h : s.ifState ≠ .opened) : exec (.tsConv f v dts lo hi) s = .next (s.answer 0x4004 []) :=
  if_pos h

theorem exec_tsConv {t : DWord} (h : s.ifState = .opened)
    (ht : convertTime s.hostNow s.hostOff s.devT0 v dts (joinWords lo hi) = t) : exec (.tsConv f v dts lo hi) s =
    .next ((s.setFrame f { s.frame f with timestamp := splitMicros t }).answer 0x4000
      [lowWord (splitMicros t).seconds, highWord (splitMicros t).seconds, (splitMicros t).microseconds]) := by
  subst ht
  exact if_neg (not_not_intro h)

theorem exec_tsGet (s : State) :
    exec .tsGet s = .next (s.answer 0x4100 [lowWord s.hostOff, highWord s.hostOff, s.devT0]) := rfl

/-- Settles O42: `convertTime_toNat` on the elapsed time the two operand words stand for (20_memory.md R69). -/
theorem timestampConversion : Obligations.TimestampConversion := fun f v dts lo hi s =>
  ⟨carries_tsConv f v dts lo hi, exec_tsConv_refused, fun hopen => by
    rw [exec_tsConv hopen rfl, lowWord_eq, highWord_eq, (splitMicros_spec _).1, splitMicros, convertTime_toNat,
      joinWords_toNat]⟩

/-- Settles O44: R69 for the words of `HOSTOFF`. -/
theorem timestampGet : Obligations.TimestampGet :=
  ⟨carries_tsGet, fun s => by rw [exec_tsGet, lowWord_eq, highWord_eq]⟩

end Sys2Proof.Machine
end

section
/-! PROOFS. The serializer and the transmit byte port (45_serializer.md R210 to R220): the packets of the five commands, the
lines they append, and the transmit queue. -/

namespace Sys2Proof.Machine

variable {f : FrameReg} {fr : Frame} {n : BitVec 4} {s t : State} {i : Instr} {l : List Byte} {e : Status}

/-! ### The packets -/

/-- A header with a narrow field in argument byte `b`, as the rules write it. -/
theorem header_argB (op : Opcode) {w : Nat} (v : BitVec w) (hw : w ≤ 8) :
    op.pattern ||| fieldAt 8 v = header op 0 (v.setWidth 8) 0 := by
  rw [header_or, fieldAt_setWidth 8 v hw, fieldAt_zero, fieldAt_zero, Opcode.pattern]
  exact (BitVec.or_zero.trans (congrArg (· ||| fieldAt 8 v) BitVec.or_zero)).symm

/-- The narrow field reads back. -/
theorem header_argB_read (op : Opcode) {w : Nat} (v : BitVec w) (hw : w ≤ 8) (a c : Byte) :
    (header op a (v.setWidth 8) c).extractLsb' 8 w = v := by
  rw [header_fieldB op a _ c hw, BitVec.setWidth_setWidth_of_le v hw, BitVec.setWidth_eq]

theorem carries_serFrame (f : FrameReg) : Carries (0x50000000 ||| fieldF f) [] (.serFrame f) :=
  carries_of_header (Laws.HeaderForm.serFrame f) rfl rfl (header_frame .serFrame f) (by simp [instrOf])

theorem carries_serBitrate (n : BitVec 4) : Carries (0x51000000 ||| fieldAt 8 n) [] (.serBitrate n) :=
  carries_of_header (Laws.HeaderForm.serBitrate n) rfl rfl (header_argB .serBitrate n (by omega)) (by
    simp [instrOf, header_argB_read])

theorem carries_serFdRate (n : BitVec 4) : Carries (0x52000000 ||| fieldAt 8 n) [] (.serFdRate n) :=
  carries_of_header (Laws.HeaderForm.serFdRate n) rfl rfl (header_argB .serFdRate n (by omega)) (by
    simp [instrOf, header_argB_read])

theorem carries_serOpenCh : Carries 0x53000000 [] .serOpenCh :=
  carries_of_header Laws.HeaderForm.serOpenCh rfl rfl rfl rfl

theorem carries_serCloseCh : Carries 0x54000000 [] .serCloseCh :=
  carries_of_header Laws.HeaderForm.serCloseCh rfl rfl rfl rfl

/-! ### The line of a frame (R210 to R212) -/

theorem encodeLine_errFrame (h : fr.rawId.getLsbD 29 = true ∨ (fr.isFD = true ∧ fr.rawId.getLsbD 30 = true)) :
    encodeLine fr = .error .errFrame := by
  rcases h with herror | hremoteFd
  · exact if_pos herror
  · exact (if_congr Iff.rfl rfl (if_pos hremoteFd)).trans (ite_self _)

section
variable (h : ¬ (fr.rawId.getLsbD 29 = true ∨ (fr.isFD = true ∧ fr.rawId.getLsbD 30 = true)))
include h

/-- Past the two `ERR_FRAME` tests an illegal length refuses the frame. -/
theorem encodeLine_errLength (hlen : fr.length.toNat ∉ legalLengths fr.isFD) : encodeLine fr = .error .errLength := by
  obtain ⟨hnoError, hnoRemoteFd⟩ := not_or.1 h
  exact (if_neg hnoError).trans ((if_neg hnoRemoteFd).trans (by rw [lenToDlc_none hlen]))

/-- A frame that is not refused has the line of R210. -/
theorem encodeLine_lineOf (hlen : fr.length.toNat ∈ legalLengths fr.isFD) :
    ∃ L, encodeLine fr = .ok L ∧ LineOf fr L := by
  obtain ⟨hnoError, hnoRemoteFd⟩ := not_or.1 h
  obtain ⟨d, hd, hrow, hd16, hn⟩ := lenToDlc_legal hlen
  exact ⟨frameLine fr d, (if_neg hnoError).trans ((if_neg hnoRemoteFd).trans (by rw [hd])),
    frameLine_lineOf hnoRemoteFd hrow hd16 hn⟩

end

/-! ### SER.FRAME (R213) -/

theorem exec_serFrame_refused (h : encodeLine (s.frame f) = .error e) :
    exec (.serFrame f) s = .next ((s.bump .txErrors).answer (statusWord e 0x50) []) := by
  simp only [exec, execSerFrame, h, raise_eq]
  rfl

theorem exec_serFrame_fits (h : encodeLine (s.frame f) = .ok l) (hfits : s.txq.length + l.length ≤ s.params.txqCap) :
    exec (.serFrame f) s = .next ((stampSent f (enqueue l s)).answer 0x5000 []) := by
  simp only [exec, execSerFrame, h, lineFits, hfits, decide_true, if_true, answerOk_eq]
  rfl

theorem exec_serFrame_full (h : encodeLine (s.frame f) = .ok l) (hfull : s.params.txqCap < s.txq.length + l.length) :
    exec (.serFrame f) s = .next ((s.bump .txDropped).answer 0x5008 []) := by
  simp only [exec, execSerFrame, h, lineFits, Nat.not_le.2 hfull, decide_false, Bool.false_eq_true, if_false, raise_eq]
  rfl

/-- Settles O45: the refusals are `encodeLine`'s in its order, and any other frame's line is the one of R210. -/
theorem serializeFrame : Obligations.SerializeFrame := fun f s =>
  ⟨carries_serFrame f, fun hclass => exec_serFrame_refused (encodeLine_errFrame hclass), fun hclass =>
    ⟨fun hlen => exec_serFrame_refused (encodeLine_errLength hclass hlen), fun hlen => by
      obtain ⟨L, hL, hline⟩ := encodeLine_lineOf hclass hlen
      exact ⟨L, hline, exec_serFrame_fits hL, exec_serFrame_full hL⟩⟩⟩

/-! ### The configuration lines (R215 to R219) -/

/-- An operation that appends a line queues it whole and answers OK when it fits, and else counts it as dropped. -/
theorem exec_appends (op : Opcode) (h : exec i s = appendLine op l s) :
    (s.txq.length + l.length ≤ s.params.txqCap →
      exec i s = .next ((enqueue l s).answer (statusNumber op.code.toNat 0x00) [])) ∧
    (s.params.txqCap < s.txq.length + l.length →
      exec i s = .next ((s.bump .txDropped).answer (statusNumber op.code.toNat 0x08) [])) := by
  rw [h]
  obtain ⟨hfits, heq⟩ | ⟨hfull, heq⟩ := appendLine_cases op l s
  · rw [heq, statusWord_eq]
    exact ⟨fun _ => rfl, fun hfull => absurd hfits (Nat.not_le.2 hfull)⟩
  · rw [heq, statusWord_eq]
    exact ⟨fun hfits => absurd hfits (Nat.not_le.2 hfull), fun _ => rfl⟩

theorem exec_serBitrate (h : n.toNat ≤ 9) :
    exec (.serBitrate n) s = appendLine .serBitrate [0x53, digitChar n, charCR] s := if_neg (Nat.not_lt.2 h)

theorem exec_serBitrate_refused (h : 9 < n.toNat) : exec (.serBitrate n) s = .next (s.answer 0x5101 []) := if_pos h

theorem fdPreset_iff (n : BitVec 4) : n.toNat ∈ [2, 4, 5, 8] ↔ n = 2 ∨ n = 4 ∨ n = 5 ∨ n = 8 := by
  revert n
  decide

theorem exec_serFdRate (h : n = 2 ∨ n = 4 ∨ n = 5 ∨ n = 8) :
    exec (.serFdRate n) s = appendLine .serFdRate [0x59, digitChar n, charCR] s := if_pos ((fdPreset_iff n).2 h)

theorem exec_serFdRate_refused (h : ¬ (n = 2 ∨ n = 4 ∨ n = 5 ∨ n = 8)) :
    exec (.serFdRate n) s = .next (s.answer 0x5201 []) := if_neg fun hn => h ((fdPreset_iff n).1 hn)

/-- Settles O46: each command with a legal operand is one `appendLine`. -/
theorem serializeConfiguration : Obligations.SerializeConfiguration := fun _ =>
  ⟨fun n => ⟨carries_serBitrate n, fun hn => exec_appends .serBitrate (exec_serBitrate hn), exec_serBitrate_refused⟩,
    fun n => ⟨carries_serFdRate n, fun hn => exec_appends .serFdRate (exec_serFdRate hn), exec_serFdRate_refused⟩,
    carries_serOpenCh, exec_appends .serOpenCh rfl, carries_serCloseCh, exec_appends .serCloseCh rfl⟩

/-! ### TX.POP (R220) -/

theorem exec_txPop_nil (h : s.txq = []) : exec .txPop s = .next (s.emit .txEmpty) := by
  simp only [exec, execTxPop, h]

theorem exec_txPop_cons {v : Byte} {rest : List Byte} (h : s.txq = v :: rest) :
    exec .txPop s = .next ({ s with txq := rest }.emit (.txByte v)) := by
  simp only [exec, execTxPop, h]

theorem execAll_cons {is : List Instr} (h : exec i s = .next t) : execAll (i :: is) s = execAll is t := by
  simp only [execAll, h]

/-- Repeated pops answer the bytes at the front of the queue in the order they entered (20_memory.md R64). -/
theorem execAll_txPop {rest : List Byte} (l : List Byte) (h : s.txq = l ++ rest) :
    execAll (List.replicate l.length .txPop) s =
      .next { s with txq := rest, outputs := s.outputs ++ l.map .txByte } := by
  induction l generalizing s with
  | nil =>
    subst h
    simp [execAll]
  | cons v l ih =>
    rw [List.length_cons, List.replicate_succ, execAll_cons (exec_txPop_cons h), ih rfl]
    simp

/-- Settles O47, by `execAll_txPop`. -/
theorem transmitQueueIsFirstInFirstOut : Obligations.TransmitQueueIsFirstInFirstOut :=
  ⟨rfl, fun _ => exec_txPop_nil, fun _ _ _ => exec_txPop_cons, fun l _ _ => execAll_txPop l⟩

end Sys2Proof.Machine
end

section
/-! PROOFS. The line parser (46_deserializer.md R231 to R235): what each of its parts accepts, and that it accepts exactly the
lines `LineMeans` describes. -/

namespace Sys2Proof.Machine

variable {p : ParsedFrame} {k : LineClass} {bs : List Byte} {n : Nat}

/-! ### The payload (R235) -/

theorem hexPairs_cons_iff (hi lo : Byte) (rest bs : List Byte) : hexPairs (hi :: lo :: rest) = some bs ↔
    ∃ a b bytes, hexVal hi = some a ∧ hexVal lo = some b ∧ hexPairs rest = some bytes ∧
      bs = BitVec.ofNat 8 (a * 16 + b) :: bytes := by
  constructor
  · intro h
    rw [hexPairs] at h
    split at h
    · next a b bytes ha hb hrest =>
      cases h
      exact ⟨a, b, bytes, ha, hb, hrest, rfl⟩
    · cases h
  · rintro ⟨a, b, bytes, ha, hb, hrest, rfl⟩
    rw [hexPairs, ha, hb, hrest]

/-- The digits `vs` spell the `n` bytes `bs`, two digits a byte, the high nibble first (the clause of `LineMeans`). -/
def SpellsBytes (n : Nat) (vs : List Nat) (bs : List Byte) : Prop :=
  bs.length = n ∧ ∀ i, i < n → bs[i]? = some (BitVec.ofNat 8 (vs.getD (2 * i) 0 * 16 + vs.getD (2 * i + 1) 0))

theorem spellsBytes_zero (vs : List Nat) (bs : List Byte) : SpellsBytes 0 vs bs ↔ bs = [] := by simp [SpellsBytes]

theorem spellsBytes_cons (n a b : Nat) (vs : List Nat) (x : Byte) (bs : List Byte) :
    SpellsBytes (n + 1) (a :: b :: vs) (x :: bs) ↔ x = BitVec.ofNat 8 (a * 16 + b) ∧ SpellsBytes n vs bs := by
  have hlater (i : Nat) : 2 * (i + 1) = 2 * i + 2 := by omega
  constructor
  · rintro ⟨hn, h⟩
    exact ⟨by simpa using h 0 (by omega), by simpa using hn, fun i hi => by simpa [hlater] using h (i + 1) (by omega)⟩
  · rintro ⟨rfl, rfl, h⟩
    refine ⟨rfl, fun i hi => ?_⟩
    cases i with
    | zero => rfl
    | succ i => simpa [hlater] using h i (by omega)

/-- Two characters for each byte, by induction on the number of bytes. -/
theorem hexPairs_iff {ps : List Byte} (hlen : ps.length = 2 * n) : hexPairs ps = some bs ↔
    ∃ vs, ps.mapM hexVal = some vs ∧ SpellsBytes n vs bs := by
  induction n generalizing ps bs with
  | zero =>
    obtain rfl := List.length_eq_zero_iff.1 hlen
    simp [hexPairs, spellsBytes_zero, eq_comm]
  | succ n ih =>
    obtain ⟨hi, lo, rest, rfl⟩ : ∃ hi lo rest, ps = hi :: lo :: rest := by
      match ps, hlen with
      | hi :: lo :: rest, _ => exact ⟨hi, lo, rest, rfl⟩
    have hrest : rest.length = 2 * n := by
      simp only [List.length_cons] at hlen
      omega
    simp only [hexPairs_cons_iff, List.mapM_cons, Option.bind_eq_bind, Option.pure_def, Option.bind_eq_some_iff,
      Option.some.injEq, ih hrest]
    constructor
    · rintro ⟨a, b, bytes, ha, hb, ⟨vs, hvs, hspell⟩, rfl⟩
      exact ⟨a :: b :: vs, ⟨a, ha, _, ⟨b, hb, vs, hvs, rfl⟩, rfl⟩, (spellsBytes_cons ..).2 ⟨rfl, hspell⟩⟩
    · rintro ⟨_, ⟨a, ha, _, ⟨b, hb, vs, hvs, rfl⟩, rfl⟩, hspell⟩
      obtain ⟨x, bytes, rfl⟩ := List.exists_cons_of_length_eq_add_one hspell.1
      obtain ⟨rfl, htail⟩ := (spellsBytes_cons ..).1 hspell
      exact ⟨a, b, bytes, ha, hb, ⟨vs, hvs, htail⟩, rfl⟩

/-- A remote line carries no payload, whatever its DLC. -/
theorem parsePayload_remote (n : Nat) (rest : List Byte) : parsePayload true n rest = some bs ↔ bs = [] := by
  simp [parsePayload, eq_comm]

/-- Any other line's payload is the first `2 * n` characters behind the DLC digit; what stands behind them is ignored. -/
theorem parsePayload_data (n : Nat) (rest : List Byte) : parsePayload false n rest = some bs ↔
    ∃ ps tail vs, rest = ps ++ tail ∧ ps.length = 2 * n ∧ ps.mapM hexVal = some vs ∧ SpellsBytes n vs bs := by
  rw [parsePayload, if_neg Bool.false_ne_true]
  split
  · next hshort =>
    simp only [reduceCtorEq, false_iff]
    rintro ⟨ps, tail, _, rfl, hps, -⟩
    simp only [List.length_append] at hshort
    omega
  · next hlong =>
    have htake : (rest.take (2 * n)).length = 2 * n := List.length_take_of_le (Nat.not_lt.1 hlong)
    rw [hexPairs_iff htake]
    constructor
    · rintro ⟨vs, hvs, hspell⟩
      exact ⟨_, _, vs, (List.take_append_drop (2 * n) rest).symm, htake, hvs, hspell⟩
    · rintro ⟨ps, tail, vs, rfl, hps, hvs, hspell⟩
      exact ⟨vs, by rwa [← hps, List.take_left], hspell⟩

/-- The two together, by the class's remote flag. -/
theorem parsePayload_iff (rtr : Bool) (n : Nat) (rest : List Byte) : parsePayload rtr n rest = some bs ↔
    (rtr = true → bs = []) ∧
    (rtr = false → ∃ ps tail vs,
      rest = ps ++ tail ∧ ps.length = 2 * n ∧ ps.mapM hexVal = some vs ∧ SpellsBytes n vs bs) := by
  cases rtr with
  | true => simp [parsePayload_remote]
  | false => simp [parsePayload_data]

/-! ### Identifier, DLC and payload (R233 to R235) -/

/-- A line long enough for its identifier and DLC splits at its DLC digit, and each part is read on its own. -/
theorem parseBody_append (k : LineClass) (ids : List Byte) (dl : Byte) (rest : List Byte) :
    parseBody k ids.length (ids ++ dl :: rest) = some p ↔
      hexNumber 0 ids = some p.id ∧ p.id ≤ idLimit k.ext ∧
        (∃ h, hexVal dl = some h ∧ dlcToLen k.fd h = some p.n) ∧
        parsePayload k.rtr p.n rest = some p.bytes ∧ p.cls = k := by
  have hlong : ¬ (ids ++ dl :: rest).length < ids.length + 1 := by
    simp only [List.length_append, List.length_cons]
    omega
  have hdl : (ids ++ dl :: rest).getD ids.length 0 = dl := by simp
  have hrest : (ids ++ dl :: rest).drop (ids.length + 1) = rest := by simp
  rw [parseBody, if_neg hlong, List.take_left, hdl, hrest]
  obtain ⟨cls, id, n, bytes⟩ := p
  simp only [Option.bind_eq_bind, Option.bind_eq_some_iff, Option.ite_none_left_eq_some, Option.some.injEq,
    ParsedFrame.mk.injEq, Nat.not_lt]
  constructor
  · rintro ⟨_, hid, hlimit, h, hh, _, hn, _, hpay, rfl, rfl, rfl, rfl⟩
    exact ⟨hid, hlimit, ⟨h, hh, hn⟩, hpay, rfl⟩
  · rintro ⟨hid, hlimit, ⟨h, hh, hn⟩, hpay, rfl⟩
    exact ⟨id, hid, hlimit, h, hh, n, hn, bytes, hpay, rfl, rfl, rfl, rfl⟩

theorem parseBody_splits {body : List Byte} (h : parseBody k n body = some p) :
    ∃ ids dl rest, body = ids ++ dl :: rest ∧ ids.length = n := by
  have hlong : n < body.length := by
    by_contra hshort
    rw [parseBody, if_pos (by omega)] at h
    cases h
  exact ⟨body.take n, body[n], body.drop (n + 1), by rw [← List.drop_eq_getElem_cons, List.take_append_drop],
    List.length_take_of_le hlong.le⟩

/-! ### The whole line (R231, R232) -/

theorem parseLine_cons (c : Byte) (body : List Byte) : parseLine (c :: body) = some p ↔
    ∃ k, (c, k) ∈ letterTable ∧ parseBody k (if k.ext then 8 else 3) body = some p := by
  simp only [← lineClass_iff, parseLine]
  cases lineClass c <;> simp

/-- Both sides split the line into letter, identifier, DLC digit and the rest; then part by part. -/
theorem parseLine_iff (L : List Byte) (p : ParsedFrame) : parseLine L = some p ↔ LineMeans L p := by
  constructor
  · intro h
    cases L with
    | nil => cases h
    | cons c body =>
      obtain ⟨k, hletter, h⟩ := (parseLine_cons c body).1 h
      obtain ⟨ids, dl, rest, rfl, hids⟩ := parseBody_splits h
      rw [← hids, parseBody_append] at h
      obtain ⟨hid, hlimit, ⟨d, hd, hn⟩, hpay, rfl⟩ := h
      obtain ⟨hs, hhs, hval⟩ := (hexNumber_iff ids 0 p.id).1 hid
      obtain ⟨hrow, hlegal⟩ := (dlcToLen_iff _ d p.n).1 hn
      obtain ⟨hremote, hdata⟩ := (parsePayload_iff _ p.n rest).1 hpay
      exact ⟨c, ids, dl, rest, hs, d, rfl, hletter, hids, hhs, hval, hlimit, hd, hrow, hlegal, hremote, hdata⟩
  · rintro ⟨c, ids, dl, rest, hs, d, rfl, hletter, hids, hhs, hval, hlimit, hd, hrow, hlegal, hremote, hdata⟩
    rw [List.cons_append, parseLine_cons]
    refine ⟨p.cls, hletter, ?_⟩
    rw [← hids, parseBody_append]
    exact ⟨(hexNumber_iff ids 0 p.id).2 ⟨hs, hhs, hval⟩, hlimit, ⟨d, hd, (dlcToLen_iff _ d p.n).2 ⟨hrow, hlegal⟩⟩,
      (parsePayload_iff _ p.n rest).2 ⟨hremote, hdata⟩, rfl⟩

/-- Settles O49, by `parseLine_iff`; the parser fails the empty line by its first equation. -/
theorem parserAcceptsExactlyTheLines : Obligations.ParserAcceptsExactlyTheLines := ⟨parseLine_iff, rfl⟩

end Sys2Proof.Machine
end

section
/-! PROOFS. The frame deserializer and the receive byte port (46_deserializer.md R236 to R243): the packets of the two commands,
the push, and the poll with the frame it writes. -/

namespace Sys2Proof.Machine

variable {s : State} {f : FrameReg} {p : ParsedFrame} {d : Byte}

/-! ### The packets -/

theorem carries_desPoll (f : FrameReg) : Carries (0x60000000 ||| fieldF f) [] (.desPoll f) :=
  carries_of_header (Laws.HeaderForm.desPoll f) rfl rfl (header_frame .desPoll f) (by simp [instrOf])

theorem carries_desLevel : Carries 0x61000000 [] .desLevel :=
  carries_of_header Laws.HeaderForm.desLevel rfl rfl rfl rfl

/-! ### RX.PUSH (R241) -/

theorem exec_rxPush_overrun (h : ringNext s s.ringHead = s.ringTail) :
    exec (.rxPush d) s = .next ({ s with ringHead := 0, ringTail := 0 }.bump .rxOverruns) := if_pos h

theorem exec_rxPush_stores (h : ringNext s s.ringHead ≠ s.ringTail) :
    exec (.rxPush d) s = .next { s with ring := s.ring.write s.ringHead d, ringHead := ringNext s s.ringHead } := if_neg h

/-- Settles O48: `RING_CAP - 1` stored bytes are the full ring of `ringNext_eq_tail`; storing a byte is a write at the head. -/
theorem receivePush : Obligations.ReceivePush := by
  intro d s hinv
  refine ⟨rfl, ?_, exec_rxPush_overrun, fun hroom => ⟨s.ring.write s.ringHead d, exec_rxPush_stores hroom, ?_, ?_, ?_⟩⟩
  · rw [ringBytes_length]
    exact ringNext_eq_tail hinv.ringOk
  · exact ringBytes_push hinv.ringOk hinv.ring_wf hroom d
  · exact read_write_same hinv.ring_wf
  · exact fun k hk => read_write_other hinv.ring_wf (Ne.symm hk)

/-! ### DES.LEVEL (R237) -/

theorem exec_desLevel (s : State) : exec .desLevel s =
    .next (s.answer 0x6100 [countWord (ringCount s), countWord s.lineLen, countWord s.txq.length]) := rfl

/-- Settles O51: a count below `2^32` is its word. -/
theorem deserializerLevel : Obligations.DeserializerLevel := by
  refine ⟨carries_desLevel, fun s _ => ⟨_, _, _, exec_desLevel s, ?_, countWord_small, countWord_small⟩⟩
  rw [ringBytes_length]
  exact countWord_small

/-! ### The frame a line leaves in a register (R238) -/

theorem lineMeans_id_lt {L : List Byte} (h : LineMeans L p) : p.id < 2 ^ 30 := by
  obtain ⟨-, -, -, -, -, -, -, -, -, -, -, hlimit, -⟩ := h
  split at hlimit <;> omega

/-- The class's flags are a multiple of `2 ^ 30`, above the identifier, so the three parts add up. -/
theorem rawId_toNat (h : p.id < 2 ^ 30) :
    p.rawId.toNat = p.cls.ext.toNat * 2 ^ 31 + p.cls.rtr.toNat * 2 ^ 30 + p.id := by
  have hflags (a b : Bool) : (BitVec.ofNat 32 a.toNat <<< 31 ||| BitVec.ofNat 32 b.toNat <<< 30).toNat =
      2 ^ 30 * (2 * a.toNat + b.toNat) := by revert a b; decide
  rw [ParsedFrame.rawId, BitVec.toNat_or, hflags, BitVec.toNat_ofNat, Nat.mod_eq_of_lt (by omega),
    ← Nat.two_pow_add_eq_or_of_lt h]
  omega

theorem lineMeans_n_le {L : List Byte} (h : LineMeans L p) : p.n ≤ 64 :=
  (parseLine_bounds ((parseLine_iff L p).2 h)).1

/-- Bytes written from index 0 replace what the space held there, and nothing behind them. -/
theorem read_writeBytes_zero {m : Memory} (h : m.wf = true) (bs : List Byte) (k : Nat) :
    (m.writeBytes 0 bs).read k = (bs[k]?).getD (m.read k) := by
  rw [read_writeBytes h]
  by_cases hk : k < bs.length
  · simp [hk]
  · simp [hk]

/-! ### The poll (R236, R243) -/

/-- What moving the bytes `cs` to the line buffer leaves, but for the ring's read index, the line slots and the line length: only
the overflows are counted. -/
def State.moved (s : State) (cs : List Byte) (tail : Nat) (m : Memory) (n : Nat) : State :=
  { s with
    ringTail := tail
    line := m
    lineLen := n
    counters := { s.counters with rxOverruns := s.counters.rxOverruns + BitVec.ofNat 32 (lineOverflows s cs) } }

/-- A slot of the line buffer that none of the bytes `cs` was stored to holds in `m` what it held. -/
def OtherSlotsKept (s : State) (cs : List Byte) (m : Memory) : Prop :=
  ∀ k, (∀ j, j < cs.length → k ≠ (s.lineLen + j) % s.params.lineCap) → m.read k = s.line.read k

/-- `drain` in those terms. -/
theorem exists_drain_eq_moved (cs : List Byte) (h : LineOk s) : ∃ tail m n, drain cs s = s.moved cs tail m n ∧
    lineBytes (s.moved cs tail m n) = lineLeft s cs ∧ OtherSlotsKept s cs m := by
  obtain ⟨hline, hoverruns, hslots⟩ := drain_line cs h
  have hmoved : drain cs s = s.moved cs (drain cs s).ringTail (drain cs s).line (drain cs s).lineLen := by
    rw [State.moved, ← hoverruns]
    exact drain_rest cs s
  exact ⟨_, _, _, hmoved, by rw [← hmoved, hline], hslots⟩

/-- A line that means nothing is counted and leaves the frame register alone. -/
theorem endLine_of_no_meaning (h : ∀ p, ¬ LineMeans (lineBytes s) p) :
    endLine f s = .next (({ s with lineLen := 0 }.bump .rxErrors).answer 0x600A []) := by
  obtain ⟨-, heq⟩ | ⟨p, hp, -⟩ := endLine_cases f s
  · exact heq
  · exact absurd ((parseLine_iff _ p).1 hp) (h p)

/-- A line with a meaning is counted and its frame written. -/
theorem endLine_of_meaning (h : LineMeans (lineBytes s) p) : endLine f s =
    .next ((({ s with lineLen := 0 }.bump .rxCount).setFrame f
      (receivedFrame p s.hostNow s.ifId (s.frame f))).answer 0x6000 []) := by
  have hp := (parseLine_iff _ p).2 h
  obtain ⟨hnone, -⟩ | ⟨q, hq, heq⟩ := endLine_cases f s
  · simp [hp] at hnone
  · obtain rfl : p = q := by simpa [hp] using hq
    exact heq

/-- Without a CR the ring is drained: its read index stands at its head. -/
theorem desPoll_no_cr (hinv : Inv s) (hcr : charCR ∉ ringBytes s) : ∃ m n,
    exec (.desPoll f) s = .next ((s.moved (ringBytes s) s.ringHead m n).answer 0x6009 []) ∧
      lineBytes (s.moved (ringBytes s) s.ringHead m n) = lineLeft s (ringBytes s) ∧ OtherSlotsKept s (ringBytes s) m := by
  obtain ⟨tail, m, n, hmoved, hline, hslots⟩ := exists_drain_eq_moved (ringBytes s) hinv.lineOk
  have hexec : execDesPoll f s = _ := pollLoop_no_cr hinv.ringOk (Nat.le_refl _) hcr
  have htail : tail = s.ringHead := by
    have := drain_all hinv.ringOk (Nat.le_refl _)
    rwa [hmoved] at this
  subst htail
  exact ⟨m, n, by rw [exec, hexec, hmoved]; rfl, hline, hslots⟩

/-- With a CR the bytes before it are moved, it is dropped, and the line ended; the bytes behind it stay. -/
theorem desPoll_cr (hinv : Inv s) {pre post : List Byte} (hb : ringBytes s = pre ++ charCR :: post) (hcr : charCR ∉ pre) :
    ∃ tail m n, exec (.desPoll f) s = endLine f (s.moved pre tail m n) ∧ ringBytes (s.moved pre tail m n) = post ∧
      tail < s.params.ringCap ∧ lineBytes (s.moved pre tail m n) = lineLeft s pre ∧ OtherSlotsKept s pre m := by
  obtain ⟨tail, m, n, hmoved, hline, hslots⟩ := exists_drain_eq_moved pre hinv.lineOk
  obtain ⟨hexec, hpost, -, -⟩ := pollLoop_cr (f := f) hinv.ringOk (Nat.le_refl _) hb hcr
  have hdropped : ringDrop (s.moved pre tail m n) = s.moved pre (ringNext s tail) m n := rfl
  rw [hmoved, hdropped] at hexec hpost
  exact ⟨ringNext s tail, m, n, hexec, hpost, ringNext_lt hinv.ringOk tail, hline, hslots⟩

/-- Settles O50: the poll without and with a CR, and for a line with a meaning the frame `receivedFrame` field by field. -/
theorem deserializePoll : Obligations.DeserializePoll := by
  intro f s hinv
  refine ⟨carries_desPoll f, desPoll_no_cr hinv, fun pre post hb hcr => ?_⟩
  obtain ⟨tail, m, n, hexec, hpost, htail, hline, hslots⟩ := desPoll_cr (f := f) hinv hb hcr
  refine ⟨m, tail, hpost, htail, hslots, fun hno => ?_, fun p hp => ?_⟩
  · rw [← hline] at hno
    exact hexec.trans (endLine_of_no_meaning hno)
  · have hid := lineMeans_id_lt hp
    have hn := lineMeans_n_le hp
    rw [← hline] at hp
    refine ⟨receivedFrame p s.hostNow s.ifId (s.frame f), hexec.trans (endLine_of_meaning hp), rawId_toNat hid, rfl, rfl,
      ?_, read_writeBytes_zero (inv_frame hinv f).data_wf p.bytes, rfl, rfl, rfl⟩
    exact (BitVec.toNat_ofNat ..).trans (Nat.mod_eq_of_lt (by omega))

end Sys2Proof.Machine
end

section
/-! PROOFS. Errors (60_exceptions.md R264): the five forms an error's effect can have, that every command answers `OK` or one of
them, and the form behind each status. -/

namespace Sys2Proof.Machine

variable {s u : State} {op : Opcode} {st st' : Status} {c : Byte}

/-! ### The status in a status word (R260, 30_encoding.md R95) -/

/-- The status codes in the order of their numbers, R260. -/
def Status.all : List Status :=
  [.ok, .errIllegal, .errNotFound, .errConfig, .errState, .errLength, .errDlc, .errFrame, .errTxFull, .errEmpty, .errParse,
   .errEnd, .errDiv0]

theorem statusAll_code (st : Status) : Status.all[st.code.toNat]? = some st := by
  cases st <;> rfl

/-- No two statuses share a number. -/
theorem statusWord_injective (h : statusWord st c = statusWord st' c) : st = st' := by
  have hcode : st.code.toNat = st'.code.toNat := by
    have hnum := congrArg BitVec.toNat h
    simp only [statusWord, toNat_append_lt] at hnum
    omega
  have hsome := statusAll_code st
  rw [hcode, statusAll_code] at hsome
  exact (Option.some.inj hsome).symm

/-! ### The forms of an error -/

/-- What an error with a status leaves of the state, by the rule of its operation; the response comes on top. -/
inductive ErrorEffect (s : State) : Opcode → Status → State → Prop where
  /-- R213: `SER.FRAME` counts a frame it cannot write as a line. -/
  | refusedFrame {st : Status} (hst : st = .errFrame ∨ st = .errLength) : ErrorEffect s .serFrame st (s.bump .txErrors)
  /-- R219: a line that does not fit is dropped and counted. -/
  | queueFull {op : Opcode} : ErrorEffect s op .errTxFull (s.bump .txDropped)
  /-- R236: the bytes before the first CR are moved, the CR is dropped and the line discarded. -/
  | badLine {pre post : List Byte} {tail : Nat} {m : Memory} (hbytes : ringBytes s = pre ++ charCR :: post)
      (hcr : charCR ∉ pre) (hpost : ringBytes (s.moved pre tail m 0) = post) :
      ErrorEffect s .desPoll .errParse ((s.moved pre tail m 0).bump .rxErrors)
  /-- R236: every byte of the ring is moved. -/
  | ringDrained {m : Memory} {n : Nat}
      (hline : lineBytes (s.moved (ringBytes s) s.ringHead m n) = lineLeft s (ringBytes s)) :
      ErrorEffect s .desPoll .errEmpty (s.moved (ringBytes s) s.ringHead m n)
  /-- Every other error. -/
  | unchanged {op : Opcode} {st : Status} (hop : op ≠ .serFrame) (hst : st ∉ [.errTxFull, .errParse, .errEmpty]) :
      ErrorEffect s op st s

/-- An answer to a command that R264 permits: `OK`, with whatever its rule says, or an error in one of the five forms. -/
inductive PermittedAnswer (op : Opcode) (s : State) : Result → Prop where
  | ok (ws : List Word) (u : State) : PermittedAnswer op s (answerOk op ws u)
  | error {st : Status} {u : State} (h : ErrorEffect s op st u) : PermittedAnswer op s (raise op st u)

/-! ### Every command's answer is permitted -/

theorem PermittedAnswer.refused
    (h : op ≠ .serFrame ∧ st ∉ [.errTxFull, .errParse, .errEmpty] := by decide) : PermittedAnswer op s (raise op st s) :=
  .error (.unchanged h.1 h.2)

theorem PermittedAnswer.ite {p : Prop} [Decidable p] {a b : Result} (ha : PermittedAnswer op s a)
    (hb : PermittedAnswer op s b) : PermittedAnswer op s (if p then a else b) := by
  split
  · exact ha
  · exact hb

theorem appendLine_permitted (op : Opcode) (l : List Byte) (s : State) : PermittedAnswer op s (appendLine op l s) :=
  .ite (.ok _ _) (.error .queueFull)

theorem serFrame_permitted (f : FrameReg) (s : State) : PermittedAnswer .serFrame s (execSerFrame f s) := by
  obtain ⟨e, he, -, heq⟩ | ⟨l, -, -, heq⟩ | ⟨l, -, -, heq⟩ := serFrame_cases f s <;> rw [heq]
  · exact .error (.refusedFrame he)
  · exact .ok _ _
  · exact .error .queueFull

theorem desPoll_permitted (f : FrameReg) (hinv : Inv s) : PermittedAnswer .desPoll s (exec (.desPoll f) s) := by
  by_cases hcr : charCR ∈ ringBytes s
  · obtain ⟨pre, post, hbytes, hpre⟩ := List.eq_append_cons_of_mem hcr
    obtain ⟨tail, m, n, hexec, hpost, -⟩ := desPoll_cr (f := f) hinv hbytes hpre
    rw [hexec]
    obtain ⟨-, heq⟩ | ⟨p, -, heq⟩ := endLine_cases f (s.moved pre tail m n) <;> rw [heq]
    · exact .error (.badLine hbytes hpre hpost)
    · exact .ok _ _
  · obtain ⟨m, n, hexec, hline, -⟩ := desPoll_no_cr (f := f) hinv hcr
    rw [hexec]
    exact .error (.ringDrained hline)

theorem ifOpen_permitted (caps : BitVec 4) (clk dev : Word) (s : State) :
    PermittedAnswer .ifOpen s (execIfOpen caps clk dev s) := by
  refine .ite .refused (.ite .refused ?_)
  split
  · exact .refused
  · split
    · exact .refused
    · exact .ok _ _

theorem exec_permitted {i : Instr} (hop : opcodeOf i = some op) (hinv : Inv s) : PermittedAnswer op s (exec i s) := by
  cases i <;> cases hop
  case cfgApply | frmSetTs | btTq | tsConv => exact .ite .refused (.ok _ _)
  case statGet | statBump | btLookup | btItem | dlcEnc | dlcDec =>
    simp only [exec, execStatGet, execStatBump, execBtLookup, execBtItem, execDlcEnc, execDlcDec]
    split
    · exact .refused
    · exact .ok _ _
  case ifOpen => exact ifOpen_permitted ..
  case serFrame => exact serFrame_permitted ..
  case serBitrate => exact .ite .refused (appendLine_permitted ..)
  case serFdRate => exact .ite (appendLine_permitted ..) .refused
  case serOpenCh | serCloseCh => exact appendLine_permitted ..
  case desPoll f => exact desPoll_permitted f hinv
  -- The other commands cannot fail once decoded.
  all_goals exact .ok _ _

/-! ### The form behind each status -/

/-- What was answered on top of the outputs there were tells status and results. -/
theorem status_and_results_of_outputs {ws ws' : List Word} (hout : (u.answer (statusWord st' op.code) ws').outputs =
    s.outputs ++ [.response (statusNumber op.code.toNat st.code.toNat) ws]) : st' = st ∧ ws' = ws := by
  rw [← statusWord_eq] at hout
  have hresponse := (List.append_inj' hout rfl).2
  simp only [List.cons.injEq, Output.response.injEq, and_true] at hresponse
  exact ⟨statusWord_injective hresponse.1, hresponse.2⟩

theorem errorEffect_of_status {i : Instr} {t : State} {ws : List Word} (hinv : Inv s) (hop : opcodeOf i = some op)
    (ht : exec i s = .next t) (hst : st ≠ .ok)
    (hout : t.outputs = s.outputs ++ [.response (statusNumber op.code.toNat st.code.toNat) ws]) :
    ws = [] ∧ ∃ u, ErrorEffect s op st u ∧ t = u.answer (statusWord st op.code) [] := by
  have hperm := exec_permitted hop hinv
  rw [ht] at hperm
  cases hperm with
  | ok => exact absurd (status_and_results_of_outputs hout).1.symm hst
  | error heffect =>
    obtain ⟨rfl, rfl⟩ := status_and_results_of_outputs hout
    exact ⟨rfl, _, heffect, rfl⟩

/-- Settles O14: the answer is one of the five forms by `errorEffect_of_status`, and each form is the change its status lists. -/
theorem errorsChangeOnlyWhatRulesList : Obligations.ErrorsChangeOnlyWhatRulesList := by
  intro i op s t st ws hinv hop ht hst hout
  obtain ⟨hws, u, heffect, rfl⟩ := errorEffect_of_status hinv hop ht hst hout
  refine ⟨hws, ?_⟩
  cases heffect with
  | refusedFrame hrefused =>
    rw [if_pos ⟨rfl, hrefused⟩]
    rfl
  | queueFull =>
    rw [if_neg (by simp), if_pos rfl]
    rfl
  | badLine hbytes hcr hpost =>
    rw [if_neg (by simp), if_neg (by simp), if_pos rfl]
    exact ⟨_, _, hbytes, hcr, hpost, rfl⟩
  | ringDrained hline =>
    rw [if_neg (by simp), if_neg (by simp), if_neg (by simp), if_pos rfl]
    exact ⟨ringBytes_empty ⟨hinv.head_lt, hinv.head_lt⟩ rfl, hline, rfl⟩
  | unchanged hne hother =>
    simp only [List.mem_cons, List.not_mem_nil, or_false, not_or] at hother
    obtain ⟨hfull, hparse, hempty⟩ := hother
    rw [if_neg fun h => hne h.1, if_neg hfull, if_neg hparse, if_neg hempty]
    rfl

end Sys2Proof.Machine
end

section
/-! PROOFS. The reset table (70_reset_and_hazards.md R290): the all-zero frame, the table on every state of reset values, and the
step that takes the reset event. -/

namespace Sys2Proof.Machine

/-- The all-zero frame holds what R290 gives a frame register; a payload byte nothing has written reads as its reset value. -/
theorem frameZero_resetValues : Frame.zero.rawId = 0 ∧ Frame.zero.length = 0 ∧ (∀ i, i < 64 → Frame.zero.data.read i = 0) ∧
    Frame.zero.isFD = false ∧ Frame.zero.isBRS = false ∧ Frame.zero.timestamp = ⟨0, 0⟩ ∧
    Frame.zero.interfaceId = 0 ∧ Frame.zero.direction = .rx :=
  ⟨rfl, rfl, fun i _ => read_nil i, rfl, rfl, rfl, rfl, rfl⟩

theorem frame_resetWith (p : Params) (f : FrameReg) : (State.resetWith p).frame f = Frame.zero := by
  cases f with
  | f0 => rfl
  | f1 => rfl

theorem atReset_resetWith (p : Params) : AtReset (State.resetWith p) := by
  refine ⟨fun f => ?frames, ?rest⟩
  case frames =>
    rw [frame_resetWith]
    exact frameZero_resetValues
  case rest => simp [State.resetWith, Counters.zero]

/-- The table of R290 names no port, so what the ports hold has no part in it. -/
theorem AtReset.with_ports {t : State} (h : AtReset t) (now : DWord) (ins : List Input) (outs : List Output) :
    AtReset { t with hostNow := now, inputs := ins, outputs := outs } := h

/-- What the reset event leaves of a state is its parameters and its ports. -/
theorem applyReset_atReset (s : State) : AtReset (applyReset s) := (atReset_resetWith s.params).with_ports _ _ _

@[simp] theorem applyReset_params (s : State) : (applyReset s).params = s.params := rfl

theorem step_of_reset {s : State} {rest : List Input} (hs : s.inputs = .reset :: rest) :
    step s = .next (applyReset (popInput s rest)) := by
  simp only [step, hs]

/-- Settles O1: the state of reset is one of reset values, and a step that takes the reset event answers `applyReset`, which has
them too, over the parameters there were. -/
theorem resetGivesEveryStateItsValue : Obligations.ResetGivesEveryStateItsValue :=
  ⟨atReset_resetWith Params.example, fun s rest hs =>
    ⟨applyReset (popInput s rest), step_of_reset hs, applyReset_atReset _, by rw [applyReset_params, popInput_params]⟩⟩

end Sys2Proof.Machine
end

section
/-! PROOFS. The encoding as a whole (30_encoding.md R90 to R104): encoder and decoder undo each other, and no two rows of the
opcode table match one word. -/

namespace Sys2Proof.Machine

variable {op : Opcode} {i : Instr} {h : Word} {ws : List Word} {a b c x : Byte}

/-! ### Argument bytes that keep clear of the reserved bits are the bytes of their operands (R93, R99) -/

theorem eq_zero_of_clear (hx : x &&& 0xFF = 0) : x = 0 := (and_FF x).symm.trans hx

theorem setWidth_of_clear3 : ∀ x : Byte, x &&& 0xF8 = 0 → (x.setWidth 3).setWidth 8 = x := by decide

theorem setWidth_of_clear4 : ∀ x : Byte, x &&& 0xF0 = 0 → (x.setWidth 4).setWidth 8 = x := by decide

theorem setWidth_of_clear5 : ∀ x : Byte, x &&& 0xE0 = 0 → (x.setWidth 5).setWidth 8 = x := by decide

theorem setWidth_of_clear6 : ∀ x : Byte, x &&& 0xC0 = 0 → (x.setWidth 6).setWidth 8 = x := by decide

theorem frameArg_headerFrame (hx : a &&& 0xFE = 0) : frameArg (headerFrame (header op a b c)) = a := by
  rw [headerFrame_header]
  revert a
  decide

theorem tableArg_headerTable (hx : a &&& 0xFE = 0) : tableArg (headerTable (header op a b c)) = a := by
  rw [headerTable_header]
  revert a
  decide

theorem boolArg_bit16 (hx : a &&& 0xFE = 0) : boolArg ((header op a b c).getLsbD 16) = a := by
  rw [header_bitA op a b c (k := 0) (by omega)]
  revert a
  decide

theorem frameBoolArg_bits (hx : a &&& 0xFC = 0) :
    frameBoolArg (headerFrame (header op a b c)) ((header op a b c).getLsbD 17) = a := by
  rw [headerFrame_header, header_bitA op a b c (k := 1) (by omega)]
  revert a
  decide

/-! ### Encoding what was decoded -/

theorem getD_of_length_one {ws : List Word} (hl : ws.length = 1) : [ws.getD 0 0] = ws := by
  obtain ⟨u, rfl⟩ := List.length_eq_one_iff.1 hl
  rfl

theorem getD_of_length_two {ws : List Word} (hl : ws.length = 2) : [ws.getD 0 0, ws.getD 1 0] = ws := by
  obtain ⟨u, v, rfl⟩ := List.length_eq_two.1 hl
  rfl

theorem getD_of_length_three {ws : List Word} (hl : ws.length = 3) : [ws.getD 0 0, ws.getD 1 0, ws.getD 2 0] = ws := by
  obtain ⟨u, v, w, rfl⟩ := List.length_eq_three.1 hl
  rfl

theorem getD_of_length_four {ws : List Word} (hl : ws.length = 4) :
    [ws.getD 0 0, ws.getD 1 0, ws.getD 2 0, ws.getD 3 0] = ws := by
  match ws, hl with
  | [u, v, w, x], _ => rfl

theorem fieldA_of_clear {w : Nat} (hw : w ≤ 8) (hx : (a.setWidth w).setWidth 8 = a) :
    ((header op a b c).extractLsb' 16 w).setWidth 8 = a := by
  rw [header_fieldA op a b c hw, hx]

theorem fieldB_of_clear {w : Nat} (hw : w ≤ 8) (hx : (b.setWidth w).setWidth 8 = b) :
    ((header op a b c).extractLsb' 8 w).setWidth 8 = b := by
  rw [header_fieldB op a b c hw, hx]

theorem halfHigh_headerBC : halfHigh (headerBC (header op a b c)) = b := by
  rw [headerBC_header, halfHigh_append]

theorem halfLow_headerBC : halfLow (headerBC (header op a b c)) = c := by
  rw [headerBC_header, halfLow_append]

theorem command_congr {a' b' c' : Byte} {ws' : List Word} (ha : a' = a) (hb : b' = b) (hc : c' = c) (hws : ws' = ws) :
    PortOp.command (header op a' b' c') ws' = .command (header op a b c) ws := by
  rw [ha, hb, hc, hws]

/-- An accepted packet is the encoding of the operation it carries, row by row: every argument byte is an operand's or 0. -/
theorem encode_instrOf (hl : ws.length = op.nops) (ha : a &&& maskA op = 0) (hb : b &&& maskB op = 0)
    (hc : c &&& maskC op = 0) : encode (instrOf op (header op a b c) ws) = .command (header op a b c) ws := by
  have hnone : op.nops = 0 → [] = ws := fun h0 => (List.length_eq_zero_iff.1 (hl.trans h0)).symm
  cases op
  case nop | ifClose | ifState | cfgGet | tsGet | serOpenCh | serCloseCh | desLevel =>
    exact command_congr (eq_zero_of_clear ha).symm (eq_zero_of_clear hb).symm (eq_zero_of_clear hc).symm (hnone rfl)
  case btTq =>
    exact command_congr (eq_zero_of_clear ha).symm (eq_zero_of_clear hb).symm (eq_zero_of_clear hc).symm
      (getD_of_length_three hl)
  case cfgApply =>
    exact command_congr (fieldA_of_clear (by omega) (setWidth_of_clear5 a ha)) (eq_zero_of_clear hb).symm
      (eq_zero_of_clear hc).symm (getD_of_length_four hl)
  case ifOpen =>
    exact command_congr (fieldA_of_clear (by omega) (setWidth_of_clear4 a ha)) (eq_zero_of_clear hb).symm
      (eq_zero_of_clear hc).symm (getD_of_length_two hl)
  case statGet | statBump =>
    exact command_congr (fieldA_of_clear (by omega) (setWidth_of_clear3 a ha)) (eq_zero_of_clear hb).symm
      (eq_zero_of_clear hc).symm (hnone rfl)
  case ifSetId =>
    exact command_congr (eq_zero_of_clear ha).symm halfHigh_headerBC halfLow_headerBC (hnone rfl)
  case frmClear | frmGetRaw | frmGetId | frmGetFlags | frmGetLen | frmGetTs | frmGetIf | serFrame | desPoll =>
    exact command_congr (frameArg_headerFrame ha) (eq_zero_of_clear hb).symm (eq_zero_of_clear hc).symm (hnone rfl)
  case frmSetRaw | frmSetId =>
    exact command_congr (frameArg_headerFrame ha) (eq_zero_of_clear hb).symm (eq_zero_of_clear hc).symm
      (getD_of_length_one hl)
  case frmSetTs =>
    exact command_congr (frameArg_headerFrame ha) (eq_zero_of_clear hb).symm (eq_zero_of_clear hc).symm
      (getD_of_length_three hl)
  case frmSetFlags =>
    exact command_congr (frameArg_headerFrame ha) (fieldB_of_clear (by omega) (setWidth_of_clear6 b hb))
      (eq_zero_of_clear hc).symm (hnone rfl)
  case frmSetLen | frmGetByte =>
    exact command_congr (frameArg_headerFrame ha) (headerB_header ..) (eq_zero_of_clear hc).symm (hnone rfl)
  case frmSetByte =>
    exact command_congr (frameArg_headerFrame ha) (headerB_header ..) (headerC_header ..) (hnone rfl)
  case frmSetIf =>
    exact command_congr (frameArg_headerFrame ha) halfHigh_headerBC halfLow_headerBC (hnone rfl)
  case frmExtract =>
    exact command_congr (frameBoolArg_bits ha) (headerB_header ..) (headerC_header ..) (hnone rfl)
  case tsConv =>
    exact command_congr (frameBoolArg_bits ha) (eq_zero_of_clear hb).symm (eq_zero_of_clear hc).symm
      (getD_of_length_three hl)
  case btLookup =>
    exact command_congr (tableArg_headerTable ha) (eq_zero_of_clear hb).symm (eq_zero_of_clear hc).symm
      (getD_of_length_three hl)
  case btCount =>
    exact command_congr (tableArg_headerTable ha) (eq_zero_of_clear hb).symm (eq_zero_of_clear hc).symm
      (getD_of_length_one hl)
  case btItem =>
    exact command_congr (tableArg_headerTable ha) (eq_zero_of_clear hb).symm (eq_zero_of_clear hc).symm
      (getD_of_length_two hl)
  case dlcEnc | dlcDec =>
    exact command_congr (boolArg_bit16 ha) (headerB_header ..) (eq_zero_of_clear hc).symm (hnone rfl)
  case serBitrate | serFdRate =>
    exact command_congr (eq_zero_of_clear ha).symm (fieldB_of_clear (by omega) (setWidth_of_clear4 b hb))
      (eq_zero_of_clear hc).symm (hnone rfl)

/-- What the decoder checks (R98 to R100), and the operation it answers then. -/
theorem decode_command_iff : decode (.command h ws) = .instr i ↔
    ∃ op, ws.length = op.nops ∧ h &&& op.mask = op.pattern ∧ i = instrOf op h ws := by
  constructor
  · intro hd
    simp only [decode, decodeCommand] at hd
    split at hd
    · cases hd
    · next op _ =>
      split_ifs at hd with hlen hmask
      cases hd
      exact ⟨op, not_not.1 hlen, not_not.1 hmask, rfl⟩
  · rintro ⟨op, hlen, hmask, rfl⟩
    obtain ⟨a, b, c, rfl, ha, hb, hc⟩ := header_of_match hmask
    exact decode_header hlen ha hb hc

/-- Settles O9: an accepted packet is its row's header with clear reserved bits, so `encode_instrOf` applies; the two port
operations are their transfers. -/
theorem encodeOfDecode : Obligations.EncodeOfDecode := by
  intro op i hd
  cases op with
  | command h ws =>
    obtain ⟨op, hlen, hmask, rfl⟩ := decode_command_iff.1 hd
    obtain ⟨a, b, c, rfl, ha, hb, hc⟩ := header_of_match hmask
    exact encode_instrOf hlen ha hb hc
  | rxByte | txRequest =>
    cases hd
    rfl

/-! ### Decoding what was encoded -/

theorem carries_btTq (clk w3 w4 : Word) : Carries 0x23000000 [clk, w3, w4] (.btTq clk w3 w4) :=
  carries_of_header (Laws.HeaderForm.btTq clk w3 w4) rfl rfl rfl rfl

/-- A packet that carries an operation is the one the encoder writes. -/
theorem decode_encode_of_carries (hd : Carries h ws i) : decode (encode i) = .instr i := by
  rw [encodeOfDecode _ _ hd]
  exact hd

/-- Settles O8: every command has a packet that carries it, written by its rule, and by O9 the encoder's packet is that one. -/
theorem decodeOfEncode : Obligations.DecodeOfEncode
  | .nop => decode_encode_of_carries carries_nop
  | .cfgApply _ _ _ _ _ => decode_encode_of_carries (carries_cfgApply ..)
  | .ifOpen _ _ _ => decode_encode_of_carries (carries_ifOpen ..)
  | .ifClose => decode_encode_of_carries carries_ifClose
  | .ifState => decode_encode_of_carries carries_ifState
  | .ifSetId _ => decode_encode_of_carries (carries_ifSetId ..)
  | .statGet _ => decode_encode_of_carries (carries_statGet ..)
  | .statBump _ => decode_encode_of_carries (carries_statBump ..)
  | .cfgGet => decode_encode_of_carries carries_cfgGet
  | .frmClear _ => decode_encode_of_carries (carries_frmClear ..)
  | .frmSetRaw _ _ => decode_encode_of_carries (carries_frmSetRaw ..)
  | .frmGetRaw _ => decode_encode_of_carries (carries_frmGetRaw ..)
  | .frmSetId _ _ => decode_encode_of_carries (carries_frmSetId ..)
  | .frmGetId _ => decode_encode_of_carries (carries_frmGetId ..)
  | .frmSetFlags _ _ => decode_encode_of_carries (carries_frmSetFlags ..)
  | .frmGetFlags _ => decode_encode_of_carries (carries_frmGetFlags ..)
  | .frmSetLen _ _ => decode_encode_of_carries (carries_frmSetLen ..)
  | .frmGetLen _ => decode_encode_of_carries (carries_frmGetLen ..)
  | .frmSetByte _ _ _ => decode_encode_of_carries (carries_frmSetByte ..)
  | .frmGetByte _ _ => decode_encode_of_carries (carries_frmGetByte ..)
  | .frmExtract _ _ _ _ => decode_encode_of_carries (carries_frmExtract ..)
  | .frmSetTs _ _ _ _ => decode_encode_of_carries (carries_frmSetTs ..)
  | .frmGetTs _ => decode_encode_of_carries (carries_frmGetTs ..)
  | .frmSetIf _ _ => decode_encode_of_carries (carries_frmSetIf ..)
  | .frmGetIf _ => decode_encode_of_carries (carries_frmGetIf ..)
  | .btLookup _ _ _ _ => decode_encode_of_carries (carries_btLookup ..)
  | .btCount _ _ => decode_encode_of_carries (carries_btCount ..)
  | .btItem _ _ _ => decode_encode_of_carries (carries_btItem ..)
  | .btTq _ _ _ => decode_encode_of_carries (carries_btTq ..)
  | .dlcEnc _ _ => decode_encode_of_carries (carries_dlcEnc ..)
  | .dlcDec _ _ => decode_encode_of_carries (carries_dlcDec ..)
  | .tsConv _ _ _ _ _ => decode_encode_of_carries (carries_tsConv ..)
  | .tsGet => decode_encode_of_carries carries_tsGet
  | .serFrame _ => decode_encode_of_carries (carries_serFrame ..)
  | .serBitrate _ => decode_encode_of_carries (carries_serBitrate ..)
  | .serFdRate _ => decode_encode_of_carries (carries_serFdRate ..)
  | .serOpenCh => decode_encode_of_carries carries_serOpenCh
  | .serCloseCh => decode_encode_of_carries carries_serCloseCh
  | .desPoll _ => decode_encode_of_carries (carries_desPoll ..)
  | .desLevel => decode_encode_of_carries carries_desLevel
  | .rxPush _ | .txPop => rfl

/-- Settles O7: each packet is the encoding of its operation. -/
theorem knownWordsDecode : Obligations.KnownWordsDecode :=
  ⟨decodeOfEncode (.cfgApply 2 500000 875 0 0), decodeOfEncode (.ifOpen 7 80000000 0), decodeOfEncode (.ifSetId 7),
    decodeOfEncode (.frmSetFlags .f0 0b011001), decodeOfEncode (.frmSetByte .f0 3 0x42),
    decodeOfEncode (.frmExtract .f0 false 0 8), decodeOfEncode (.frmSetIf .f0 0x0102),
    decodeOfEncode (.btLookup .arb 80000000 500000 875), decodeOfEncode (.dlcDec true 9),
    decodeOfEncode (.tsConv .f1 true 500000 0 0), decodeOfEncode (.serBitrate 6), decodeOfEncode (.desPoll .f1)⟩

/-! ### The rows of the opcode table (R104) -/

/-- A word that matches a row has the row's opcode in bits 31:24. -/
theorem headerOpc_of_match (hm : h &&& op.mask = op.pattern) : headerOpc h = op.code := by
  obtain ⟨a, b, c, rfl, -⟩ := header_of_match hm
  exact headerOpc_header ..

theorem code_injective {op op' : Opcode} (hc : op.code = op'.code) : op = op' :=
  Option.some.inj (by rw [← ofCode_code op, hc, ofCode_code])

theorem opcodeOf_instrOf (op : Opcode) (h : Word) (ws : List Word) : opcodeOf (instrOf op h ws) = some op := by
  cases op <;> rfl

/-- Settles O10: the opcode byte of a matching word is its row's, and no two rows share one. -/
theorem tableRowsNeverOverlap : Obligations.TableRowsNeverOverlap := by
  refine ⟨fun a b h ha hb => ?_, fun h ws hno i hd => ?_, fun op h ws hmask hlen => ?_⟩
  · exact code_injective ((headerOpc_of_match ha).symm.trans (headerOpc_of_match hb))
  · obtain ⟨op, -, hmask, -⟩ := decode_command_iff.1 hd
    exact hno op hmask
  · exact ⟨instrOf op h ws, decode_command_iff.2 ⟨op, hlen, hmask, rfl⟩, opcodeOf_instrOf op h ws⟩

end Sys2Proof.Machine
end

section
/-! PROOFS. Everything an operation can do to the state (10_state.md R37), said once: the change it makes before it answers, and the
answer (30_encoding.md R95). What every operation keeps or writes follows by cases on the change. -/

namespace Sys2Proof.Machine

variable {s : State} {i : Instr} {op : Opcode} {f : FrameReg} {fr : Frame} {st : Status}

/-! ### The changes -/

/-- What a frame model operation or `TS.CONV` writes to the frame register it names (40_frame_model.md, 44_timestamp.md). -/
inductive FrameEdit (fr : Frame) : Instr → Frame → Prop where
  | clear (f : FrameReg) : FrameEdit fr (.frmClear f) Frame.zero
  | setRaw (f : FrameReg) (w : Word) : FrameEdit fr (.frmSetRaw f w) { fr with rawId := w }
  | setId (f : FrameReg) (id w : Word) : FrameEdit fr (.frmSetId f id) { fr with rawId := w }
  | setFlags (f : FrameReg) (g : BitVec 6) : FrameEdit fr (.frmSetFlags f g) (fr.setFlags g)
  | setLen (f : FrameReg) (n : Byte) : FrameEdit fr (.frmSetLen f n) { fr with length := clampLength n }
  | setByte (f : FrameReg) (k v : Byte) : FrameEdit fr (.frmSetByte f k v) (fr.writeByte k.toNat v)
  | setTs (f : FrameReg) {lo hi us : Word} (h : us.toNat < 1000000) :
      FrameEdit fr (.frmSetTs f lo hi us) { fr with timestamp := ⟨joinWords lo hi, us⟩ }
  | setIf (f : FrameReg) (id : Half) : FrameEdit fr (.frmSetIf f id) { fr with interfaceId := id }
  | convert (f : FrameReg) (v : Bool) (dts lo hi : Word) (time : DWord) :
      FrameEdit fr (.tsConv f v dts lo hi) { fr with timestamp := splitMicros time }

/-- The commands that put a line into the transmit queue (45_serializer.md R213 to R218). -/
def QueuesLine (i : Instr) : Prop :=
  opcodeOf i ∈ [some .serFrame, some .serBitrate, some .serFdRate, some .serOpenCh, some .serCloseCh]

/-- What an operation leaves of the state before it answers. -/
inductive Effect (s : State) : Instr → State → Prop where
  | unchanged (i : Instr) : Effect s i s
  | configured (g : BitVec 5) (r sp fr fsp : Word) :
      Effect s (.cfgApply g r sp fr fsp) { s with cfg := appliedConfig g r sp fr fsp }
  | opened (caps : BitVec 4) (clk dev : Word) : Effect s (.ifOpen caps clk dev) (openInterface dev s)
  | closed : Effect s .ifClose { s with ifState := .closed, mode := 0 }
  | identified (id : Half) : Effect s (.ifSetId id) { s with ifId := id }
  | counted (n : BitVec 3) (c : CounterId) : Effect s (.statBump n) (s.bump c)
  | edited {i : Instr} {f : FrameReg} {fr : Frame} (hf : frameOf i = some f) (h : FrameEdit (s.frame f) i fr) :
      Effect s i (s.setFrame f fr)
  | refusedFrame (f : FrameReg) : Effect s (.serFrame f) (s.bump .txErrors)
  | dropped {i : Instr} (hi : QueuesLine i) : Effect s i (s.bump .txDropped)
  | queued {i : Instr} (hi : QueuesLine i) {l : List Byte} (hfits : s.txq.length + l.length ≤ s.params.txqCap) :
      Effect s i (enqueue l s)
  | sent (f : FrameReg) {l : List Byte} (hfits : s.txq.length + l.length ≤ s.params.txqCap) :
      Effect s (.serFrame f) (stampSent f (enqueue l s))
  | drained (f : FrameReg) (cs : List Byte) : Effect s (.desPoll f) (drain cs s)
  | badLine (f : FrameReg) (cs : List Byte) :
      Effect s (.desPoll f) ({ ringDrop (drain cs s) with lineLen := 0 }.bump .rxErrors)
  | received (f : FrameReg) (cs : List Byte) {L : List Byte} {p : ParsedFrame} (hp : parseLine L = some p) :
      Effect s (.desPoll f) ((writeFrame f p { ringDrop (drain cs s) with lineLen := 0 }).bump .rxCount)
  | pushed (d : Byte) :
      Effect s (.rxPush d) { s with ring := s.ring.write s.ringHead d, ringHead := ringNext s s.ringHead }
  | overrun (d : Byte) : Effect s (.rxPush d) ({ s with ringHead := 0, ringTail := 0 }.bump .rxOverruns)
  | popped {v : Byte} {rest : List Byte} (h : s.txq = v :: rest) : Effect s .txPop { s with txq := rest }

/-- A command's answer on top of its change: `OK` with the row's number of result words, or an error its row of R261 lists. -/
inductive Answers (op : Opcode) (i : Instr) (s : State) : Result → Prop where
  | ok {u : State} {ws : List Word} (hu : Effect s i u) (hws : ws.length = op.nres) : Answers op i s (answerOk op ws u)
  | error {u : State} {st : Status} (hu : Effect s i u) (hst : st ∈ .errIllegal :: furtherStatuses op) :
      Answers op i s (raise op st u)

/-! ### What each operation can do -/

/-- An answer that leaves the state as it is. -/
theorem Answers.query {ws : List Word} (hws : ws.length = op.nres) : Answers op i s (answerOk op ws s) :=
  .ok (.unchanged i) hws

theorem Answers.refused (hst : st ∈ .errIllegal :: furtherStatuses op) : Answers op i s (raise op st s) :=
  .error (.unchanged i) hst

theorem Answers.ite {p : Prop} [Decidable p] {a b : Result} (ha : p → Answers op i s a) (hb : ¬ p → Answers op i s b) :
    Answers op i s (if p then a else b) := by
  split
  · exact ha ‹_›
  · exact hb ‹_›

theorem Answers.edit (hf : frameOf i = some f) (hres : op.nres = 0) (h : FrameEdit (s.frame f) i fr) :
    Answers op i s (answerOk op [] (s.setFrame f fr)) :=
  .ok (.edited hf h) hres.symm

theorem appendLine_answers (hi : QueuesLine i) (hres : op.nres = 0) (hst : Status.errTxFull ∈ furtherStatuses op)
    (l : List Byte) (s : State) : Answers op i s (appendLine op l s) := by
  obtain ⟨hfits, heq⟩ | ⟨-, heq⟩ := appendLine_cases op l s <;> rw [heq]
  · exact .ok (.queued hi hfits) hres.symm
  · exact .error (.dropped hi) (List.mem_cons_of_mem _ hst)

theorem serFrame_answers (f : FrameReg) (s : State) : Answers .serFrame (.serFrame f) s (execSerFrame f s) := by
  obtain ⟨e, he, -, heq⟩ | ⟨l, -, hfits, heq⟩ | ⟨l, -, -, heq⟩ := serFrame_cases f s <;> rw [heq]
  · refine .error (.refusedFrame f) ?_
    obtain rfl | rfl := he <;> decide
  · exact .ok (.sent f hfits) rfl
  · exact .error (.dropped (by simp [QueuesLine, opcodeOf])) (by decide)

theorem desPoll_answers (f : FrameReg) (s : State) : Answers .desPoll (.desPoll f) s (execDesPoll f s) := by
  obtain ⟨cs, heq | heq | ⟨p, hp, heq⟩⟩ := desPoll_cases f s <;> rw [heq]
  · exact .error (.drained f cs) (by decide)
  · exact .error (.badLine f cs) (by decide)
  · exact .ok (.received f cs hp) rfl

theorem dataPhaseWords_length {caps : BitVec 4} {clk : Word} {wd : List Word} (h : dataPhaseWords caps clk s = some wd) :
    wd.length = 6 := by
  unfold dataPhaseWords at h
  split at h
  · obtain ⟨e, -, rfl⟩ := Option.map_eq_some_iff.1 h
    rfl
  · cases h
    rfl

theorem ifOpen_answers (caps : BitVec 4) (clk dev : Word) (s : State) :
    Answers .ifOpen (.ifOpen caps clk dev) s (execIfOpen caps clk dev s) := by
  refine .ite (fun _ => .refused (by decide)) fun _ => .ite (fun _ => .refused (by decide)) fun _ => ?_
  split
  · exact .refused (by decide)
  · split
    · exact .refused (by decide)
    · next hwd =>
      refine .ok (.opened caps clk dev) ?_
      rw [List.length_append, dataPhaseWords_length hwd]
      rfl

/-- Everything a command can do, in any state. -/
theorem exec_answers (hop : opcodeOf i = some op) (s : State) : Answers op i s (exec i s) := by
  cases i <;> cases hop
  case cfgApply => exact .ite (fun _ => .refused (by decide)) fun _ => .ok (.configured ..) rfl
  case ifOpen => exact ifOpen_answers ..
  case ifClose => exact .ok .closed rfl
  case ifSetId => exact .ok (.identified _) rfl
  case statBump =>
    simp only [exec, execStatBump]
    split
    · exact .refused (by decide)
    · exact .ok (.counted ..) rfl
  case statGet | btLookup | btItem | dlcEnc | dlcDec =>
    simp only [exec, execStatGet, execBtLookup, execBtItem, execDlcEnc, execDlcDec]
    split
    · exact .refused (by decide)
    · exact .query rfl
  case frmClear => exact .edit rfl rfl (.clear _)
  case frmSetRaw => exact .edit rfl rfl (.setRaw ..)
  case frmSetId => exact .edit rfl rfl (.setId ..)
  case frmSetFlags => exact .edit rfl rfl (.setFlags ..)
  case frmSetLen => exact .edit rfl rfl (.setLen ..)
  case frmSetByte => exact .edit rfl rfl (.setByte ..)
  case frmSetIf => exact .edit rfl rfl (.setIf ..)
  case frmSetTs =>
    exact .ite (fun _ => .refused (by decide)) fun hus => .edit rfl rfl (.setTs _ (Nat.not_le.1 hus))
  case tsConv =>
    exact .ite (fun _ => .refused (by decide)) fun _ => .ok (.edited rfl (.convert ..)) rfl
  case btTq => exact .ite (fun _ => .refused (by decide)) fun _ => .query rfl
  case serFrame => exact serFrame_answers ..
  case serBitrate =>
    exact .ite (fun _ => .refused (by decide)) fun _ =>
      appendLine_answers (by simp [QueuesLine, opcodeOf]) rfl (by decide) _ s
  case serFdRate =>
    exact .ite (fun _ => appendLine_answers (by simp [QueuesLine, opcodeOf]) rfl (by decide) _ s) fun _ =>
      .refused (by decide)
  case serOpenCh | serCloseCh => exact appendLine_answers (by simp [QueuesLine, opcodeOf]) rfl (by decide) _ s
  case desPoll => exact desPoll_answers ..
  -- The other commands only report.
  all_goals exact .query rfl

/-- What leaves the block is added to the outputs. -/
def State.emitAll (s : State) (os : List Output) : State := { s with outputs := s.outputs ++ os }

theorem rxPush_effect (d : Byte) (s : State) : ∃ u, exec (.rxPush d) s = .next u ∧ Effect s (.rxPush d) u ∧
    u.outputs = s.outputs := by
  by_cases hfull : ringNext s s.ringHead = s.ringTail
  · exact ⟨_, exec_rxPush_overrun hfull, .overrun d, rfl⟩
  · exact ⟨_, exec_rxPush_stores hfull, .pushed d, rfl⟩

theorem txPop_effect (s : State) : (exec .txPop s = .next (s.emit .txEmpty)) ∨
    ∃ v u, exec .txPop s = .next (u.emit (.txByte v)) ∧ Effect s .txPop u ∧ u.outputs = s.outputs := by
  cases hq : s.txq with
  | nil => exact .inl (exec_txPop_nil hq)
  | cons v rest => exact .inr ⟨v, _, exec_txPop_cons hq, .popped hq, rfl⟩

theorem exec_effect (i : Instr) (s : State) : ∃ u os, Effect s i u ∧ exec i s = .next (u.emitAll os) := by
  cases hop : opcodeOf i with
  | some op =>
    have hans := exec_answers hop s
    generalize exec i s = r at hans ⊢
    cases hans with
    | ok hu => exact ⟨_, _, hu, rfl⟩
    | error hu => exact ⟨_, _, hu, rfl⟩
  | none =>
    cases i
    case rxPush d =>
      obtain ⟨u, heq, hu, -⟩ := rxPush_effect d s
      exact ⟨u, [], hu, by rw [heq, State.emitAll, List.append_nil]⟩
    case txPop =>
      obtain heq | ⟨v, u, heq, hu, -⟩ := txPop_effect s
      · exact ⟨s, _, .unchanged _, heq⟩
      · exact ⟨u, _, hu, heq⟩
    all_goals cases hop

end Sys2Proof.Machine
end

section
/-! PROOFS. What follows for every operation and every step from the changes `Effect` lists: an answer always comes
(60_exceptions.md R272), the invariant is kept, and each piece of state is written only by the operations named for it
(10_state.md R37). -/

namespace Sys2Proof.Machine

variable {s u : State} {i : Instr} {fr fr' x y : Frame}

/-! ### Responses (30_encoding.md R95, 60_exceptions.md R261) -/

/-- A change comes before the answer: it adds nothing to what has left the block. -/
theorem Effect.outputs (h : Effect s i u) : u.outputs = s.outputs := by
  cases h with
  | drained f cs | badLine f cs | received f cs =>
    have hdrain : (drain cs s).outputs = s.outputs := by rw [drain_rest]
    exact hdrain
  | _ => rfl

theorem ok_not_further (op : Opcode) : Status.ok ∉ .errIllegal :: furtherStatuses op := by
  cases op <;> decide

/-- Settles O13: a command's response is the one of `exec_answers`, a rejected packet's that of `illegalPacket`. -/
theorem everyCommandGetsOneResponse : Obligations.EveryCommandGetsOneResponse := by
  refine ⟨fun i op s t hop ht => ?_, fun h ws e s hd => runOp_of_rejected s hd, fun d s t ht => ?_, fun s t ht => ?_⟩
  · have hans := exec_answers hop s
    rw [ht] at hans
    cases hans with
    | @ok u ws hu hws =>
      refine ⟨.ok, ws, ?_, fun _ => hws, fun hne => absurd rfl hne, .inl rfl⟩
      rw [emit_outputs, hu.outputs, statusWord_eq]
    | @error u st hu hst =>
      refine ⟨st, [], ?_, fun hok => absurd (hok ▸ hst) (ok_not_further op), fun _ => rfl, .inr (List.mem_cons.1 hst)⟩
      rw [emit_outputs, hu.outputs, statusWord_eq]
  · obtain ⟨u, heq, -, hout⟩ := rxPush_effect d s
    cases heq.symm.trans ht
    exact hout
  · obtain heq | ⟨v, u, heq, -, hout⟩ := txPop_effect s
    · cases heq.symm.trans ht
      exact .inl rfl
    · cases heq.symm.trans ht
      exact .inr ⟨v, by rw [emit_outputs, hout]⟩

/-! ### Steps -/

theorem step_of_empty (hs : s.inputs = []) : step s = .next s := by
  simp only [step, hs]

/-- Settles O6: the first case of `step`. -/
theorem nothingPendingChangesNothing : Obligations.NothingPendingChangesNothing := fun _ => step_of_empty

/-- Settles O5: the step takes the input and runs what its transfer decodes to. -/
theorem stepRunsTheDecodedOperation : Obligations.StepRunsTheDecodedOperation := by
  intro s now op rest i hs hd
  rw [step_of_operation hs]
  simp only [runOp, hd, takeInput]

/-- A transfer has the effect of an operation, or only an answer. -/
theorem runOp_effect (op : PortOp) (s : State) : ∃ i u os, Effect s i u ∧ runOp op s = .next (u.emitAll os) := by
  unfold runOp
  cases decode op with
  | instr i => exact ⟨i, exec_effect i s⟩
  | rejected e =>
    refine ⟨.nop, s, ?_⟩
    cases op with
    | command h ws => exact ⟨_, .unchanged _, rfl⟩
    | rxByte | txRequest => exact ⟨[], .unchanged _, by rw [State.emitAll, List.append_nil]; rfl⟩

/-- Everything a step can do. -/
theorem step_cases (s : State) : step s = .next s ∨ (∃ rest, step s = .next (applyReset (popInput s rest))) ∨
    ∃ now rest i u os, Effect (takeInput s now rest) i u ∧ step s = .next (u.emitAll os) := by
  cases hs : s.inputs with
  | nil => exact .inl (step_of_empty hs)
  | cons input rest =>
    cases input with
    | reset => exact .inr (.inl ⟨rest, step_of_reset hs⟩)
    | operation now op =>
      rw [step_of_operation hs]
      exact .inr (.inr ⟨now, rest, runOp_effect op _⟩)

/-- Settles O4: by `exec_effect` and `step_cases`. -/
theorem everyOperationAnswersANextState : Obligations.EveryOperationAnswersANextState := by
  refine ⟨fun i s => ?_, fun s => ?_⟩
  · obtain ⟨u, os, -, heq⟩ := exec_effect i s
    exact ⟨_, heq⟩
  · obtain heq | ⟨rest, heq⟩ | ⟨now, rest, i, u, os, -, heq⟩ := step_cases s
    · exact ⟨_, heq⟩
    · exact ⟨_, heq⟩
    · exact ⟨_, heq⟩

/-! ### The invariant -/

theorem frameInv_zero : FrameInv Frame.zero := ⟨by decide, by decide, rfl, rfl⟩

theorem inv_resetWith {p : Params} (hp : p.WithinBounds) : Inv (State.resetWith p) := by
  obtain ⟨hring, hline, -⟩ := id hp
  exact ⟨hp, frameInv_zero, frameInv_zero, nofun, fun _ => rfl, Nat.zero_lt_two.trans_le hring,
    Nat.zero_lt_two.trans_le hring, rfl, rfl, Nat.lt_of_lt_of_le (Nat.succ_pos _) hline, rfl, rfl, Nat.zero_le _⟩

/-- Settles O2: `Params.example` is within the bounds. -/
theorem invariantHoldsAfterReset : Obligations.InvariantHoldsAfterReset :=
  ⟨inv_resetWith (by decide), fun _ => inv_resetWith⟩

theorem inv_applyReset (h : Inv s) : Inv (applyReset s) := { inv_resetWith h.bounds with }

theorem inv_emitAll {os : List Output} (h : Inv s) : Inv (s.emitAll os) := { h with }

theorem clampLength_le_64 (n : Byte) : (clampLength n).toNat ≤ 64 := by
  unfold clampLength
  split
  · assumption
  · decide

theorem frameInv_writeByte (h : FrameInv fr) (k : Nat) (v : Byte) : FrameInv (fr.writeByte k v) := by
  by_cases hk : k < 64
  · rw [writeByte_lt hk]
    exact { h with data_wf := write_wf h.data_wf, data_below := write_below h.data_below hk }
  · rw [writeByte_ge (Nat.not_lt.1 hk)]
    exact h

theorem splitMicros_lt (time : DWord) : (splitMicros time).microseconds.toNat < 1000000 := by
  rw [(splitMicros_spec time).2]
  exact Nat.mod_lt _ (by decide)

theorem FrameEdit.frameInv (hedit : FrameEdit fr i fr') (h : FrameInv fr) : FrameInv fr' := by
  cases hedit with
  | clear => exact frameInv_zero
  | setRaw | setId | setIf => exact { h with }
  | setFlags => exact frameInv_setFlags h
  | setLen f n => exact { h with length_le := clampLength_le_64 n }
  | setByte => exact frameInv_writeByte h ..
  | setTs f hus => exact { h with micros_lt := hus }
  | convert f v dts lo hi time => exact { h with micros_lt := splitMicros_lt time }

theorem Effect.inv (heffect : Effect s i u) (h : Inv s) : Inv u := by
  cases heffect with
  | unchanged => exact h
  | configured | identified => exact { h with }
  | opened => exact { h with not_opening := nofun, closed_mode := nofun }
  | closed => exact { h with not_opening := nofun, closed_mode := fun _ => rfl }
  | counted | refusedFrame | dropped => exact inv_bump h
  | edited hf hedit => exact inv_setFrame h (hedit.frameInv (inv_frame h _))
  | queued hi hfits => exact inv_enqueue h hfits
  | sent f hfits =>
    exact inv_setFrame (inv_bump (inv_enqueue h hfits)) { inv_frame h f with micros_lt := splitMicros_lt _ }
  | drained f cs => exact inv_drain cs h
  | badLine f cs => exact inv_bump (inv_clearLine (inv_ringDrop (inv_drain cs h)))
  | received f cs hp =>
    have hline := inv_clearLine (inv_ringDrop (inv_drain cs h))
    exact inv_bump (inv_setFrame hline (frameInv_received (inv_frame hline f) hp))
  | pushed d =>
    exact { h with
      head_lt := ringNext_lt h.ringOk _
      ring_wf := write_wf h.ring_wf
      ring_below := write_below h.ring_below h.head_lt }
  | overrun =>
    have hpos : 0 < s.params.ringCap := Nat.lt_of_le_of_lt (Nat.zero_le _) h.head_lt
    exact inv_bump { h with head_lt := hpos, tail_lt := hpos }
  | @popped v rest hq =>
    have hlen := h.txq_le
    rw [hq] at hlen
    exact { h with txq_le := Nat.le_of_succ_le hlen }

/-- Settles O3: nothing, the reset event, or the effect of an operation on the state with its input taken. -/
theorem invariantKeptByEveryStep : Obligations.InvariantKeptByEveryStep := by
  intro s t h ht
  obtain heq | ⟨rest, heq⟩ | ⟨now, rest, i, u, os, hu, heq⟩ := step_cases s
  · cases heq.symm.trans ht
    exact h
  · cases heq.symm.trans ht
    exact inv_applyReset { h with }
  · cases heq.symm.trans ht
    exact inv_emitAll (hu.inv (inv_takeInput h))

/-! ### Who writes what -/

/-- The clauses of R37 on the fields of the frame register an operation names. -/
structure FieldsWritten (i : Instr) (x y : Frame) : Prop where
  rawId : y.rawId ≠ x.rawId →
    opcodeOf i ∈ [some .frmClear, some .frmSetRaw, some .frmSetId, some .frmSetFlags, some .desPoll]
  length : y.length ≠ x.length → opcodeOf i ∈ [some .frmClear, some .frmSetLen, some .desPoll]
  data : y.data ≠ x.data → opcodeOf i ∈ [some .frmClear, some .frmSetByte, some .desPoll]
  fdBrs : y.isFD ≠ x.isFD ∨ y.isBRS ≠ x.isBRS → opcodeOf i ∈ [some .frmClear, some .frmSetFlags, some .desPoll]
  timestamp : y.timestamp ≠ x.timestamp →
    opcodeOf i ∈ [some .frmClear, some .frmSetTs, some .tsConv, some .serFrame, some .desPoll]
  interfaceId : y.interfaceId ≠ x.interfaceId → opcodeOf i ∈ [some .frmClear, some .frmSetIf, some .desPoll]
  direction : y.direction ≠ x.direction →
    opcodeOf i ∈ [some .frmClear, some .frmSetFlags, some .serFrame, some .desPoll]

theorem FrameEdit.fieldsWritten (h : FrameEdit x i y) : FieldsWritten i x y := by
  cases h with
  | setByte f k v => constructor <;> simp [opcodeOf, Frame.writeByte, apply_ite]
  | _ => constructor <;> simp [opcodeOf, Frame.setFlags]

theorem frame_setFrame_written {g : FrameReg} (hg : frameOf i = some g) (h : FieldsWritten i (s.frame g) fr) (f : FrameReg) :
    (s.setFrame g fr).frame f = s.frame f ∨
      (frameOf i = some f ∧ FieldsWritten i (s.frame f) ((s.setFrame g fr).frame f)) := by
  by_cases hgf : g = f
  · subst hgf
    rw [frame_setFrame_same]
    exact .inr ⟨hg, h⟩
  · exact .inl (frame_setFrame_other s g f fr hgf)

theorem frame_drain (cs : List Byte) (s : State) (f : FrameReg) : (drain cs s).frame f = s.frame f := by
  rw [drain_rest]
  rfl

/-- A frame register is as before, or the operation names it and may write what it changed. -/
theorem Effect.frames (h : Effect s i u) (f : FrameReg) :
    u.frame f = s.frame f ∨ (frameOf i = some f ∧ FieldsWritten i (s.frame f) (u.frame f)) := by
  cases h with
  | edited hf hedit => exact frame_setFrame_written hf hedit.fieldsWritten f
  | @sent g l hfits =>
    exact frame_setFrame_written (s := (enqueue l s).bump .txCount) rfl (by constructor <;> simp [opcodeOf]) f
  | drained g cs | badLine g cs => exact .inl (frame_drain cs s f)
  | received g cs hp =>
    rw [← frame_drain cs s f]
    exact frame_setFrame_written (s := { ringDrop (drain cs s) with lineLen := 0 }) rfl
      (by constructor <;> simp [opcodeOf]) f
  | _ => exact .inl rfl

/-- The clauses of R37 on the state behind the frame registers. -/
structure RegistersWritten (i : Instr) (s u : State) : Prop where
  cfg : u.cfg ≠ s.cfg → opcodeOf i = some .cfgApply
  interface : u.ifState ≠ s.ifState ∨ u.mode ≠ s.mode → opcodeOf i ∈ [some .ifOpen, some .ifClose]
  ifId : u.ifId ≠ s.ifId → opcodeOf i = some .ifSetId
  counters : u.counters ≠ s.counters → opcodeOf i ∈ [some .statBump, some .ifOpen, some .serFrame, some .serBitrate,
    some .serFdRate, some .serOpenCh, some .serCloseCh, some .desPoll] ∨ ∃ d, i = .rxPush d
  clock : u.hostOff ≠ s.hostOff ∨ u.devT0 ≠ s.devT0 → opcodeOf i = some .ifOpen
  ring : u.ring ≠ s.ring ∨ u.ringHead ≠ s.ringHead → ∃ d, i = .rxPush d
  ringTail : u.ringTail ≠ s.ringTail → opcodeOf i = some .desPoll ∨ ∃ d, i = .rxPush d
  line : u.line ≠ s.line ∨ u.lineLen ≠ s.lineLen → opcodeOf i = some .desPoll
  txq : u.txq ≠ s.txq → opcodeOf i ∈ [some .serFrame, some .serBitrate, some .serFdRate, some .serOpenCh,
    some .serCloseCh] ∨ i = .txPop
  params : u.params = s.params

theorem exists_drain_eq (cs : List Byte) (s : State) : ∃ tail m n k,
    drain cs s = { s with ringTail := tail, line := m, lineLen := n, counters := k } :=
  ⟨_, _, _, _, drain_rest cs s⟩

/-- The operations that queue a line may count what they drop. -/
theorem QueuesLine.counts (h : QueuesLine i) : opcodeOf i ∈ [some .statBump, some .ifOpen, some .serFrame, some .serBitrate,
    some .serFdRate, some .serOpenCh, some .serCloseCh, some .desPoll] :=
  List.mem_of_mem_dropLast (List.mem_of_mem_drop (i := 2) h)

theorem Effect.registers (h : Effect s i u) : RegistersWritten i s u := by
  cases h with
  | dropped hi => constructor <;> simp [hi.counts]
  | queued hi => constructor <;> simp [show opcodeOf i ∈ _ from hi]
  | sent => constructor <;> simp [opcodeOf, stampSent]
  | drained f cs | badLine f cs | received f cs =>
    obtain ⟨tail, m, n, k, hdrain⟩ := exists_drain_eq cs s
    rw [hdrain]
    constructor <;> simp [opcodeOf, writeFrame]
  | opened => constructor <;> simp [opcodeOf, openInterface]
  | _ => constructor <;> simp [opcodeOf]

/-- Settles O15: what an operation answers comes on top of its effect, whose frames and registers are written by the table. -/
theorem onlyNamedOperationsWriteEachState : Obligations.OnlyNamedOperationsWriteEachState := by
  intro i s t ht
  obtain ⟨u, os, hu, heq⟩ := exec_effect i s
  cases heq.symm.trans ht
  have hnamed (f : FrameReg) (hne : u.frame f ≠ s.frame f) :
      frameOf i = some f ∧ FieldsWritten i (s.frame f) (u.frame f) := (hu.frames f).resolve_left hne
  have hregs := hu.registers
  exact ⟨fun f h => (hnamed f (ne_of_apply_ne Frame.rawId h)).imp_right (·.rawId h),
    fun f h => (hnamed f (ne_of_apply_ne Frame.length h)).imp_right (·.length h),
    fun f h => (hnamed f (ne_of_apply_ne Frame.data h)).imp_right (·.data h),
    fun f h => (hnamed f (h.elim (ne_of_apply_ne Frame.isFD) (ne_of_apply_ne Frame.isBRS))).imp_right (·.fdBrs h),
    fun f h => (hnamed f (ne_of_apply_ne Frame.timestamp h)).imp_right (·.timestamp h),
    fun f h => (hnamed f (ne_of_apply_ne Frame.interfaceId h)).imp_right (·.interfaceId h),
    fun f h => (hnamed f (ne_of_apply_ne Frame.direction h)).imp_right (·.direction h),
    hregs.cfg, hregs.interface, hregs.ifId, hregs.counters, hregs.clock, hregs.ring, hregs.ringTail, hregs.line, hregs.txq,
    hregs.params⟩

end Sys2Proof.Machine
end

section
/-! PROOFS. Two runs of one operation: what an operation cannot see can be changed before it or after it (10_state.md R29, R45,
log entries 1 and 2; 20_memory.md R73; 70_reset_and_hazards.md R291). -/

namespace Sys2Proof.Machine

variable {s u : State} {i : Instr} {op : Opcode} {f : FrameReg}

/-! ### What an operation cannot see -/

/-- A change of what some operations do not see. -/
structure Disturbance where
  frame : FrameReg → Frame → Frame
  now : DWord → DWord
  ring : Memory → Memory
  line : Memory → Memory
  past : List Output
  pending : List Input → List Input

/-- Nothing changes. -/
def Disturbance.none : Disturbance := ⟨fun _ => id, id, id, id, [], id⟩

/-- The operations that read the host time input (10_state.md R45). -/
def readsHostTime : Instr → Bool
  | .ifOpen _ _ _ | .tsConv _ _ _ _ _ | .serFrame _ | .desPoll _ => true
  | _ => false

/-- The operations that read or write slots of the ring or the line buffer. -/
def usesSlots : Instr → Bool
  | .rxPush _ | .desPoll _ => true
  | _ => false

/-- The change, but for what the operation `i` may see. -/
def State.disturb (d : Disturbance) (i : Instr) (s : State) : State :=
  { s with
    f0 := if frameOf i = some .f0 then s.f0 else d.frame .f0 s.f0
    f1 := if frameOf i = some .f1 then s.f1 else d.frame .f1 s.f1
    hostNow := bif readsHostTime i then s.hostNow else d.now s.hostNow
    ring := bif usesSlots i then s.ring else d.ring s.ring
    line := bif usesSlots i then s.line else d.line s.line
    outputs := d.past ++ s.outputs
    inputs := d.pending s.inputs }

theorem disturb_emit (d : Disturbance) (i : Instr) (o : Output) (u : State) :
    (u.emit o).disturb d i = (u.disturb d i).emit o := by
  simp [State.disturb, State.emit]

theorem answerOk_disturb (d : Disturbance) (i : Instr) (op : Opcode) (ws : List Word) (u : State) :
    mapNext (State.disturb d i) (answerOk op ws u) = answerOk op ws (u.disturb d i) :=
  congrArg Host.Outcome.next (disturb_emit d i _ u)

theorem raise_disturb (d : Disturbance) (i : Instr) (op : Opcode) (st : Status) (u : State) :
    mapNext (State.disturb d i) (raise op st u) = raise op st (u.disturb d i) :=
  congrArg Host.Outcome.next (disturb_emit d i _ u)

/-- Two runs of one test. -/
theorem ite_mapNext {g : State → State} {p : Prop} [Decidable p] {a b a' b' : Result} (ha : mapNext g a = a')
    (hb : mapNext g b = b') : mapNext g (if p then a else b) = if p then a' else b' := by
  split
  · exact ha
  · exact hb

theorem appendLine_disturb (d : Disturbance) (i : Instr) (op : Opcode) (l : List Byte) (s : State) :
    mapNext (State.disturb d i) (appendLine op l s) = appendLine op l (s.disturb d i) :=
  ite_mapNext (answerOk_disturb ..) (raise_disturb ..)

theorem ifOpen_disturb (d : Disturbance) (caps : BitVec 4) (clk dev : Word) (s : State) :
    mapNext (State.disturb d (.ifOpen caps clk dev)) (execIfOpen caps clk dev s) =
      execIfOpen caps clk dev (s.disturb d (.ifOpen caps clk dev)) := by
  refine ite_mapNext (raise_disturb ..) (ite_mapNext (raise_disturb ..) ?_)
  have hcfg : (s.disturb d (.ifOpen caps clk dev)).cfg = s.cfg := rfl
  have hlookup (rate sp : Word) : lookupEntry (s.disturb d (.ifOpen caps clk dev)) .arb clk rate sp =
      lookupEntry s .arb clk rate sp := rfl
  have hdata : dataPhaseWords caps clk (s.disturb d (.ifOpen caps clk dev)) = dataPhaseWords caps clk s := rfl
  simp only [hcfg, hlookup, hdata]
  cases lookupEntry s .arb clk s.cfg.bitrate (s.cfg.samplePoint.setWidth 32) with
  | none => exact raise_disturb ..
  | some ea =>
    cases dataPhaseWords caps clk s with
    | none => exact raise_disturb ..
    | some wd => exact answerOk_disturb ..

theorem serFrame_disturb (d : Disturbance) (f : FrameReg) (s : State) :
    mapNext (State.disturb d (.serFrame f)) (execSerFrame f s) = execSerFrame f (s.disturb d (.serFrame f)) := by
  have hframe : (s.disturb d (.serFrame f)).frame f = s.frame f := by cases f <;> rfl
  simp only [execSerFrame, hframe]
  cases encodeLine (s.frame f) with
  | error e => exact raise_disturb ..
  | ok l =>
    refine ite_mapNext ?_ (raise_disturb ..)
    cases f <;> exact answerOk_disturb ..

theorem endLine_disturb (d : Disturbance) (f : FrameReg) (s : State) :
    mapNext (State.disturb d (.desPoll f)) (endLine f s) = endLine f (s.disturb d (.desPoll f)) := by
  have hline : lineBytes (s.disturb d (.desPoll f)) = lineBytes s := rfl
  simp only [endLine, hline]
  cases parseLine (lineBytes s) with
  | none => exact raise_disturb ..
  | some p => cases f <;> exact answerOk_disturb ..

theorem storeLineByte_disturb (d : Disturbance) (f : FrameReg) (c : Byte) (s : State) :
    (storeLineByte c s).disturb d (.desPoll f) = storeLineByte c (s.disturb d (.desPoll f)) := by
  unfold storeLineByte
  rw [apply_ite (State.disturb d (.desPoll f))]
  rfl

theorem pollLoop_disturb (d : Disturbance) (f : FrameReg) (n : Nat) (s : State) :
    mapNext (State.disturb d (.desPoll f)) (pollLoop f n s) = pollLoop f n (s.disturb d (.desPoll f)) := by
  induction n generalizing s with
  | zero => exact raise_disturb ..
  | succ n ih =>
    refine ite_mapNext (raise_disturb ..) (ite_mapNext (endLine_disturb d f (ringDrop s)) ?_)
    exact (ih _).trans (congrArg (pollLoop f n) (storeLineByte_disturb d f _ (ringDrop s)))

/-- A change of what an operation cannot see may be made before it or after it. -/
theorem exec_disturb (d : Disturbance) (i : Instr) (s : State) :
    mapNext (State.disturb d i) (exec i s) = exec i (s.disturb d i) := by
  cases i
  case nop | ifClose | ifState | ifSetId | cfgGet | btCount | tsGet | desLevel => exact answerOk_disturb ..
  case frmClear f | frmSetRaw f _ | frmGetRaw f | frmSetId f _ | frmGetId f | frmSetFlags f _ | frmGetFlags f | frmSetLen f _
    | frmGetLen f | frmSetByte f _ _ | frmGetByte f _ | frmExtract f _ _ _ | frmGetTs f | frmSetIf f _ | frmGetIf f =>
    cases f <;> exact answerOk_disturb ..
  case cfgApply | btTq => exact ite_mapNext (raise_disturb ..) (answerOk_disturb ..)
  case frmSetTs f _ _ _ | tsConv f _ _ _ _ =>
    cases f <;> exact ite_mapNext (raise_disturb ..) (answerOk_disturb ..)
  case statGet n | statBump n =>
    simp only [exec, execStatGet, execStatBump]
    cases counterOf n with
    | none => exact raise_disturb ..
    | some c => exact answerOk_disturb ..
  case dlcEnc fd n =>
    simp only [exec, execDlcEnc]
    cases lenToDlc fd n.toNat with
    | none => exact raise_disturb ..
    | some _ => exact answerOk_disturb ..
  case dlcDec fd n =>
    simp only [exec, execDlcDec]
    cases dlcToLen fd n.toNat with
    | none => exact raise_disturb ..
    | some _ => exact answerOk_disturb ..
  case btLookup t clk rate sp =>
    have hlookup : lookupEntry (s.disturb d (.btLookup t clk rate sp)) t clk rate sp = lookupEntry s t clk rate sp := rfl
    simp only [exec, execBtLookup, hlookup]
    cases lookupEntry s t clk rate sp with
    | none => exact raise_disturb ..
    | some e => exact answerOk_disturb ..
  case btItem t clk k =>
    have havailable : available (s.disturb d (.btItem t clk k)) t clk = available s t clk := rfl
    simp only [exec, execBtItem, havailable]
    cases (available s t clk)[k.toNat]? with
    | none => exact raise_disturb ..
    | some r => exact answerOk_disturb ..
  case ifOpen => exact ifOpen_disturb ..
  case serFrame f => exact serFrame_disturb d f s
  case serBitrate => exact ite_mapNext (raise_disturb ..) (appendLine_disturb ..)
  case serFdRate => exact ite_mapNext (appendLine_disturb ..) (raise_disturb ..)
  case serOpenCh | serCloseCh => exact appendLine_disturb ..
  case desPoll f => exact pollLoop_disturb d f _ s
  case rxPush => exact ite_mapNext rfl rfl
  case txPop =>
    have hq : (s.disturb d .txPop).txq = s.txq := rfl
    simp only [exec, execTxPop, hq]
    cases s.txq with
    | nil => exact congrArg Host.Outcome.next (disturb_emit ..)
    | cons v rest => exact congrArg Host.Outcome.next (disturb_emit ..)

/-! ### Host time, the other frame register, past and pending transfers -/

theorem readsHostTime_eq_false (hi : opcodeOf i ∉ [some .ifOpen, some .tsConv, some .serFrame, some .desPoll]) :
    readsHostTime i = false := by
  cases i
  case ifOpen | tsConv | serFrame | desPoll => simp [opcodeOf] at hi
  all_goals rfl

theorem disturb_now (now : DWord) (hi : readsHostTime i = false) (s : State) :
    s.disturb { Disturbance.none with now := fun _ => now } i = { s with hostNow := now } := by
  simp [State.disturb, Disturbance.none, hi]

/-- Settles O16: the host time input is a disturbance to an operation that does not read it. -/
theorem hostTimeReadByFourOperations : Obligations.HostTimeReadByFourOperations := by
  intro i s now hi
  have hnow := disturb_now now (readsHostTime_eq_false hi)
  rw [← hnow, ← exec_disturb]
  exact congrArg (mapNext · (exec i s)) (funext hnow)

/-- `F[f] <- fr` as a disturbance. -/
def Disturbance.setFrame (f : FrameReg) (fr : Frame) : Disturbance :=
  { Disturbance.none with frame := fun g x => if f = g then fr else x }

theorem disturb_setFrame (fr : Frame) (hf : frameOf i ≠ some f) (s : State) :
    s.disturb (.setFrame f fr) i = s.setFrame f fr := by
  cases f <;> simp [State.disturb, Disturbance.setFrame, Disturbance.none, State.setFrame, hf]

/-- Settles O17: a frame register is a disturbance to an operation that does not name it. -/
theorem operationsIgnoreTheOtherFrame : Obligations.OperationsIgnoreTheOtherFrame := by
  intro i f fr s hf
  have hframe := disturb_setFrame fr hf
  rw [← hframe, ← exec_disturb]
  exact congrArg (mapNext · (exec i s)) (funext hframe)

theorem disturb_transfers (past : List Output) (pending : List Input) (i : Instr) (s : State) :
    s.disturb { Disturbance.none with past := past, pending := fun _ => pending } i =
      { s with outputs := past ++ s.outputs, inputs := pending } := by
  simp [State.disturb, Disturbance.none]

/-- Settles O18: past and pending transfers are a disturbance to every operation. -/
theorem operationsIgnorePendingAndPastTransfers : Obligations.OperationsIgnorePendingAndPastTransfers := by
  intro i s past pending
  have htransfers := disturb_transfers past pending i
  rw [← htransfers, ← exec_disturb]
  exact congrArg (mapNext · (exec i s)) (funext htransfers)

/-! ### Queries (20_memory.md R73) -/

/-- The operations of R73. -/
def queries : List Opcode :=
  [.statGet, .desLevel, .ifState, .cfgGet, .tsGet, .frmGetRaw, .frmGetId, .frmGetFlags, .frmGetLen, .frmGetByte, .frmGetTs,
    .frmGetIf, .frmExtract, .dlcEnc, .dlcDec, .btLookup, .btCount, .btItem, .btTq]

theorem QueuesLine.not_query (h : QueuesLine i) (hop : opcodeOf i = some op) : op ∉ queries := by
  simp only [QueuesLine, hop, List.mem_cons, Option.some.injEq, List.not_mem_nil, or_false] at h
  obtain rfl | rfl | rfl | rfl | rfl := h <;> decide

theorem Effect.of_query (h : Effect s i u) (hop : opcodeOf i = some op) (hq : op ∈ queries) : u = s := by
  cases h with
  | unchanged => rfl
  | dropped hi | queued hi => exact absurd hq (hi.not_query hop)
  | edited _ hedit =>
    cases hedit <;> cases hop <;> simp [queries] at hq
  | _ => cases hop <;> simp [queries] at hq

theorem query_answers (hop : opcodeOf i = some op) (hq : op ∈ queries) (s : State) :
    ∃ w ws, exec i s = .next (s.answer w ws) := by
  have hans := exec_answers hop s
  generalize exec i s = r at hans ⊢
  cases hans with
  | ok hu | error hu =>
    cases hu.of_query hop hq
    exact ⟨_, _, rfl⟩

/-- Settles O20: a query leaves the state as it is but for one response, and does not see that response when repeated. -/
theorem queriesChangeNothing : Obligations.QueriesChangeNothing := by
  intro i op s hop hq
  -- The answer from the state nothing has left yet is the answer whatever has left it.
  obtain ⟨w, ws, h⟩ := query_answers hop hq { s with outputs := [] }
  have hany (past : List Output) :
      exec i { s with outputs := past } = .next ({ s with outputs := past }.answer w ws) := by
    have := operationsIgnorePendingAndPastTransfers i { s with outputs := [] } past s.inputs
    rw [h] at this
    simpa [mapNext, State.answer] using this
  exact ⟨w, ws, hany s.outputs, hany _⟩

end Sys2Proof.Machine
end

section
/-! PROOFS. Slots of the ring and of the line buffer that hold no stored byte (70_reset_and_hazards.md R291): two states that differ
only there run alike. -/

namespace Sys2Proof.Machine

variable {s s' t : State} {i : Instr} {f : FrameReg} {c : Byte}

/-! ### Two states that agree but for such slots -/

theorem SlotsAgree.answer (h : SlotsAgree s s') (w : Word) (ws : List Word) :
    SlotsAgree (s.answer w ws) (s'.answer w ws) := by
  obtain ⟨hrest, hring, hline⟩ := h
  exact ⟨by rw [hrest]; rfl, hring, hline⟩

theorem SlotsAgree.bump (h : SlotsAgree s s') (k : CounterId) : SlotsAgree (s.bump k) (s'.bump k) := by
  obtain ⟨hrest, hring, hline⟩ := h
  exact ⟨by rw [hrest]; rfl, hring, hline⟩

theorem SlotsAgree.clearLine (h : SlotsAgree s s') : SlotsAgree { s with lineLen := 0 } { s' with lineLen := 0 } := by
  obtain ⟨hrest, hring, -⟩ := h
  exact ⟨by rw [hrest], hring, rfl⟩

theorem SlotsAgree.setFrame (h : SlotsAgree s s') (f : FrameReg) (fr : Frame) :
    SlotsAgree (s.setFrame f fr) (s'.setFrame f fr) := by
  obtain ⟨hrest, hring, hline⟩ := h
  exact ⟨by rw [hrest]; rfl, hring, hline⟩

/-- The ring's indices and the capacities are not slots. -/
theorem SlotsAgree.ringOk (h : SlotsAgree s s') (hs : RingOk s) : RingOk s' := by
  rw [h.rest]
  exact ⟨hs.head_lt, hs.tail_lt⟩

/-- The byte to be read next is stored, so it is the same; and so is the rest of the ring. -/
theorem SlotsAgree.drop (h : SlotsAgree s s') (hs : RingOk s) (hne : s.ringHead ≠ s.ringTail) :
    s'.ring.read s'.ringTail = s.ring.read s.ringTail ∧ SlotsAgree (ringDrop s) (ringDrop s') := by
  have hs' := h.ringOk hs
  obtain ⟨hrest, hring, hline⟩ := h
  have hne' : s'.ringHead ≠ s'.ringTail := by
    rw [hrest]
    exact hne
  rw [ringBytes_drop hs' hne', ringBytes_drop hs hne] at hring
  obtain ⟨hbyte, hring⟩ := List.cons.inj hring
  exact ⟨hbyte, by rw [hrest]; rfl, hring, hline⟩

/-- A byte stored to both line buffers. -/
theorem SlotsAgree.store (h : SlotsAgree s s') (hs : s.line.wf = true) (hs' : s'.line.wf = true) :
    SlotsAgree (storeLineByte c s) (storeLineByte c s') := by
  obtain ⟨hrest, hring, hline⟩ := h
  have hlen : s'.lineLen = s.lineLen := by rw [hrest]
  have hparams : s'.params = s.params := by rw [hrest]
  refine ⟨?_, by rw [storeLineByte_ringBytes, storeLineByte_ringBytes, hring], ?_⟩
  · rw [hrest]
    unfold storeLineByte
    simp only
    split <;> rfl
  · by_cases hfull : s.lineLen + 1 = s.params.lineCap
    · rw [lineBytes_store_full hfull, lineBytes_store_full (by rw [hlen, hparams, hfull])]
    · rw [lineBytes_store_room hs hfull, lineBytes_store_room hs' (by rwa [hlen, hparams]), hline]

/-! ### Two runs -/

/-- Both runs answer, and the states they leave agree again. -/
def RunsAgree (r r' : Result) : Prop := ∃ t t', r = .next t ∧ r' = .next t' ∧ SlotsAgree t t'

theorem RunsAgree.raise (h : SlotsAgree s s') (op : Opcode) (st : Status) : RunsAgree (raise op st s) (raise op st s') :=
  ⟨_, _, rfl, rfl, h.answer _ _⟩

theorem RunsAgree.answerOk (h : SlotsAgree s s') (op : Opcode) (ws : List Word) :
    RunsAgree (answerOk op ws s) (answerOk op ws s') :=
  ⟨_, _, rfl, rfl, h.answer _ _⟩

theorem endLine_agree (h : SlotsAgree s s') : RunsAgree (endLine f s) (endLine f s') := by
  have hwrite (p : ParsedFrame) : writeFrame f p { s' with lineLen := 0 } =
      State.setFrame { s' with lineLen := 0 } f (receivedFrame p s.hostNow s.ifId (s.frame f)) := by
    rw [h.rest]
    cases f <;> rfl
  unfold endLine
  rw [h.line]
  cases parseLine (lineBytes s) with
  | none => exact .raise (h.clearLine.bump _) _ _
  | some p =>
    simp only [hwrite]
    exact .answerOk ((h.clearLine.setFrame _ _).bump _) _ _

theorem pollLoop_agree (n : Nat) (h : SlotsAgree s s') (hring : RingOk s) (hline : LineOk s) (hline' : LineOk s') :
    RunsAgree (pollLoop f n s) (pollLoop f n s') := by
  induction n generalizing s s' with
  | zero => exact .raise h _ _
  | succ n ih =>
    have hhead : s'.ringHead = s.ringHead := by rw [h.rest]
    have htail : s'.ringTail = s.ringTail := by rw [h.rest]
    unfold pollLoop
    rw [hhead, htail]
    split
    · exact .raise h _ _
    · next hne =>
      obtain ⟨hbyte, hdrop⟩ := h.drop hring hne
      rw [htail] at hbyte
      rw [hbyte]
      split
      · exact endLine_agree hdrop
      · exact ih (hdrop.store hline.wf hline'.wf) (storeLineByte_ringOk (ringDrop_ok hring))
          (storeLineByte_lineOk (ringDrop_lineOk hline)) (storeLineByte_lineOk (ringDrop_lineOk hline'))

theorem desPoll_agree (h : SlotsAgree s s') (hs : Inv s) (hs' : Inv s') :
    RunsAgree (exec (.desPoll f) s) (exec (.desPoll f) s') := by
  have hcount : ringCount s' = ringCount s := by rw [h.rest]; rfl
  simp only [exec, execDesPoll, hcount]
  exact pollLoop_agree _ h hs.ringOk hs.lineOk hs'.lineOk

theorem rxPush_agree (d : Byte) (h : SlotsAgree s s') (hs : Inv s) (hs' : Inv s') :
    RunsAgree (exec (.rxPush d) s) (exec (.rxPush d) s') := by
  have hfull : ringNext s' s'.ringHead = s'.ringTail ↔ ringNext s s.ringHead = s.ringTail := by rw [h.rest]; rfl
  obtain ⟨hrest, hring, hline⟩ := h
  by_cases hroom : ringNext s s.ringHead = s.ringTail
  · refine ⟨_, _, exec_rxPush_overrun hroom, exec_rxPush_overrun (hfull.2 hroom), ?_, ?_, hline⟩
    · rw [hrest]
      rfl
    · -- Both rings are empty.
      have hpos : 0 < s.params.ringCap := Nat.lt_of_le_of_lt (Nat.zero_le _) hs.head_lt
      have hpos' : 0 < s'.params.ringCap := Nat.lt_of_le_of_lt (Nat.zero_le _) hs'.head_lt
      exact (ringBytes_empty ⟨hpos', hpos'⟩ rfl).trans (ringBytes_empty ⟨hpos, hpos⟩ rfl).symm
  · refine ⟨_, _, exec_rxPush_stores hroom, exec_rxPush_stores (mt hfull.1 hroom), ?_, ?_, hline⟩
    · rw [hrest]
      rfl
    · rw [ringBytes_push hs.ringOk hs.ring_wf hroom, ringBytes_push hs'.ringOk hs'.ring_wf (mt hfull.1 hroom), hring]

/-- Other slots as a disturbance. -/
def Disturbance.slots (ring line : Memory) : Disturbance :=
  { Disturbance.none with ring := fun _ => ring, line := fun _ => line }

theorem disturb_slots (ring line : Memory) (hi : usesSlots i = false) (s : State) :
    s.disturb (.slots ring line) i = { s with ring := ring, line := line } := by
  simp [State.disturb, Disturbance.slots, Disturbance.none, hi]

theorem ringBytes_congr (hring : t.ring = s.ring) (hhead : t.ringHead = s.ringHead) (htail : t.ringTail = s.ringTail)
    (hparams : t.params = s.params) : ringBytes t = ringBytes s := by
  simp only [ringBytes, ringCount, hring, hhead, htail, hparams]

theorem lineBytes_congr (hline : t.line = s.line) (hlen : t.lineLen = s.lineLen) : lineBytes t = lineBytes s := by
  simp only [lineBytes, hline, hlen]

/-- By the table of R37, an operation that does not use the slots writes neither buffer and no index of one. -/
theorem Effect.buffers_kept (hu : Effect s i t) (hi : usesSlots i = false) :
    (t.ring = s.ring ∧ t.ringHead = s.ringHead) ∧ t.ringTail = s.ringTail ∧ t.line = s.line ∧ t.lineLen = s.lineLen := by
  have hpush : ¬ ∃ d, i = .rxPush d := by
    rintro ⟨d, rfl⟩
    cases hi
  have hpoll : opcodeOf i ≠ some .desPoll := by
    intro hop
    cases i <;> cases hop
    cases hi
  have hregs := hu.registers
  exact ⟨by simpa using mt hregs.ring hpush, by simpa using mt hregs.ringTail (not_or.2 ⟨hpoll, hpush⟩),
    by simpa using mt hregs.line hpoll⟩

/-- What does not use the slots does not see them, and stores and takes no byte. -/
theorem exec_agree (hi : usesSlots i = false) (h : SlotsAgree s s') : RunsAgree (exec i s) (exec i s') := by
  obtain ⟨ring, line, rfl⟩ : ∃ ring line, s' = { s with ring := ring, line := line } := ⟨_, _, h.rest⟩
  obtain ⟨-, hring, hline⟩ := h
  have hslots := disturb_slots ring line hi
  obtain ⟨u, os, hu, heq⟩ := exec_effect i s
  obtain ⟨⟨huring, huhead⟩, hutail, huline, hulen⟩ := hu.buffers_kept hi
  have huparams := hu.registers.params
  refine ⟨_, { u.emitAll os with ring := ring, line := line }, heq, ?_, rfl, ?_, ?_⟩
  · rw [← hslots, ← exec_disturb, heq]
    exact congrArg Host.Outcome.next (hslots _)
  · calc ringBytes { u.emitAll os with ring := ring, line := line }
      _ = ringBytes { s with ring := ring, line := line } := ringBytes_congr rfl huhead hutail huparams
      _ = ringBytes s := hring
      _ = _ := (ringBytes_congr huring huhead hutail huparams).symm
  · calc lineBytes { u.emitAll os with ring := ring, line := line }
      _ = lineBytes { s with ring := ring, line := line } := lineBytes_congr rfl hulen
      _ = lineBytes s := hline
      _ = _ := (lineBytes_congr huline hulen).symm

/-- Settles O19: the two operations over the slots use stored bytes only, and no other operation sees the slots. -/
theorem slotContentsCannotBeObserved : Obligations.SlotContentsCannotBeObserved := by
  intro i s s' hs hs' h
  have hruns : RunsAgree (exec i s) (exec i s') := by
    cases i
    case rxPush d => exact rxPush_agree d h hs hs'
    case desPoll f => exact desPoll_agree h hs hs'
    all_goals exact exec_agree rfl h
  obtain ⟨t, t', ht, ht', hagree⟩ := hruns
  exact ⟨t, t', ht, ht', hagree, by rw [hagree.rest]⟩

end Sys2Proof.Machine
end

section
/-! PROOFS. What the serializer writes, the parser reads back (46_deserializer.md R247): the line of R210 written out digit by digit,
and its meaning by R231 to R235. -/

namespace Sys2Proof.Machine

variable {fr : Frame} {L l : List Byte} {c : Byte} {d n : Nat} {g : Nat → Nat}

/-! ### Upper-case digits -/

/-- The `n` digits `g 0, g 1, ...`. -/
def upperCase (n : Nat) (g : Nat → Nat) : List Byte := (List.range n).map fun j => upperDigits.getD (g j) 0

theorem eq_upperCase (h : ∀ j, j < l.length → l[j]? = some (upperDigits.getD (g j) 0)) : l = upperCase l.length g := by
  refine List.ext_getElem? fun j => ?_
  by_cases hj : j < l.length
  · rw [h j hj]
    simp [upperCase, hj]
  · simp [upperCase, hj]

theorem upperCase_reads (hg : ∀ j, j < n → g j < 16) :
    (upperCase n g).mapM hexVal = some ((List.range n).map g) ∧ 0x0D ∉ upperCase n g := by
  have hlen : (upperCase n g).length = n := by simp [upperCase]
  have hreads := mapM_upper (upperCase n g) g (fun j hj => hg j (hlen ▸ hj)) fun j hj => by
    rw [hlen] at hj
    simp [upperCase, hj]
  rwa [hlen] at hreads

/-! ### The line of a frame (45_serializer.md R210) -/

/-- How many identifier digits the line has. -/
def idDigitCount (fr : Frame) : Nat := if fr.rawId.getLsbD 31 then 8 else 3

/-- Identifier digit `j`, 0 the most significant. -/
def idNibble (fr : Frame) (j : Nat) : Nat := idNumber fr / 16 ^ (idDigitCount fr - 1 - j) % 16

/-- How many payload digits the line has. -/
def payloadDigitCount (fr : Frame) : Nat := if fr.rawId.getLsbD 30 then 0 else 2 * fr.length.toNat

/-- Payload digit `k`: the high or the low nibble of byte `k / 2`. -/
def payloadNibble (fr : Frame) (k : Nat) : Nat :=
  if k % 2 = 0 then (fr.data.read (k / 2)).toNat / 16 else (fr.data.read (k / 2)).toNat % 16

/-- The line of R210 without its carriage return, with command letter `c` and DLC code `d`. -/
def lineBody (fr : Frame) (c : Byte) (d : Nat) : List Byte :=
  c :: upperCase (idDigitCount fr) (idNibble fr) ++ upperDigits.getD d 0 :: upperCase (payloadDigitCount fr) (payloadNibble fr)

theorem idNibble_lt (fr : Frame) (j : Nat) : idNibble fr j < 16 := Nat.mod_lt _ (by decide)

theorem payloadNibble_lt (fr : Frame) (k : Nat) : payloadNibble fr k < 16 := by
  have := (fr.data.read (k / 2)).isLt
  unfold payloadNibble
  split <;> omega

/-- Even and odd places of the payload digits in one formula. -/
theorem payload_eq_upperCase {pay : List Byte} (h : ∀ i, 2 * i < pay.length →
    pay[2 * i]? = some (upperDigits.getD ((fr.data.read i).toNat / 16) 0) ∧
      pay[2 * i + 1]? = some (upperDigits.getD ((fr.data.read i).toNat % 16) 0)) :
    pay = upperCase pay.length (payloadNibble fr) := by
  refine eq_upperCase fun k hk => ?_
  obtain ⟨heven, hodd⟩ := h (k / 2) (by omega)
  unfold payloadNibble
  split
  · rwa [show 2 * (k / 2) = k by omega] at heven
  · rwa [show 2 * (k / 2) + 1 = k by omega] at hodd

/-- A line of R210 is its letter, its DLC code and digits the frame fixes. -/
theorem lineOf_eq (h : LineOf fr L) : ∃ c d, (c, lineClassOf fr) ∈ letterTable ∧ (fr.length.toNat, d) ∈ dlcTable ∧
    L = lineBody fr c d ++ [0x0D] := by
  obtain ⟨c, ids, d, pay, rfl, hletter, hids, hid, hrow, hpay, hbytes⟩ := h
  have hids' : ids = upperCase (idDigitCount fr) (idNibble fr) := by
    have hdigits := eq_upperCase hid
    rwa [hids] at hdigits
  have hpay' := payload_eq_upperCase hbytes
  rw [hpay] at hpay'
  exact ⟨c, d, hletter, hrow, by rw [hids', hpay']; rfl⟩

/-- A frame has one line. -/
theorem lineOf_unique {L' : List Byte} (h : LineOf fr L) (h' : LineOf fr L') : L = L' := by
  have hletters : ∀ p ∈ letterTable, ∀ q ∈ letterTable, p.2 = q.2 → p.1 = q.1 := by decide
  have hrows : ∀ p ∈ dlcTable, ∀ q ∈ dlcTable, p.1 = q.1 → p.2 = q.2 := by decide
  obtain ⟨c, d, hletter, hrow, rfl⟩ := lineOf_eq h
  obtain ⟨c', d', hletter', hrow', rfl⟩ := lineOf_eq h'
  obtain rfl : c = c' := hletters _ hletter _ hletter' rfl
  obtain rfl : d = d' := hrows _ hrow _ hrow' rfl
  rfl

theorem lineBody_length_lt (hlen : fr.length.toNat ≤ 64) : (lineBody fr c d).length < 139 := by
  have hids : idDigitCount fr ≤ 8 := by unfold idDigitCount; split <;> omega
  have hpay : payloadDigitCount fr ≤ 128 := by unfold payloadDigitCount; split <;> omega
  simp only [lineBody, upperCase, List.cons_append, List.length_cons, List.length_append, List.length_map, List.length_range]
  omega

theorem cr_not_mem_lineBody (hletter : (c, lineClassOf fr) ∈ letterTable) (hrow : (n, d) ∈ dlcTable) :
    0x0D ∉ lineBody fr c d := by
  have hletters : ∀ p ∈ letterTable, p.1 ≠ 0x0D := by decide
  have hrows : ∀ p ∈ dlcTable, upperDigits.getD p.2 0 ≠ 0x0D := by decide
  simp only [lineBody, List.cons_append, List.mem_cons, List.mem_append, not_or]
  exact ⟨(hletters _ hletter).symm, (upperCase_reads fun j _ => idNibble_lt fr j).2, (hrows _ hrow).symm,
    (upperCase_reads fun k _ => payloadNibble_lt fr k).2⟩

/-! ### What the line means (R231 to R235) -/

/-- What the parser is to read back. -/
def sentFrame (fr : Frame) : ParsedFrame where
  cls := lineClassOf fr
  id := idNumber fr
  n := fr.length.toNat
  bytes := if fr.rawId.getLsbD 30 = true then [] else (List.range fr.length.toNat).map fr.data.read

theorem idNumber_le (fr : Frame) : idNumber fr ≤ if fr.rawId.getLsbD 31 then 0x1FFFFFFF else 0x7FF := by
  unfold idNumber
  split <;> exact Nat.le_of_lt_succ (Nat.mod_lt _ (by decide))

/-- The identifier's digits spell it: it fits them. -/
theorem idNibbles_fold (fr : Frame) :
    ((List.range (idDigitCount fr)).map (idNibble fr)).foldl (fun a x => a * 16 + x) 0 = idNumber fr := by
  have hlt : idNumber fr < 16 ^ idDigitCount fr := by
    refine (idNumber_le fr).trans_lt ?_
    unfold idDigitCount
    split <;> decide
  refine (fold_digits (idDigitCount fr) (idNumber fr) 0).trans ?_
  rw [Nat.zero_mul, Nat.zero_add, Nat.mod_eq_of_lt hlt]

theorem payloadNibbles_spell (fr : Frame) (n : Nat) :
    SpellsBytes n ((List.range (2 * n)).map (payloadNibble fr)) ((List.range n).map fr.data.read) := by
  refine ⟨by simp, fun i hi => ?_⟩
  have hhigh : payloadNibble fr (2 * i) = (fr.data.read i).toNat / 16 := by
    simp [payloadNibble]
  have hlow : payloadNibble fr (2 * i + 1) = (fr.data.read i).toNat % 16 := by
    simp [payloadNibble, show (2 * i + 1) / 2 = i by omega]
  have hbyte : (fr.data.read i).toNat / 16 * 16 + (fr.data.read i).toNat % 16 = (fr.data.read i).toNat := by omega
  have h0 : 2 * i < 2 * n := by omega
  have h1 : 2 * i + 1 < 2 * n := by omega
  simp [hi, h0, h1, hhigh, hlow, hbyte]

/-- The line of a frame that is not refused means the frame. -/
theorem lineBody_means (hletter : (c, lineClassOf fr) ∈ letterTable) (hrow : (fr.length.toNat, d) ∈ dlcTable)
    (hlegal : fr.length.toNat ∈ legalLengths fr.isFD) : LineMeans (lineBody fr c d) (sentFrame fr) := by
  have hrows : ∀ p ∈ dlcTable, hexVal (upperDigits.getD p.2 0) = some p.2 := by decide
  refine ⟨c, _, _, _, _, d, rfl, hletter, by simp [upperCase, idDigitCount, sentFrame, lineClassOf],
    (upperCase_reads fun j _ => idNibble_lt fr j).1, (idNibbles_fold fr).symm, idNumber_le fr, hrows _ hrow, hrow,
    hlegal, fun hremote => if_pos hremote, fun hdata => ?_⟩
  have hdata : fr.rawId.getLsbD 30 ≠ true := Bool.eq_false_iff.1 hdata
  have hcount : payloadDigitCount fr = 2 * fr.length.toNat := if_neg hdata
  have hbytes : (sentFrame fr).bytes = (List.range fr.length.toNat).map fr.data.read := if_neg hdata
  rw [hcount, hbytes]
  exact ⟨_, [], _, (List.append_nil _).symm, by simp [upperCase, sentFrame],
    (upperCase_reads fun k _ => payloadNibble_lt fr k).1, payloadNibbles_spell fr _⟩

/-- What a line that is not refused is (45_serializer.md R212). -/
theorem encodeLine_ok (h : encodeLine fr = .ok l) : LineOf fr l ∧ fr.length.toNat ∈ legalLengths fr.isFD := by
  have hclass : ¬ (fr.rawId.getLsbD 29 = true ∨ (fr.isFD = true ∧ fr.rawId.getLsbD 30 = true)) := fun hbad => by
    rw [encodeLine_errFrame hbad] at h
    cases h
  have hlegal : fr.length.toNat ∈ legalLengths fr.isFD := by
    by_contra hbad
    rw [encodeLine_errLength hclass hbad] at h
    cases h
  obtain ⟨L, hL, hline⟩ := encodeLine_lineOf hclass hlegal
  cases hL.symm.trans h
  exact ⟨hline, hlegal⟩

theorem legalLength_le {fd : Bool} (h : n ∈ legalLengths fd) : n ≤ 64 := by
  have : ∀ fd : Bool, ∀ n ∈ legalLengths fd, n ≤ 64 := by decide
  exact this fd n h

/-- Settles O52: the line is `lineBody` and a carriage return, and means the frame. -/
theorem serializedLineParsesBack : Obligations.SerializedLineParsesBack := by
  intro fr l h
  obtain ⟨hline, hlegal⟩ := encodeLine_ok h
  obtain ⟨c, d, hletter, hrow, rfl⟩ := lineOf_eq hline
  have hlen := lineBody_length_lt (c := c) (d := d) (legalLength_le hlegal)
  refine ⟨lineBody fr c d, rfl, cr_not_mem_lineBody hletter hrow, ?_,
    (parseLine_iff _ (sentFrame fr)).2 (lineBody_means hletter hrow hlegal)⟩
  rw [List.length_append]
  exact hlen

end Sys2Proof.Machine
end

section
/-! PROOFS. The whole path of a frame (45_serializer.md R213, R220; 46_deserializer.md R236, R241): its line is queued, popped, pushed
and polled. -/

namespace Sys2Proof.Machine

variable {s t : State} {f g : FrameReg} {fr : Frame} {p : ParsedFrame} {L : List Byte}

/-! ### Lists of operations -/

theorem execAll_append {is js : List Instr} (h : execAll is s = .next t) : execAll (is ++ js) s = execAll js t := by
  induction is generalizing s with
  | nil =>
    cases h
    rfl
  | cons i is ih =>
    obtain ⟨u, os, -, hi⟩ := exec_effect i s
    rw [execAll_cons hi] at h
    rw [List.cons_append, execAll_cons hi, ih h]

/-- Pushed bytes join the ring in order while there is room (R241, 20_memory.md R62). -/
theorem execAll_rxPush (L : List Byte) (h : Inv s) (hroom : ringCount s + L.length < s.params.ringCap) :
    ∃ m k, execAll (L.map .rxPush) s = .next { s with ring := m, ringHead := k } ∧
      Inv { s with ring := m, ringHead := k } ∧ ringBytes { s with ring := m, ringHead := k } = ringBytes s ++ L := by
  induction L generalizing s with
  | nil => exact ⟨s.ring, s.ringHead, rfl, h, (List.append_nil _).symm⟩
  | cons d L ih =>
    rw [List.length_cons] at hroom
    have hne : ringNext s s.ringHead ≠ s.ringTail := fun hfull => by
      have := (ringNext_eq_tail h.ringOk).1 hfull
      omega
    have hpush := ringBytes_push h.ringOk h.ring_wf hne d
    have hcount : ringCount { s with ring := s.ring.write s.ringHead d, ringHead := ringNext s s.ringHead } =
        ringCount s + 1 := by
      rw [← ringBytes_length, hpush, List.length_append, ringBytes_length, List.length_singleton]
    obtain ⟨m, k, hexec, hinv, hbytes⟩ := ih ((Effect.pushed d).inv h) (by rw [hcount]; simp only; omega)
    refine ⟨m, k, ?_, hinv, ?_⟩
    · rw [List.map_cons, execAll_cons (exec_rxPush_stores hne), hexec]
    · rw [hbytes, hpush, List.append_assoc]
      rfl

/-! ### The line in the line buffer -/

/-- A line that fits the empty line buffer stands there as it is. -/
theorem lineLeft_of_fits (hempty : s.lineLen = 0) (hfits : L.length < s.params.lineCap) : lineLeft s L = L := by
  have hline : lineBytes s = [] := List.eq_nil_of_length_eq_zero ((lineBytes_length s).trans hempty)
  rw [lineLeft, lineOverflows, hline, List.nil_append, Nat.div_eq_of_lt hfits]
  rfl

/-- A ring that holds one line with its carriage return: the poll takes it all and writes the frame it means. -/
theorem desPoll_line (h : Inv s) (hbytes : ringBytes s = L ++ [charCR]) (hcr : charCR ∉ L) (hempty : s.lineLen = 0)
    (hfits : L.length < s.params.lineCap) (hmeans : LineMeans L p) :
    ∃ u, exec (.desPoll g) s = .next (u.answer 0x6000 []) ∧ u.outputs = s.outputs ∧ u.txq = s.txq ∧ ringBytes u = [] ∧
      u.lineLen = 0 ∧ u.frame g = receivedFrame p s.hostNow s.ifId (s.frame g) := by
  obtain ⟨tail, m, n, hexec, hrest, -, hline, -⟩ := desPoll_cr (f := g) h hbytes hcr
  rw [lineLeft_of_fits hempty hfits] at hline
  refine ⟨_, hexec.trans (endLine_of_meaning (hline.symm ▸ hmeans)), rfl, rfl, hrest, rfl, ?_⟩
  exact frame_setFrame_same ..

/-! ### The frame received -/

/-- A received `rawId` reads back as the class's flags and the identifier, which stays below them. -/
theorem received_rawId (hmeans : LineMeans L p) : p.rawId.getLsbD 31 = p.cls.ext ∧ p.rawId.getLsbD 30 = p.cls.rtr ∧
    (if p.cls.ext then p.rawId.toNat % 2 ^ 29 else p.rawId.toNat % 2 ^ 11) = p.id := by
  have hid := lineMeans_id_lt hmeans
  have hraw := rawId_toNat hid
  obtain ⟨-, -, -, -, -, -, -, -, -, -, -, hlimit, -⟩ := hmeans
  have hext : p.cls.ext.toNat ≤ 1 := Bool.toNat_le _
  have hrtr : p.cls.rtr.toNat ≤ 1 := Bool.toNat_le _
  have hbit (k : Nat) (b : Bool) (hb : p.rawId.toNat / 2 ^ k % 2 = b.toNat) : p.rawId.getLsbD k = b := by
    rw [BitVec.getLsbD, Nat.testBit_eq_decide_div_mod_eq, hb]
    cases b <;> rfl
  refine ⟨hbit 31 _ (by omega), hbit 30 _ (by omega), ?_⟩
  by_cases h : p.cls.ext = true
  · rw [if_pos h] at hlimit ⊢
    omega
  · rw [if_neg h] at hlimit ⊢
    omega

/-- What comes back of a frame whose line was read: its flags, identifier, length and, unless remote, its payload. -/
theorem received_sentFrame (hmeans : LineMeans L (sentFrame fr)) {old : Frame} (hold : old.data.wf = true) (now : DWord)
    (id : Half) (r : Frame) (hr : r = receivedFrame (sentFrame fr) now id old) :
    r.rawId.getLsbD 31 = fr.rawId.getLsbD 31 ∧ r.rawId.getLsbD 30 = fr.rawId.getLsbD 30 ∧ idNumber r = idNumber fr ∧
      r.length = fr.length ∧ r.isFD = fr.isFD ∧ r.isBRS = (fr.isFD && fr.isBRS) ∧
      (fr.rawId.getLsbD 30 = false → ∀ i, i < fr.length.toNat → r.data.read i = fr.data.read i) := by
  subst hr
  obtain ⟨hext, hrtr, hid⟩ := received_rawId hmeans
  refine ⟨hext, hrtr, ?_, BitVec.ofNat_toNat .. |>.trans (BitVec.setWidth_eq _), rfl, rfl, fun hdata i hi => ?_⟩
  · rw [← hext] at hid
    exact hid
  · refine (read_writeBytes_zero hold _ i).trans ?_
    have hbytes : (sentFrame fr).bytes = (List.range fr.length.toNat).map fr.data.read :=
      if_neg (Bool.eq_false_iff.1 hdata)
    rw [hbytes]
    simp [hi]

/-! ### Out and in again -/

/-- SER.FRAME and a pop for each byte of its line: the line has left the block, and the receive side is as before. -/
theorem execAll_send (h : Inv s) (hq : s.txq = []) (hencode : encodeLine (s.frame f) = .ok L)
    (hfits : L.length ≤ s.params.txqCap) :
    ∃ t, execAll (.serFrame f :: List.replicate L.length .txPop) s = .next t ∧ Inv t ∧
      t.outputs = s.outputs ++ .response 0x5000 [] :: L.map .txByte ∧ t.txq = [] ∧ ringBytes t = ringBytes s ∧
      t.lineLen = s.lineLen ∧ t.params = s.params := by
  have hfits' : s.txq.length + L.length ≤ s.params.txqCap := by
    rw [hq, List.length_nil, Nat.zero_add]
    exact hfits
  have hqueued : ((stampSent f (enqueue L s)).answer 0x5000 []).txq = L ++ [] := by
    simp [State.answer, stampSent, hq]
  refine ⟨_, (execAll_cons (exec_serFrame_fits hencode hfits')).trans (execAll_txPop L hqueued), ?_, ?_, rfl, rfl, rfl, rfl⟩
  · exact { (Effect.sent f hfits').inv h with txq_le := Nat.zero_le _ }
  · simp [State.answer, stampSent]

/-- A push for each byte of a line and DES.POLL: the frame register holds what the line means, and nothing is left over. -/
theorem execAll_receive (h : Inv s) (hring : ringBytes s = []) (hempty : s.lineLen = 0)
    (hroom : (L ++ [charCR]).length < s.params.ringCap) (hfits : L.length < s.params.lineCap) (hcr : charCR ∉ L)
    (hmeans : LineMeans L p) :
    ∃ u, execAll ((L ++ [charCR]).map .rxPush ++ [.desPoll g]) s = .next (u.answer 0x6000 []) ∧ u.outputs = s.outputs ∧
      u.txq = s.txq ∧ ringBytes u = [] ∧ u.lineLen = 0 ∧ u.frame g = receivedFrame p s.hostNow s.ifId (s.frame g) := by
  have hcount : ringCount s = 0 := by rw [← ringBytes_length, hring, List.length_nil]
  obtain ⟨m, k, hpush, hinv, hbytes⟩ := execAll_rxPush (L ++ [charCR]) h (by rwa [hcount, Nat.zero_add])
  rw [hring, List.nil_append] at hbytes
  obtain ⟨u, hpoll, hu⟩ := desPoll_line (g := g) hinv hbytes hcr hempty hfits hmeans
  exact ⟨u, (execAll_append hpush).trans (execAll_cons hpoll), hu⟩

/-- Settles O53: the frame's one line leaves by `execAll_send` and comes back by `execAll_receive`. -/
theorem frameSurvivesTheLoop : Obligations.FrameSurvivesTheLoop := by
  intro f g s L hinv hL hnoError hnoRemoteFd hlegal hq hring hempty hcap
  obtain ⟨L', hencode, hL'⟩ := encodeLine_lineOf (not_or.2 ⟨Bool.eq_false_iff.1 hnoError, hnoRemoteFd⟩) hlegal
  obtain rfl := lineOf_unique hL' hL
  obtain ⟨c, d, hletter, hrow, hbody⟩ := lineOf_eq hL
  have hshort := lineBody_length_lt (c := c) (d := d) (legalLength_le hlegal)
  have hmeans := lineBody_means hletter hrow hlegal
  have hlen : L'.length = (lineBody (s.frame f) c d).length + 1 := by rw [hbody, List.length_append]; rfl
  obtain ⟨-, hlineCap, htxqCap⟩ := hinv.bounds
  obtain ⟨t, hsend, hinvT, houtT, hqT, hringT, hlenT, hparamsT⟩ := execAll_send hinv hq hencode (by omega)
  rw [hbody] at hcap
  obtain ⟨u, hreceive, houtU, hqU, hringU, hlenU, hframe⟩ := execAll_receive (g := g) hinvT (hringT.trans hring)
    (hlenT.trans hempty) (hparamsT ▸ hcap) (hparamsT ▸ hshort.trans_le hlineCap) (cr_not_mem_lineBody hletter hrow) hmeans
  rw [← hbody] at hreceive
  refine ⟨u.answer 0x6000 [], ?_, ?_, hqU.trans hqT, hringU, hlenU, ?_⟩
  · rw [List.append_assoc]
    exact (execAll_append hsend).trans hreceive
  · rw [State.answer, houtU, houtT, List.append_assoc]
  · exact received_sentFrame hmeans (inv_frame hinvT g).data_wf _ _ _ hframe

end Sys2Proof.Machine
end

section
/-! PROOFS. Illegal values, the DLC round trip, the time quantum calculator and the accuracy of the timestamp conversion. -/

namespace Sys2Proof.Machine

variable {s : State}

/-! ### The column "illegal by value" (30_encoding.md R97, R101) -/

theorem counterOf_illegal {n : BitVec 3} (h : n = 6 ∨ n = 7) : counterOf n = none := by
  obtain rfl | rfl := h <;> rfl

/-- Settles O12: each operation's refusal, met before any other check. -/
theorem illegalValuesAnswerErrIllegal : Obligations.IllegalValuesAnswerErrIllegal := fun _ =>
  ⟨fun _ _ _ _ _ => exec_cfgApply_refused,
    fun _ hn => ⟨exec_statGet_none (counterOf_illegal hn), exec_statBump_none (counterOf_illegal hn)⟩,
    fun _ _ _ _ => exec_frmSetTs_refused, fun _ => exec_serBitrate_refused,
    fun _ h2 h4 h5 h8 => exec_serFdRate_refused fun h => h.elim h2 fun h => h.elim h4 fun h => h.elim h5 h8⟩

/-! ### The DLC mapper (43_dlc_mapper.md R193) -/

/-- Settles O40: both functions are the rows of the table with a legal length, and every legal length has a row. -/
theorem dlcRoundTrip : Obligations.DlcRoundTrip := by
  refine ⟨fun fd n d => (lenToDlc_iff fd n d).trans (dlcToLen_iff fd d n).symm, fun fd n => ⟨?_, fun hlegal => ?_⟩⟩
  · rintro ⟨d, hd⟩
    exact ((dlcToLen_iff fd d n).1 hd).2
  · obtain ⟨d, -, hrow, -⟩ := lenToDlc_legal hlegal
    exact ⟨d, (dlcToLen_iff fd d n).2 ⟨hrow, hlegal⟩⟩

/-! ### BT.TQ (41_bit_timing.md R158) -/

theorem halfOfWord_mod (w : Word) : (halfOfWord w).toNat = w.toNat % 2 ^ 16 := by
  simp [halfOfWord]

theorem highHalfOfWord_div (w : Word) : (highHalfOfWord w).toNat = w.toNat / 2 ^ 16 := by
  have := w.isLt
  rw [highHalfOfWord, BitVec.extractLsb'_toNat, Nat.shiftRight_eq_div_pow]
  omega

theorem exec_btTq_div0 {clk w3 w4 : Word} (h : w3.toNat / 2 ^ 16 = 0) :
    exec (.btTq clk w3 w4) s = .next (s.answer 0x230C []) :=
  if_pos ((highHalfOfWord_div w3).trans h)

/-- The four results of R158 as natural numbers. -/
def tqResults (clk p t1 t2 : Nat) : List Nat :=
  [1 + t1 + t2, clk / (p * (1 + t1 + t2)), clk % (p * (1 + t1 + t2)), 1000 * (1 + t1) / (1 + t1 + t2)]

theorem exec_btTq {clk w3 w4 : Word} (h : w3.toNat / 2 ^ 16 ≠ 0) : exec (.btTq clk w3 w4) s = .next (s.answer 0x2300
    ((tqResults clk.toNat (w3.toNat / 2 ^ 16) (w4.toNat % 2 ^ 16) (w4.toNat / 2 ^ 16)).map (BitVec.ofNat 32))) := by
  rw [← highHalfOfWord_div] at h
  rw [← highHalfOfWord_div, ← highHalfOfWord_div, ← halfOfWord_mod]
  exact if_neg h

/-- Every result fits its word. -/
theorem tqResults_lt {clk p t1 t2 : Nat} (hclk : clk < 2 ^ 32) (h1 : t1 < 2 ^ 16) (h2 : t2 < 2 ^ 16) :
    ∀ x ∈ tqResults clk p t1 t2, x < 2 ^ 32 := by
  have hquot : clk / (p * (1 + t1 + t2)) ≤ clk := Nat.div_le_self ..
  have hrem : clk % (p * (1 + t1 + t2)) ≤ clk := Nat.mod_le ..
  have hpoint : 1000 * (1 + t1) / (1 + t1 + t2) ≤ 1000 * (1 + t1) := Nat.div_le_self ..
  simp only [tqResults, List.mem_cons, List.not_mem_nil, or_false]
  omega

theorem map_toNat_ofNat {l : List Nat} (h : ∀ x ∈ l, x < 2 ^ 32) : (l.map (BitVec.ofNat 32)).map BitVec.toNat = l := by
  rw [List.map_map]
  exact (List.map_congr_left fun x hx => (BitVec.toNat_ofNat ..).trans (Nat.mod_eq_of_lt (h x hx))).trans (List.map_id l)

/-- Settles O39: the results as natural numbers, none cut to its word. -/
theorem timeQuantumCalculator : Obligations.TimeQuantumCalculator := fun clk w3 w4 _ =>
  ⟨carries_btTq clk w3 w4, exec_btTq_div0, fun h =>
    ⟨_, exec_btTq h, map_toNat_ofNat (tqResults_lt clk.isLt (Nat.mod_lt _ (by decide)) (by omega))⟩⟩

/-! ### The accuracy of TS.CONV (44_timestamp.md R202) -/

theorem micros_of_time {T : Nat} (h : T < 2 ^ 64) :
    Timestamp.micros ⟨BitVec.ofNat 64 (T / 1000000), BitVec.ofNat 32 (T % 1000000)⟩ = T := by
  rw [Timestamp.micros, BitVec.toNat_ofNat, BitVec.toNat_ofNat]
  omega

/-- With true inputs the device's difference is the elapsed time but for whole wraps, which are added past the threshold. -/
theorem conversionTime_true {dts : Word} {E : Nat} (hfits : s.hostOff.toNat + E < 2 ^ 64)
    (hdts : dts.toNat = (s.devT0.toNat + E) % 2 ^ 32) (hne : dts ≠ 0) : conversionTime s true dts E =
      if E < 2 ^ 32 ∨ 6442450944 < E then s.hostOff.toNat + E else s.hostOff.toNat + E - 2 ^ 32 := by
  have hread : ¬ (true = false ∨ dts.toNat = 0) := by
    simpa [← BitVec.toNat_inj] using hne
  have hdiff : (dts.toNat + 2 ^ 32 - s.devT0.toNat) % 2 ^ 32 = E % 2 ^ 32 := by
    have := s.devT0.isLt
    omega
  simp only [conversionTime, if_neg hread, hdiff]
  split <;> split <;> omega

theorem frame_answer (s : State) (w : Word) (ws : List Word) (f : FrameReg) : (s.answer w ws).frame f = s.frame f := rfl

/-- Settles O43: `TS.CONV` answers `conversionTime`, which fits the timestamp. -/
theorem timestampConversionAccuracy : Obligations.TimestampConversionAccuracy := by
  intro f dts lo hi E s hopen helapsed hfits hdts hne
  obtain ⟨-, -, hconv⟩ := timestampConversion f true dts lo hi s
  rw [helapsed] at hconv
  have htime := conversionTime_true hfits hdts hne
  have hlt : conversionTime s true dts E < 2 ^ 64 := by
    rw [htime]
    split <;> omega
  refine ⟨_, hconv hopen, ?_⟩
  rw [frame_answer, frame_setFrame_same]
  exact (micros_of_time hlt).trans htime

end Sys2Proof.Machine
end

section
/-! PROOFS. The pseudo-instructions (30_encoding.md R106): their expansions, and what `FRM.SETDATA` writes. -/

namespace Sys2Proof.Machine

variable {s : State}

/-! ### Expansions -/

theorem setDataFrom_getElem? (f : FrameReg) (i : Nat) (vs : List Byte) (k : Nat) :
    (setDataFrom f i vs)[k]? = vs[k]?.map fun v => .frmSetByte f (BitVec.ofNat 8 (i + k)) v := by
  induction vs generalizing i k with
  | nil => simp [setDataFrom]
  | cons v vs ih =>
    cases k with
    | zero => rfl
    | succ k =>
      rw [setDataFrom, List.getElem?_cons_succ, List.getElem?_cons_succ, ih, Nat.add_right_comm, Nat.add_assoc]

theorem setDataFrom_length (f : FrameReg) (i : Nat) (vs : List Byte) : (setDataFrom f i vs).length = vs.length := by
  induction vs generalizing i with
  | nil => rfl
  | cons v vs ih => rw [setDataFrom, List.length_cons, ih, List.length_cons]

theorem exec_frmSetRaw (f : FrameReg) (w : Word) (s : State) : exec (.frmSetRaw f w) s =
    .next ((s.setFrame f { s.frame f with rawId := w }).answer 0x1100 []) := rfl

theorem execAll_singleton {i : Instr} {t : State} (h : exec i s = .next t) : execAll [i] s = .next t := execAll_cons h

theorem standardId_eq (id : Word) : id &&& 0x7FF = BitVec.ofNat 32 (id.toNat % 2 ^ 11) := by
  apply BitVec.eq_of_toNat_eq
  rw [BitVec.toNat_and, BitVec.toNat_ofNat]
  exact (Nat.and_two_pow_sub_one_eq_mod _ 11).trans (by omega)

/-- The extended flag is a bit above the 29 of the identifier, so the two add up. -/
theorem extendedId_eq (id : Word) :
    (0x80000000 : Word) ||| (id &&& 0x1FFFFFFF) = BitVec.ofNat 32 (2 ^ 31 + id.toNat % 2 ^ 29) := by
  have hid : id.toNat &&& 0x1FFFFFFF = id.toNat % 2 ^ 29 := Nat.and_two_pow_sub_one_eq_mod _ 29
  have hlt : id.toNat % 2 ^ 29 < 2 ^ 31 := by omega
  apply BitVec.eq_of_toNat_eq
  rw [BitVec.toNat_or, BitVec.toNat_and, BitVec.toNat_ofNat]
  calc 2 ^ 31 ||| (id.toNat &&& 0x1FFFFFFF)
      _ = 2 ^ 31 * 1 ||| id.toNat % 2 ^ 29 := by rw [hid, Nat.mul_one]
      _ = 2 ^ 31 * 1 + id.toNat % 2 ^ 29 := (Nat.two_pow_add_eq_or_of_lt hlt 1).symm
      _ = (2 ^ 31 + id.toNat % 2 ^ 29) % 2 ^ 32 := by omega

/-- Settles O54: the expansions by index and length, the two identifiers by their bits. -/
theorem pseudoInstructionsExpand : Obligations.PseudoInstructionsExpand := by
  refine ⟨fun f vs k v hv => ?_, fun f vs => setDataFrom_length f 0 vs, fun _ => rfl, fun f id s => ⟨?_, ?_⟩⟩
  · rw [pseudoSetData, setDataFrom_getElem?, hv, Nat.zero_add]
    rfl
  · rw [← standardId_eq]
    exact execAll_singleton (exec_frmSetRaw f _ s)
  · rw [← extendedId_eq]
    exact execAll_singleton (exec_frmSetRaw f _ s)

/-! ### FRM.SETDATA -/

/-- The payload bytes of `F[f]` and the answers after the writes from an index on. -/
theorem execAll_setDataFrom (f : FrameReg) (vs : List Byte) {i : Nat} (hi : i + vs.length ≤ 64) (s : State) :
    execAll (setDataFrom f i vs) s = .next { s.setFrame f { s.frame f with data := (s.frame f).data.writeBytes i vs } with
      outputs := s.outputs ++ vs.map fun _ => .response 0x1900 [] } := by
  induction vs generalizing i s with
  | nil =>
    rw [List.map_nil, List.append_nil]
    cases f <;> rfl
  | cons v vs ih =>
    rw [List.length_cons] at hi
    have hindex : (BitVec.ofNat 8 i).toNat = i := by
      rw [BitVec.toNat_ofNat]
      omega
    have hwrite : exec (.frmSetByte f (BitVec.ofNat 8 i) v) s =
        .next ((s.setFrame f { s.frame f with data := (s.frame f).data.write i v }).answer 0x1900 []) := by
      rw [exec_frmSetByte, hindex, writeByte_lt (by omega)]
    rw [setDataFrom, execAll_cons hwrite, ih (by omega)]
    cases f <;> simp [State.answer, State.setFrame, State.frame, Memory.writeBytes]

/-- Settles O55: up to 64 bytes from index 0 on. -/
theorem setDataWritesTheBytes : Obligations.SetDataWritesTheBytes := fun f vs s hlen hwf =>
  ⟨(s.frame f).data.writeBytes 0 vs, execAll_setDataFrom f vs (by omega) s, writeBytes_wf hwf,
    read_writeBytes_zero hwf vs⟩

end Sys2Proof.Machine
end

section
/-! PROOFS. Big-endian fields of whole bytes (40_frame_model.md R133, 93_implementation_defined.md U3). -/

namespace Sys2Proof.Machine

/-- The number bytes spell, the first most significant. -/
def bigEndian (g : Nat → Byte) (m : Nat) : Nat := ((List.range m).map g).foldl (fun a b => a * 256 + b.toNat) 0

theorem bigEndian_succ (g : Nat → Byte) (m : Nat) : bigEndian g (m + 1) = bigEndian g m * 256 + (g m).toNat := by
  simp [bigEndian, List.range_succ]

/-- Bit `j` of the number: the last byte holds the lowest eight. -/
theorem bigEndian_testBit (g : Nat → Byte) (m j : Nat) :
    (bigEndian g m).testBit j = (decide (j < 8 * m) && (g (m - 1 - j / 8)).getLsbD (j % 8)) := by
  induction m generalizing j with
  | zero => simp [bigEndian]
  | succ m ih =>
    rw [bigEndian_succ, Nat.mul_comm, show 256 = 2 ^ 8 from rfl, Nat.testBit_two_pow_mul_add _ (g m).isLt]
    split
    · next hlow =>
      rw [Nat.div_eq_of_lt hlow, Nat.mod_eq_of_lt hlow, decide_eq_true (by omega), Bool.true_and]
      rfl
    · next hhigh =>
      rw [ih]
      have hdiv : m - 1 - (j - 8) / 8 = m + 1 - 1 - j / 8 := by omega
      have hmod : (j - 8) % 8 = j % 8 := by omega
      have hlt : j - 8 < 8 * m ↔ j < 8 * (m + 1) := by omega
      rw [hdiv, hmod, decide_eq_decide.2 hlt]

/-- The field of `m` whole bytes from byte `k` on, byte-swapped, is the number the bytes spell. -/
theorem extractRaw_bytes (fr : Frame) {k m : Nat} (hm : 2 ≤ m) (hk : k + m ≤ 8) :
    (extractRaw fr (8 * k) (8 * m) true).toNat = bigEndian (fun j => fr.data.read (k + j)) m := by
  refine Nat.eq_of_testBit_eq fun j => ?_
  have hswap : true = true ∧ 8 < min (8 * m) 64 := ⟨rfl, by omega⟩
  rw [BitVec.testBit_toNat, extractRaw_bit, if_pos hswap, bigEndian_testBit, Nat.min_eq_left (by omega)]
  by_cases hj : j < 8 * m
  · have hfield : 8 * (7 - (j + (64 - 8 * m)) / 8) + (j + (64 - 8 * m)) % 8 = 8 * (m - 1 - j / 8) + j % 8 := by omega
    have hbyte : (8 * k + (8 * (m - 1 - j / 8) + j % 8)) / 8 = k + (m - 1 - j / 8) := by omega
    have hbit : (8 * k + (8 * (m - 1 - j / 8) + j % 8)) % 8 = j % 8 := by omega
    have hin64 : j + (64 - 8 * m) < 64 := by omega
    have hinField : 8 * (m - 1 - j / 8) + j % 8 < min (8 * m) 64 := by omega
    have hinPayload : 8 * k + (8 * (m - 1 - j / 8) + j % 8) < 64 := by omega
    simp only [hfield, signalBit, payloadBit, hbyte, hbit, hj, hin64, hinField, hinPayload, decide_true, Bool.true_and]
  · rw [decide_eq_false (by omega), decide_eq_false hj, Bool.false_and, Bool.false_and]

/-- Settles O35: the answered words are the extracted value's. -/
theorem frameExtractBigEndianBytes : Obligations.FrameExtractBigEndianBytes := by
  intro f k m s hm hk
  have hstart : (BitVec.ofNat 8 (8 * k)).toNat = 8 * k := by
    rw [BitVec.toNat_ofNat]
    omega
  have hlen : (BitVec.ofNat 8 (8 * m)).toNat = 8 * m := by
    rw [BitVec.toNat_ofNat]
    omega
  refine ⟨_, _, rfl, ?_⟩
  rw [words_toNat, hstart, hlen]
  exact extractRaw_bytes (s.frame f) hm hk

end Sys2Proof.Machine
end
